-- ==== Sys2Proof/Word.lean ====
section
/-! DEFINITION. The words of the AEMS-DCT8 engine: what 10_state.md R22 and 20_memory.md R50 give a width to. -/

namespace Sys2Proof

/-- A bus word or a command word (20_memory.md R50, 30_encoding.md R80). -/
abbrev Word := BitVec 32

/-- A sample of IN or OUT (10_state.md R23, R26). -/
abbrev Byte := BitVec 8

/-- A divisor of QT (10_state.md R24). -/
abbrev Divisor := BitVec 16

/-- A binary64 pattern: bit 63 the sign, bits 62:52 the biased exponent, bits 51:0 the fraction (00_scope.md R9). -/
abbrev F64 := BitVec 64

/-- A byte offset within the 4096-byte register window: the port `addr` (20_memory.md R50, R60). -/
abbrev Offset := BitVec 12

/-- A 64-entry buffer in raster order, `k = 8*y + x` or `k = 8*v + u` (00_scope.md R10). -/
abbrev Block (α : Type) := Vector α 64

end Sys2Proof
end

