-- ==== Sys2Proof/Syntax.lean ====
section
/-! DEFINITION. The commands: one constructor per row of spec/opcode_table.json (30_encoding.md R83, R85). -/

namespace Sys2Proof

/-- A decoded command. `vw` and `vh` are the 4-bit fields VW and VH (30_encoding.md R81, R82). NOP and QTDEF carry no
operand: R83 and R85 ignore theirs. Log 12. -/
inductive Instr where
  /-- Do nothing (43_control.md R180). -/
  | nop
  /-- Forward transform (41_transform.md R130). -/
  | dct (vw vh : BitVec 4)
  /-- Forward transform with quantization (41_transform.md R131). -/
  | dctq (vw vh : BitVec 4)
  /-- Quantize COEF (42_quantize_writeback.md R160). -/
  | quant (vw vh : BitVec 4)
  /-- Write COEF back to OUT (42_quantize_writeback.md R161). -/
  | pack (vw vh : BitVec 4)
  /-- Restore the fixed divisor table (43_control.md R181). -/
  | qtdef
  deriving DecidableEq, Repr

end Sys2Proof
end

