-- ==== Sys2Proof/Decode.lean ====
section
/-! DEFINITION. The command word (30_encoding.md R80 to R86): its fields, the decoder, total on every 32-bit word and
rejecting by name, and the encoder. -/

namespace Sys2Proof

/-- OP, bits 3:0 (30_encoding.md R81). -/
def opField (w : Word) : BitVec 4 := w.extractLsb' 0 4

/-- RSV0, bits 7:4 (30_encoding.md R81). -/
def rsv0Field (w : Word) : BitVec 4 := w.extractLsb' 4 4

/-- VW, bits 11:8 (30_encoding.md R81). -/
def vwField (w : Word) : BitVec 4 := w.extractLsb' 8 4

/-- VH, bits 15:12 (30_encoding.md R81). -/
def vhField (w : Word) : BitVec 4 := w.extractLsb' 12 4

/-- RSV1, bits 31:16 (30_encoding.md R81). -/
def rsv1Field (w : Word) : BitVec 16 := w.extractLsb' 16 16

/-- Why a word is no command (30_encoding.md R86). -/
inductive DecodeError where
  /-- A bit of RSV0 or RSV1 is set. -/
  | reservedBits
  /-- OP is in 0x6..0xF. -/
  | reservedOpcode
  deriving DecidableEq, Repr

/-- 30_encoding.md R85: `decode(w)`. The range of VW and VH is not part of decoding. -/
def decode (w : Word) : Except DecodeError Instr :=
  if rsv1Field w ≠ 0 ∨ rsv0Field w ≠ 0 then .error .reservedBits
  else
    match (opField w).toNat with
    | 0x0 => .ok .nop
    | 0x1 => .ok (.dct (vwField w) (vhField w))
    | 0x2 => .ok (.dctq (vwField w) (vhField w))
    | 0x3 => .ok (.quant (vwField w) (vhField w))
    | 0x4 => .ok (.pack (vwField w) (vhField w))
    | 0x5 => .ok .qtdef
    | _ => .error .reservedOpcode

/-- The opcode of 30_encoding.md R83. -/
def Instr.opcode : Instr → BitVec 4
  | .nop => 0x0
  | .dct _ _ => 0x1
  | .dctq _ _ => 0x2
  | .quant _ _ => 0x3
  | .pack _ _ => 0x4
  | .qtdef => 0x5

/-- The command word laid out as 30_encoding.md R81 draws it: RSV1, VH, VW, RSV0, OP. -/
def commandWord (vh vw op : BitVec 4) : Word := (0#16 ++ vh) ++ (vw ++ (0#4 ++ op))

/-- The word of a command (30_encoding.md R87). -/
def encode : Instr → Word
  | .nop => commandWord 0 0 0x0
  | .dct vw vh => commandWord vh vw 0x1
  | .dctq vw vh => commandWord vh vw 0x2
  | .quant vw vh => commandWord vh vw 0x3
  | .pack vw vh => commandWord vh vw 0x4
  | .qtdef => commandWord 0 0 0x5

/-- The command in a word whose low `nbits` bits are `w` and whose other bits are 0. A command is one bus word
(30_encoding.md R80) and no byte string, so no byte order enters (20_memory.md R74). -/
def tableWord (nbits w : Nat) : Word := BitVec.ofNat 32 (w % 2 ^ nbits)

/-- What the decoder reads from an instruction whose bits are `w`, numbered as spec/opcode_table.json numbers them. -/
def decodeTableWord (nbits w : Nat) : Option Instr :=
  match decode (tableWord nbits w) with
  | .ok i => some i
  | .error _ => none

end Sys2Proof
end

