-- ==== Sys2Proof/Config.lean ====
section
/-! DEFINITION. What is fixed per engine and what the spec leaves open (00_scope.md R7, 10_state.md R37). The opaque
constants are the open values: nothing can be proved about them, so a claim holds whatever they are. -/

namespace Sys2Proof

/-- The arithmetic variants of 41_transform.md R124. -/
inductive Numerics where
  /-- Bit-exact binary64 in the order of R122: this hardware's value. -/
  | ref64
  /-- An uninterpreted transform, known only by its error law. -/
  | tol
  deriving DecidableEq, Repr

/-- `NUMERICS` (00_scope.md R7, 41_transform.md R124): REF64 on this hardware. Log 11. -/
def Config.numerics : Numerics := .ref64

/-- `DCT2_TOL` of 41_transform.md R124, an uninterpreted function of the padded block. No law is built in: a claim
about TOL takes the law as a hypothesis (`Sys2Proof.TolLaw`). Log 11. -/
opaque Config.dctTol : Block F64 → Block F64

/-- `DEFAULT_QT` (10_state.md R34): the named configuration constant QT takes at reset and after QTDEF; row `v` of the
rule's table is entries `8v` to `8v+7`. Log 10. -/
def Config.defaultQt : Block Divisor :=
  #v[16, 11, 10, 16, 24, 40, 51, 61,
     12, 12, 14, 19, 26, 58, 60, 55,
     14, 13, 16, 24, 40, 57, 69, 56,
     14, 17, 22, 29, 51, 87, 80, 62,
     18, 22, 37, 56, 68, 109, 103, 77,
     24, 35, 55, 64, 81, 104, 113, 92,
     49, 64, 78, 87, 103, 121, 120, 101,
     72, 92, 95, 98, 112, 100, 103, 99]

/-- `LATENCY` (00_scope.md R7, 40_command_protocol.md R104, 70_reset_and_hazards.md R250): after the `n`-th accepted
compute command, how many steps pass before its completion step. OPEN: finite and unknown. Log 2. -/
opaque Config.latency : Nat → Nat

/-- The free draw of 20_memory.md R68 (93_implementation_defined.md U1): what the `n`-th read of a COEF or OUT word
while BUSY returns. Log 3. -/
opaque Config.busyRead : Nat → Word

/-- `ENGINE_BASE` (00_scope.md R7, 20_memory.md R60): where the platform places the window. OPEN. Log 17. -/
opaque Config.engineBase : Nat

end Sys2Proof
end

