-- ==== Sys2Proof/Machine/State.lean ====
section
/-! DEFINITION. The state of the engine (10_state.md R22) as plain data, its environment, and the state after reset. -/

namespace Sys2Proof.Machine

/-- CTRL, offset 0x004 (10_state.md R28): the two bits that store. Bits 30:2 are RAZ/WI and bit 31 (SRST) reads 0, so
they are no data. Log 14. -/
structure Ctrl where
  /-- Bit 0: DONE drives the interrupt line. -/
  ieDone : Bool
  /-- Bit 1: ERR drives the interrupt line. -/
  ieErr : Bool
  deriving DecidableEq, Repr

/-- STATUS, offset 0x00C (10_state.md R30): its fields. Bits 3, 7 and 31:10 are RAZ/WI, so they are no data. Log 14. -/
structure Status where
  /-- Bit 0, read-only: a compute command is in flight. -/
  busy : Bool
  /-- Bit 1, W1C: a command ended. -/
  done : Bool
  /-- Bit 2, W1C: a command failed its checks. -/
  err : Bool
  /-- Bits 6:4, read-only: the error code of 60_exceptions.md R201. -/
  errCode : BitVec 3
  /-- Bit 8, W1C: a write to IN, QT or COEF was dropped. -/
  werr : Bool
  /-- Bit 9, W1C: a write to CMD was dropped. -/
  ovr : Bool
  deriving DecidableEq, Repr

/-- What the outside does to the engine in one step (20_memory.md R51, 70_reset_and_hazards.md R230, 30_encoding.md R89). -/
inductive HostEvent where
  /-- `MemRead(off, 4)`. -/
  | read (off : Offset)
  /-- `MemWrite(off, 4, w)`. -/
  | write (off : Offset) (w : Word)
  /-- The host's `wait`: read STATUS, again and again, until BUSY reads 0 (R89). -/
  | wait
  /-- The pin `rst_n` goes to this level. -/
  | rst (level : Bool)
  deriving DecidableEq, Repr

/-- The environment of the engine. Every field but `rstN` is the model's own (INVENTORY.md, State). -/
structure Env where
  /-- The level of `rst_n`. -/
  rstN : Bool
  /-- The accesses and pin changes still to arrive, oldest first. Log 1. -/
  host : List HostEvent
  /-- The words that `rdata` returned to the host's reads, newest first. Log 16. -/
  reads : List Word
  /-- Steps left before the completion of the command in flight. Log 2. -/
  remaining : Nat
  /-- Compute commands accepted so far: the argument of `Config.latency`. Log 2. -/
  accepted : Nat
  /-- Free draws made so far: the argument of `Config.busyRead`. Log 3. -/
  draws : Nat
  deriving DecidableEq, Repr

/-- The complete state (10_state.md R22). ID is hard-wired (`idWord`) and the interrupt line is a function (`irq`). -/
structure State where
  /-- IN: `IN[8*y + x]` (10_state.md R23). -/
  inBuf : Block Byte
  /-- QT: `QT[8*v + u]` (10_state.md R24). -/
  qt : Block Divisor
  /-- COEF: `COEF[8*v + u]` (10_state.md R25). -/
  coef : Block F64
  /-- OUT: `OUT[8*y + x]` (10_state.md R26). -/
  out : Block Byte
  /-- CTRL (10_state.md R28). -/
  ctrl : Ctrl
  /-- LASTCMD, read at CMD (10_state.md R29). -/
  lastCmd : Word
  /-- STATUS (10_state.md R30). -/
  status : Status
  /-- CUR_CMD, hidden (10_state.md R35). -/
  curCmd : Word
  /-- The environment. -/
  env : Env
  deriving DecidableEq, Repr

/-- Why the machine stops. -/
inductive Fault where
  /-- Raised by the completion step when BUSY = 1 and CUR_CMD is no compute command, a case 40_command_protocol.md R103
  does not have. No state that a run reaches raises it. Safe: the model stops where the spec gives no effect. Log 5. -/
  | noCommandInFlight
  deriving DecidableEq, Repr

/-- Why an instruction is refused. -/
inductive Refusal where
  /-- An instruction that has no meaning yet. No arm of `exec` uses it: every instruction has its meaning. Safe. -/
  | notModelled (mnemonic : String)
  deriving DecidableEq, Repr

/-- What a step amounts to, before `exec` is called. -/
inductive Action where
  /-- The step ends in this state and runs no command. -/
  | settle (s : State)
  /-- The step runs this command in this state. -/
  | run (i : Instr) (s : State)
  /-- The machine stops. -/
  | stop (r : Fault)
  deriving DecidableEq, Repr

/-- The pins the host drives in one cycle (20_memory.md R50). -/
structure BusPins where
  rstN : Bool
  sel : Bool
  wr : Bool
  addr : Offset
  wdata : Word
  deriving DecidableEq, Repr

/-- STATUS after reset: 0x00000000 (10_state.md R30). -/
def Status.reset : Status :=
  { busy := false, done := false, err := false, errCode := 0, werr := false, ovr := false }

/-- CTRL after reset: 0x00000000 (10_state.md R28). -/
def Ctrl.reset : Ctrl := { ieDone := false, ieErr := false }

/-- The environment right after reset: `rst_n` high, no access pending. DESIGN CHOICE: logs 1, 2, 3, 16. -/
def Env.reset : Env :=
  { rstN := true, host := [], reads := [], remaining := 0, accepted := 0, draws := 0 }

/-- The machine right after reset (70_reset_and_hazards.md R230). -/
def State.reset : State :=
  { inBuf := Vector.replicate 64 0
    qt := Config.defaultQt
    coef := Vector.replicate 64 0
    out := Vector.replicate 64 0
    ctrl := Ctrl.reset
    lastCmd := 0
    status := Status.reset
    curCmd := 0
    env := Env.reset }

/-- Replace IN. -/
def State.setIn (s : State) (v : Block Byte) : State := { s with inBuf := v }
/-- Replace QT. -/
def State.setQt (s : State) (v : Block Divisor) : State := { s with qt := v }
/-- Replace COEF. -/
def State.setCoef (s : State) (v : Block F64) : State := { s with coef := v }
/-- Replace OUT. -/
def State.setOut (s : State) (v : Block Byte) : State := { s with out := v }
/-- Replace CTRL. -/
def State.setCtrl (s : State) (v : Ctrl) : State := { s with ctrl := v }
/-- Replace LASTCMD. -/
def State.setLastCmd (s : State) (v : Word) : State := { s with lastCmd := v }
/-- Replace STATUS. -/
def State.setStatus (s : State) (v : Status) : State := { s with status := v }
/-- Replace CUR_CMD. -/
def State.setCurCmd (s : State) (v : Word) : State := { s with curCmd := v }
/-- Replace the environment. -/
def State.setEnv (s : State) (v : Env) : State := { s with env := v }

end Sys2Proof.Machine
end

