-- ==== Sys2Proof/Machine/Flags.lean ====
section
/-! DEFINITION. STATUS and CTRL: their words, their fields' rules, the checks that set ERRCODE, and the interrupt line
(10_state.md R28, R30, R38; 60_exceptions.md R201 to R212). -/

namespace Sys2Proof.Machine

/-! ### Register words -/

/-- ID: TAG 0x0DC7, BLOCK_N 0x08, REV 0x01 (10_state.md R27). -/
def idWord : Word := 0x0DC70801

/-- The word a read of STATUS returns (10_state.md R30). -/
def Status.word (t : Status) : Word :=
  (0#22 ++ (BitVec.ofBool t.ovr ++ BitVec.ofBool t.werr)) ++
    ((0#1 ++ t.errCode) ++ (0#1 ++ (BitVec.ofBool t.err ++ (BitVec.ofBool t.done ++ BitVec.ofBool t.busy))))

/-- The word a read of CTRL returns (10_state.md R28). -/
def Ctrl.word (c : Ctrl) : Word := 0#30 ++ (BitVec.ofBool c.ieErr ++ BitVec.ofBool c.ieDone)

/-- SRST, bit 31 of a word written to CTRL (10_state.md R28). -/
def softResetBit (w : Word) : Bool := w.getLsbD 31

/-- What a CTRL write without SRST stores (10_state.md R28). -/
def Ctrl.ofWord (w : Word) : Ctrl := { ieDone := w.getLsbD 0, ieErr := w.getLsbD 1 }

/-! ### STATUS updates -/

/-- A STATUS write: the W1C bits that are 1 in the word clear; ERRCODE goes with ERR (10_state.md R30). -/
def Status.w1c (t : Status) (w : Word) : Status :=
  { busy := t.busy
    done := t.done && !w.getLsbD 1
    err := t.err && !w.getLsbD 2
    errCode := if w.getLsbD 2 then 0 else t.errCode
    werr := t.werr && !w.getLsbD 8
    ovr := t.ovr && !w.getLsbD 9 }

/-- The issue step's `DONE <- 0; ERR <- 0; ERRCODE <- 0` (40_command_protocol.md R100). -/
def Status.clearOutcome (t : Status) : Status := { t with done := false, err := false, errCode := 0 }

/-- The end of NOP and QTDEF: `DONE <- 1` (40_command_protocol.md R100). -/
def Status.ended (t : Status) : Status := { t with done := true }

/-- The acceptance of a compute command: `BUSY <- 1` (40_command_protocol.md R100). -/
def Status.accepted (t : Status) : Status := { t with busy := true }

/-- The end of the ENGINE step: `BUSY <- 0; DONE <- 1` (40_command_protocol.md R103). -/
def Status.completed (t : Status) : Status := { t with busy := false, done := true }

/-- A dropped write to IN, QT or COEF (20_memory.md R67). -/
def Status.setWerr (t : Status) : Status := { t with werr := true }

/-- A dropped write to CMD (40_command_protocol.md R102). -/
def Status.setOvr (t : Status) : Status := { t with ovr := true }

/-! ### Errors -/

/-- The engine's errors (60_exceptions.md R201). -/
inductive EngineError where
  | illegalCmd
  | invalidDim
  | invalidQt
  /-- Kept so that the source's taxonomy maps one to one; never raised (60_exceptions.md R206). -/
  | blockSize
  deriving DecidableEq, Repr

/-- The ERRCODE of an error (60_exceptions.md R201). -/
def EngineError.code : EngineError → BitVec 3
  | .illegalCmd => 1
  | .invalidDim => 2
  | .invalidQt => 3
  | .blockSize => 4

/-- The STATUS writes of `raise EngineError(e)` (60_exceptions.md R210). -/
def Status.raised (t : Status) (e : EngineError) : Status :=
  { t with err := true, errCode := e.code, done := true }

/-- Some entry of QT is 0 (60_exceptions.md R205). -/
def qtHasZero (qt : Block Divisor) : Bool := qt.toList.any (fun q => q == 0)

/-- `CheckCommand(w)`: the checks in their fixed order (60_exceptions.md R202). -/
def checkCommand (w : Word) (qt : Block Divisor) : Option EngineError :=
  let op := (opField w).toNat
  let vw := (vwField w).toNat
  let vh := (vhField w).toNat
  if rsv1Field w ≠ 0 ∨ rsv0Field w ≠ 0 ∨ 0x6 ≤ op then some .illegalCmd
  else if (op = 0x1 ∨ op = 0x2 ∨ op = 0x3 ∨ op = 0x4) ∧ (vw < 1 ∨ 8 < vw ∨ vh < 1 ∨ 8 < vh) then some .invalidDim
  else if (op = 0x2 ∨ op = 0x3) ∧ qtHasZero qt then some .invalidQt
  else none

/-! ### The interrupt line -/

/-- `irq` (60_exceptions.md R212): a pure function of STATUS and CTRL. -/
def irq (s : State) : Bool := (s.status.done && s.ctrl.ieDone) || (s.status.err && s.ctrl.ieErr)

end Sys2Proof.Machine
end

