-- ==== Sys2Proof/Machine/Float.lean ====
section
/-! DEFINITION. IEEE 754 binary64 on bit patterns (00_scope.md R9, R11): a result is computed exactly as an integer
times a power of two and rounded once, to nearest with ties to even. -/

namespace Sys2Proof.Machine

/-- Bit 63 of a pattern (00_scope.md R9). -/
def signBit (x : F64) : Bool := x.getLsbD 63

/-- The biased exponent, bits 62:52 (00_scope.md R9). -/
def expField (x : F64) : Nat := (x.extractLsb' 52 11).toNat

/-- The fraction, bits 51:0 (00_scope.md R9). -/
def fracField (x : F64) : Nat := (x.extractLsb' 0 52).toNat

/-- Everything but the sign, bits 62:0. -/
def magField (x : F64) : Nat := (x.extractLsb' 0 63).toNat

/-- A NaN: exponent all ones, fraction not 0. -/
def isNaN (x : F64) : Bool := expField x == 2047 && fracField x != 0

/-- An infinity: exponent all ones, fraction 0. -/
def isInf (x : F64) : Bool := expField x == 2047 && fracField x == 0

/-- Neither a NaN nor an infinity. -/
def isFinite (x : F64) : Bool := expField x != 2047

/-- The magnitude of a finite pattern is `mant x * 2 ^ expo x`. -/
def mant (x : F64) : Nat := if expField x = 0 then fracField x else 2 ^ 52 + fracField x

/-- The exponent of the last place of a finite pattern. -/
def expo (x : F64) : Int := (max (expField x) 1 : Nat) - 1075

/-- The bits 62:0 of an infinity. -/
def infMag : Nat := 2047 * 2 ^ 52

/-- A pattern from its sign and its bits 62:0. -/
def packF64 (sign : Bool) (mag : Nat) : F64 := BitVec.ofBool sign ++ BitVec.ofNat 63 mag

/-- +0.0 -/
def posZero : F64 := 0x0000000000000000

/-- −0.0 -/
def negZero : F64 := 0x8000000000000000

/-- The NaN of an invalid operation. No command performs one. PRESUMED: log 8. -/
def defaultNaN : F64 := 0x7FF8000000000000

/-- A NaN operand made quiet: bit 51 set, its sign and payload kept (42_quantize_writeback.md R153). PRESUMED: log 7. -/
def quiet (x : F64) : F64 := x ||| 0x0008000000000000

/-- `n / 2^k` rounded to an integer, to nearest with ties to even. -/
def rneShift (n k : Nat) : Nat :=
  let d := n / 2 ^ k
  let r := n % 2 ^ k
  if 2 ^ k < 2 * r ∨ (2 * r = 2 ^ k ∧ d % 2 = 1) then d + 1 else d

/-- The binary64 value nearest to `±n * 2^q`, ties to even: the significand is cut at the last place `lsb`, and a
significand that rounds up to the next power of two carries into the exponent. An overflow gives an infinity. -/
def roundPack (sign : Bool) (n : Nat) (q : Int) : F64 :=
  if n = 0 then packF64 sign 0
  else
    let lsb : Int := max ((n.log2 : Int) + q - 52) (-1074)
    let m := rneShift (n * 2 ^ (q - lsb).toNat) (lsb - q).toNat
    let mag := (lsb + 1074).toNat * 2 ^ 52 + m
    packF64 sign (min mag infMag)

/-- `to_f64(n)` (00_scope.md R11). -/
def toF64 (n : Nat) : F64 := roundPack false n 0

/-- A finite operand as a signed integer at the last place `q`, for `q ≤ expo x`. -/
def scaledTo (q : Int) (x : F64) : Int :=
  let m : Int := mant x * 2 ^ (expo x - q).toNat
  if signBit x then -m else m

/-- `fadd(a, b)` (00_scope.md R11). An exact zero is +0.0 unless both operands are negative (41_transform.md R126). -/
def fadd (a b : F64) : F64 :=
  if isNaN a then quiet a
  else if isNaN b then quiet b
  else if isInf a then (if isInf b && (signBit a != signBit b) then defaultNaN else a)
  else if isInf b then b
  else
    let q := min (expo a) (expo b)
    let sum := scaledTo q a + scaledTo q b
    if sum = 0 then packF64 (signBit a && signBit b) 0
    else roundPack (decide (sum < 0)) sum.natAbs q

/-- `fmul(a, b)` (00_scope.md R11). -/
def fmul (a b : F64) : F64 :=
  let sign := signBit a != signBit b
  if isNaN a then quiet a
  else if isNaN b then quiet b
  else if isInf a || isInf b then
    (if magField a = 0 ∨ magField b = 0 then defaultNaN else packF64 sign infMag)
  else roundPack sign (mant a * mant b) (expo a + expo b)

/-- `fdiv(a, b)` (00_scope.md R11). The quotient of the significands is taken to 110 extra places; a last bit that
says whether the remainder is not 0 keeps the rounding exact. -/
def fdiv (a b : F64) : F64 :=
  let sign := signBit a != signBit b
  if isNaN a then quiet a
  else if isNaN b then quiet b
  else if isInf a then (if isInf b then defaultNaN else packF64 sign infMag)
  else if isInf b then packF64 sign 0
  else if magField b = 0 then (if magField a = 0 then defaultNaN else packF64 sign infMag)
  else
    let n := mant a * 2 ^ 110
    let sticky := if n % mant b = 0 then 0 else 1
    roundPack sign (2 * (n / mant b) + sticky) (expo a - expo b - 111)

/-- A sign-and-magnitude pattern as an integer that orders as the values do. -/
def orderKey (x : F64) : Int := if signBit x then -(magField x : Int) else magField x

/-- `a < b` on values; false if either is a NaN, and zeros of both signs are equal. -/
def flt (a b : F64) : Bool := !isNaN a && !isNaN b && decide (orderKey a < orderKey b)

/-- `RHA(z)`, round half away from zero (42_quantize_writeback.md R150). -/
def rha (z : F64) : F64 :=
  if isNaN z || isInf z then z
  else if 0 ≤ expo z then z
  else
    let k := (-expo z).toNat
    roundPack (signBit z) ((mant z + 2 ^ (k - 1)) / 2 ^ k) 0

/-- 255.0 -/
def f255 : F64 := 0x406FE00000000000

/-- `clamp(z, 0, 255)` for a `z` that is not a NaN (42_quantize_writeback.md R151). -/
def clamp255 (z : F64) : F64 :=
  if flt z posZero ∨ z = negZero then posZero
  else if flt f255 z then f255
  else z

/-- The integer a finite integral pattern of sign + stands for. -/
def toInteger (z : F64) : Nat := mant z * 2 ^ (expo z).toNat / 2 ^ (-expo z).toNat

/-- `WB8(z)` (42_quantize_writeback.md R152). -/
def wb8 (z : F64) : Byte :=
  if isNaN z then 0 else BitVec.ofNat 8 (toInteger (rha (clamp255 z)))

/-- `Quant1(c, q)` (42_quantize_writeback.md R153). -/
def quant1 (c : F64) (q : Divisor) : F64 := rha (fdiv c (toF64 q.toNat))

end Sys2Proof.Machine
end

