-- ==== Sys2Proof/Machine/Operands.lean ====
section
/-! DEFINITION. Where operands come from: the raster index (00_scope.md R10), the valid region and padding
(41_transform.md R123), the basis and the transform (41_transform.md R121 to R124), and the register map
(20_memory.md R60). -/

namespace Sys2Proof.Machine

/-! ### Raster index -/

/-- The raster index of column `x`, row `y`: `k = 8*y + x` (00_scope.md R10). -/
def raster (x y : Fin 8) : Fin 64 := ⟨8 * y.val + x.val, by omega⟩

/-- The column `x = k mod 8` (or the horizontal frequency `u`). -/
def colOf (k : Fin 64) : Fin 8 := ⟨k.val % 8, by omega⟩

/-- The row `y = k div 8` (or the vertical frequency `v`). -/
def rowOf (k : Fin 64) : Fin 8 := ⟨k.val / 8, by omega⟩

/-- The valid region as a predicate of the lane: `(k mod 8) < vw and (k div 8) < vh` (42_quantize_writeback.md R154). -/
def inRegion (vw vh : BitVec 4) (k : Fin 64) : Bool :=
  decide ((colOf k).val < vw.toNat) && decide ((rowOf k).val < vh.toNat)

/-! ### The transform -/

/-- `pad(IN, vw, vh)` (41_transform.md R123). -/
def pad (inBuf : Block Byte) (vw vh : BitVec 4) : Block F64 :=
  Vector.ofFn fun k => if inRegion vw vh k then toF64 inBuf[k].toNat else posZero

/-- The seven magnitudes `c_j` of 41_transform.md R121 (and `c_0 = c_4`). -/
def basisMag (j : Fin 8) : F64 :=
  #v[0x3FD6A09E667F3BCD#64, 0x3FDF6297CFF75CB0#64, 0x3FDD906BCF328D46#64, 0x3FDA9B66290EA1A3#64,
     0x3FD6A09E667F3BCD#64, 0x3FD1C73B39AE68C8#64, 0x3FC87DE2A6AEA963#64, 0x3FB8F8B83C69A60B#64][j]

/-- An entry `+c_j` of the matrix of 41_transform.md R121. -/
def plus (j : Fin 8) : F64 := basisMag j

/-- An entry `-c_j`: `c_j` with bit 63 set (41_transform.md R121). -/
def minus (j : Fin 8) : F64 := basisMag j ||| negZero

/-- The matrix of 41_transform.md R121, row `k` at entries `8k` to `8k+7`. -/
def basisTable : Block F64 :=
  #v[plus 0, plus 0, plus 0, plus 0, plus 0, plus 0, plus 0, plus 0,
     plus 1, plus 3, plus 5, plus 7, minus 7, minus 5, minus 3, minus 1,
     plus 2, plus 6, minus 6, minus 2, minus 2, minus 6, plus 6, plus 2,
     plus 3, minus 7, minus 1, minus 5, plus 5, plus 1, plus 7, minus 3,
     plus 4, minus 4, minus 4, plus 4, plus 4, minus 4, minus 4, plus 4,
     plus 5, minus 1, plus 7, plus 3, minus 3, minus 7, plus 1, minus 5,
     plus 6, minus 2, plus 2, minus 6, minus 6, plus 2, minus 2, plus 6,
     plus 7, minus 5, plus 3, minus 1, plus 1, minus 3, plus 5, minus 7]

/-- `A[k][n]` (41_transform.md R121): `k` the frequency, `n` the position. -/
def basis (k n : Fin 8) : F64 := basisTable[raster n k]

/-- One inner sum of 41_transform.md R122: `s <- +0.0; for n in 0..7: s <- fadd(s, fmul(A[k][n], x[n]))`. -/
def dct1 (x : Fin 8 → F64) (k : Fin 8) : F64 :=
  [0, 1, 2, 3, 4, 5, 6, 7].foldl (fun s n => fadd s (fmul (basis k n) (x n))) posZero

/-- Pass 1 of 41_transform.md R122: `T[u][y]`, held at `8*y + u`. -/
def dctRows (x : Block F64) : Block F64 :=
  Vector.ofFn fun k => dct1 (fun n => x[raster n (rowOf k)]) (colOf k)

/-- Pass 2 of 41_transform.md R122: `C[u][v]`, held at `8*v + u`. -/
def dctCols (t : Block F64) : Block F64 :=
  Vector.ofFn fun k => dct1 (fun n => t[raster (colOf k) n]) (rowOf k)

/-- `DCT2_REF64(X)` (41_transform.md R122). -/
def dctRef64 (x : Block F64) : Block F64 := dctCols (dctRows x)

/-- `DCT2(X)` under a choice of `NUMERICS` (41_transform.md R124). -/
def dctWith (n : Numerics) (x : Block F64) : Block F64 :=
  match n with
  | .ref64 => dctRef64 x
  | .tol => Config.dctTol x

/-- `DCT2(X)` of this hardware. -/
def dct2 (x : Block F64) : Block F64 := dctWith Config.numerics x

/-- Quantize all 64 lanes: `Quant1(COEF[k], QT[k])` (42_quantize_writeback.md R153, R154). -/
def quantize (coef : Block F64) (qt : Block Divisor) : Block F64 :=
  Vector.ofFn fun k => quant1 coef[k] qt[k]

/-- What WriteBack leaves in OUT: `WB8(COEF[k])` on the valid region, the old entry elsewhere
(42_quantize_writeback.md R152). -/
def writtenBack (coef : Block F64) (old : Block Byte) (vw vh : BitVec 4) : Block Byte :=
  Vector.ofFn fun k => if inRegion vw vh k then wb8 coef[k] else old[k]

/-! ### The register map -/

/-- What stands at an offset (20_memory.md R60). -/
inductive Region where
  | id
  | ctrl
  | cmd
  | status
  /-- IN word `i`: entries `4i` to `4i+3`. -/
  | inWord (i : Fin 16)
  /-- QT entry `k`. -/
  | qtWord (k : Fin 64)
  /-- Bits 31:0 of COEF entry `k`. -/
  | coefLow (k : Fin 64)
  /-- Bits 63:32 of COEF entry `k`. -/
  | coefHigh (k : Fin 64)
  /-- OUT word `i`: entries `4i` to `4i+3`. -/
  | outWord (i : Fin 16)
  | reserved
  deriving DecidableEq, Repr

/-- `off & 0xFFC`: the engine ignores `addr[1:0]` (20_memory.md R64). -/
def wordOffset (off : Offset) : Nat := (off &&& 0xFFC).toNat

/-- The register map of 20_memory.md R60 over the word-aligned offset. -/
def regionAt (a : Nat) : Region :=
  if a = 0x000 then .id
  else if a = 0x004 then .ctrl
  else if a = 0x008 then .cmd
  else if a = 0x00C then .status
  else if h : 0x100 ≤ a ∧ a ≤ 0x13F then .inWord ⟨(a - 0x100) / 4, by omega⟩
  else if h : 0x200 ≤ a ∧ a ≤ 0x2FF then .qtWord ⟨(a - 0x200) / 4, by omega⟩
  else if h : 0x400 ≤ a ∧ a ≤ 0x5FF then
    if a % 8 < 4 then .coefLow ⟨(a - 0x400) / 8, by omega⟩
    else .coefHigh ⟨(a - 0x400) / 8, by omega⟩
  else if h : 0x600 ≤ a ∧ a ≤ 0x63F then .outWord ⟨(a - 0x600) / 4, by omega⟩
  else .reserved

/-- What an access at `off` reaches. -/
def region (off : Offset) : Region := regionAt (wordOffset off)

/-- Entry `4i + j` of a byte buffer: byte `j` of its word `i` (20_memory.md R62). -/
def byteIndex (i : Fin 16) (j : Fin 4) : Fin 64 := ⟨4 * i.val + j.val, by omega⟩

/-- Word `i` of a byte buffer, lowest index in the least significant byte (20_memory.md R62). -/
def packBytes (b : Block Byte) (i : Fin 16) : Word :=
  (b[byteIndex i 3] ++ b[byteIndex i 2]) ++ (b[byteIndex i 1] ++ b[byteIndex i 0])

/-- Replace word `i` of a byte buffer (20_memory.md R62). -/
def unpackBytes (b : Block Byte) (i : Fin 16) (w : Word) : Block Byte :=
  (((b.set (byteIndex i 0) (w.extractLsb' 0 8)).set (byteIndex i 1) (w.extractLsb' 8 8)).set
    (byteIndex i 2) (w.extractLsb' 16 8)).set (byteIndex i 3) (w.extractLsb' 24 8)

end Sys2Proof.Machine
end

