-- ==== Sys2Proof/Machine/Ops.lean ====
section
/-! DEFINITION. The shared operations: reset, error entry, issue and completion of a command, reads and writes of the
register window, and what the next step is. -/

namespace Sys2Proof.Machine

/-! ### Reset, error entry and return -/

/-- The reset of 70_reset_and_hazards.md R230 and R231: every piece of the engine's state takes its reset value. The
environment is no state of the engine; its counters go on, so that no free value is drawn twice. Log 3. -/
def engineReset (s : State) : State := State.reset.setEnv s.env

/-- `raise EngineError(e)` (60_exceptions.md R210): the one error entry of the engine. Nothing is saved or vectored. -/
def raiseError (e : EngineError) (s : State) : State := s.setStatus (s.status.raised e)

/-- A host write of STATUS (10_state.md R30): with bit 2 set it is also the return from an error (60_exceptions.md R211). -/
def writeStatus (w : Word) (s : State) : State := s.setStatus (s.status.w1c w)

/-! ### Issue and completion -/

/-- The environment when a compute command is accepted: the draw of LATENCY (40_command_protocol.md R104). Log 2. -/
def Env.accept (e : Env) : Env :=
  { e with remaining := Config.latency e.accepted, accepted := e.accepted + 1 }

/-- Acceptance of a compute command: `CUR_CMD <- w; BUSY <- 1` (40_command_protocol.md R100). -/
def acceptCommand (w : Word) (s : State) : State :=
  ((s.setCurCmd w).setStatus s.status.accepted).setEnv s.env.accept

/-- The end of a command inside its issue step: `DONE <- 1` (40_command_protocol.md R100, R180, R181). -/
def endCommand (s : State) : State := s.setStatus s.status.ended

/-- The end of the ENGINE step: `BUSY <- 0; DONE <- 1` (40_command_protocol.md R103). -/
def completeCommand (s : State) : State := s.setStatus s.status.completed

/-- The issue step of 40_command_protocol.md R100 after its LASTCMD write: clear the outcome, check, then either the
error entry or what the command does once it is `accepted`. -/
def issue (i : Instr) (accepted : State → State) (s : State) : State :=
  let s1 := s.setStatus s.status.clearOutcome
  match checkCommand (encode i) s.qt with
  | some e => raiseError e s1
  | none => accepted s1

/-- The next step of a compute command: its issue step while BUSY = 0, its completion step (40_command_protocol.md
R103), with the body the command's rule gives, while BUSY = 1. Log 4. -/
def computeStep (i : Instr) (body : State → State) (s : State) : State :=
  if s.status.busy then completeCommand (body s) else issue i (acceptCommand (encode i)) s

/-- `WriteBack(vw, vh)` (42_quantize_writeback.md R152). -/
def writeBack (vw vh : BitVec 4) (s : State) : State := s.setOut (writtenBack s.coef s.out vw vh)

/-- Whether a command is one of the four that R103 completes. -/
def isCompute : Instr → Bool
  | .nop => false
  | .dct _ _ => true
  | .dctq _ _ => true
  | .quant _ _ => true
  | .pack _ _ => true
  | .qtdef => false

/-! ### The register window -/

/-- What a register or a buffer word holds (20_memory.md R60 to R66, 10_state.md R27 to R30). -/
def readRegion (r : Region) (s : State) : Word :=
  match r with
  | .id => idWord
  | .ctrl => s.ctrl.word
  | .cmd => s.lastCmd
  | .status => s.status.word
  | .inWord i => packBytes s.inBuf i
  | .qtWord k => s.qt[k].zeroExtend 32
  | .coefLow k => s.coef[k].extractLsb' 0 32
  | .coefHigh k => s.coef[k].extractLsb' 32 32
  | .outWord i => packBytes s.out i
  | .reserved => 0

/-- Whether a read there is a free draw while BUSY: COEF and OUT (20_memory.md R68). -/
def Region.drawnWhileBusy : Region → Bool
  | .coefLow _ => true
  | .coefHigh _ => true
  | .outWord _ => true
  | .id => false
  | .ctrl => false
  | .cmd => false
  | .status => false
  | .inWord _ => false
  | .qtWord _ => false
  | .reserved => false

/-- `MemRead(off, 4)` (20_memory.md R51, R68): the word returned. -/
def busRead (off : Offset) (s : State) : Word :=
  if s.status.busy && (region off).drawnWhileBusy then Config.busyRead s.env.draws
  else readRegion (region off) s

/-- The environment after a read returned `w`; `drawn` says whether the word was a free draw. -/
def Env.noteRead (e : Env) (w : Word) (drawn : Bool) : Env :=
  { e with reads := w :: e.reads, draws := if drawn then e.draws + 1 else e.draws }

/-- A read transaction: the engine's state is unchanged (20_memory.md R68, R69). -/
def readTransaction (off : Offset) (s : State) : State :=
  s.setEnv (s.env.noteRead (busRead off s) (s.status.busy && (region off).drawnWhileBusy))

/-- A write to IN, QT or COEF, dropped with WERR while BUSY (20_memory.md R67). -/
def guardedWrite (write : State → State) (s : State) : State :=
  if s.status.busy then s.setStatus s.status.setWerr else write s

/-- A write of CTRL (10_state.md R28): with bit 31 it is only the soft reset (70_reset_and_hazards.md R231). -/
def writeCtrl (w : Word) (s : State) : State :=
  if softResetBit w then engineReset s else s.setCtrl (Ctrl.ofWord w)

/-- A write to any place but CMD (20_memory.md R61 to R67, 10_state.md R27 to R30); at CMD it does nothing, since
`writeTransaction` serves CMD itself. -/
def writeRegion (r : Region) (w : Word) (s : State) : State :=
  match r with
  | .id => s
  | .ctrl => writeCtrl w s
  | .cmd => s
  | .status => writeStatus w s
  | .inWord i => guardedWrite (fun t => t.setIn (unpackBytes t.inBuf i w)) s
  | .qtWord k => guardedWrite (fun t => t.setQt (t.qt.set k (w.extractLsb' 0 16))) s
  | .coefLow k => guardedWrite (fun t => t.setCoef (t.coef.set k (t.coef[k].extractLsb' 32 32 ++ w))) s
  | .coefHigh k => guardedWrite (fun t => t.setCoef (t.coef.set k (w ++ t.coef[k].extractLsb' 0 32))) s
  | .outWord _ => s
  | .reserved => s

/-- A CMD write (40_command_protocol.md R100, R102): dropped with OVR while BUSY; else LASTCMD takes the word, and the
word's command runs its issue step, or ILLEGAL_CMD is raised for a word that spells no command. -/
def cmdWrite (w : Word) (s : State) : Action :=
  if s.status.busy then .settle (s.setStatus s.status.setOvr)
  else
    let s1 := s.setLastCmd w
    match decode w with
    | .ok i => .run i s1
    | .error _ => .settle (raiseError .illegalCmd (s1.setStatus s1.status.clearOutcome))

/-- `MemWrite(off, 4, w)` (20_memory.md R51). -/
def writeTransaction (off : Offset) (w : Word) (s : State) : Action :=
  match region off with
  | .cmd => cmdWrite w s
  | r => .settle (writeRegion r w s)

/-! ### The environment and the next step -/

/-- One step of waiting passes for the command in flight. Log 2. -/
def Env.tick (e : Env) : Env := { e with remaining := e.remaining - 1 }

/-- The accesses still to come, after one is served. -/
def Env.setHost (e : Env) (h : List HostEvent) : Env := { e with host := h }

/-- The level of the reset pin. -/
def Env.setRst (e : Env) (level : Bool) : Env := { e with rstN := level }

/-- The pin `rst_n` goes to a level: when it goes from 1 to 0, every piece of state is reset
(70_reset_and_hazards.md R230). Log 6. -/
def resetPin (level : Bool) (s : State) : State :=
  (if s.env.rstN && !level then engineReset s else s).setEnv (s.env.setRst level)

/-- An event while `rst_n` is 0: no transaction is served (70_reset_and_hazards.md R230). Log 6. -/
def heldInReset (e : HostEvent) (s : State) : State :=
  match e with
  | .rst level => resetPin level s
  | .read _ => s
  | .write _ _ => s
  | .wait => s

/-- The event `e` arrives at `s`, where `rest` is what follows it. A `wait` reads STATUS and stays until BUSY reads 0
(30_encoding.md R89). -/
def serve (e : HostEvent) (rest : List HostEvent) (s : State) : Action :=
  let s1 := s.setEnv (s.env.tick.setHost rest)
  match e with
  | .read off => .settle (readTransaction off s1)
  | .write off w => writeTransaction off w s1
  | .wait => .settle (if s.status.busy then s.setEnv s.env.tick else s1)
  | .rst level => .settle (resetPin level s1)

/-- The ENGINE step of 40_command_protocol.md R103: run the command in CUR_CMD. Log 5. -/
def engineStep (s : State) : Action :=
  match decode s.curCmd with
  | .ok i => if isCompute i then .run i s else .stop .noCommandInFlight
  | .error _ => .stop .noCommandInFlight

/-- What the next step is (00_scope.md R13): the ENGINE's when a command is in flight and its LATENCY has passed, else
the HOST's next access, else an idle cycle. Logs 1, 2, 6. -/
def nextAction (s : State) : Action :=
  if s.env.rstN then
    if s.status.busy && s.env.remaining == 0 then engineStep s
    else
      match s.env.host with
      | [] => .settle (s.setEnv s.env.tick)
      | e :: rest => serve e rest s
  else
    match s.env.host with
    | [] => .settle s
    | e :: rest => .settle (heldInReset e (s.setEnv (s.env.setHost rest)))

/-! ### Pins and addresses -/

/-- What the pins of a cycle bring to the engine (20_memory.md R50, R51): a change of `rst_n` from the `level` it had,
then an access when the engine is selected. Log 6. -/
def BusPins.events (level : Bool) (p : BusPins) : List HostEvent :=
  (if p.rstN == level then [] else [.rst p.rstN]) ++
    (if p.sel then [if p.wr then .write p.addr p.wdata else .read p.addr] else [])

/-- The system address of a window offset (20_memory.md R60). Log 17. -/
def windowAddress (off : Offset) : Nat := Config.engineBase + off.toNat

/-- The offset of a system address, `none` outside the window (20_memory.md R60). Log 17. -/
def windowOffset (addr : Nat) : Option Offset :=
  if Config.engineBase ≤ addr ∧ addr < Config.engineBase + 4096 then
    some (BitVec.ofNat 12 (addr - Config.engineBase))
  else none

end Sys2Proof.Machine
end

