-- ==== Sys2Proof/Machine/Control.lean ====
section
/-! DEFINITION. The control family: NOP and QTDEF (43_control.md). -/

namespace Sys2Proof.Machine

/-- `BodyNop()` (43_control.md R180): nothing. -/
def bodyNop (s : State) : State := s

/-- `BodyQtDef()` (43_control.md R181): `QT <- DEFAULT_QT`. -/
def bodyQtdef (s : State) : State := s.setQt Config.defaultQt

/-- NOP (43_control.md R180): it completes inside its issue step (40_command_protocol.md R100). -/
def execNop (s : State) : Host.Outcome State Fault Refusal :=
  .next (issue .nop (fun t => endCommand (bodyNop t)) s)

/-- QTDEF (43_control.md R181): it completes inside its issue step (40_command_protocol.md R100). -/
def execQtdef (s : State) : Host.Outcome State Fault Refusal :=
  .next (issue .qtdef (fun t => endCommand (bodyQtdef t)) s)

end Sys2Proof.Machine
end

