-- ==== Sys2Proof/Machine/Quantize.lean ====
section
/-! DEFINITION. The quantize and write-back family: QUANT and PACK (42_quantize_writeback.md). -/

namespace Sys2Proof.Machine

/-- `BodyQuant(vw, vh)` (42_quantize_writeback.md R160). -/
def bodyQuant (vw vh : BitVec 4) (s : State) : State :=
  writeBack vw vh (s.setCoef (quantize s.coef s.qt))

/-- `BodyPack(vw, vh)` (42_quantize_writeback.md R161). -/
def bodyPack (vw vh : BitVec 4) (s : State) : State := writeBack vw vh s

/-- QUANT (42_quantize_writeback.md R160). -/
def execQuant (vw vh : BitVec 4) (s : State) : Host.Outcome State Fault Refusal :=
  .next (computeStep (.quant vw vh) (bodyQuant vw vh) s)

/-- PACK (42_quantize_writeback.md R161). -/
def execPack (vw vh : BitVec 4) (s : State) : Host.Outcome State Fault Refusal :=
  .next (computeStep (.pack vw vh) (bodyPack vw vh) s)

end Sys2Proof.Machine
end

