-- ==== Sys2Proof/Machine/Transform.lean ====
section
/-! DEFINITION. The transform family: DCT and DCTQ (41_transform.md). -/

namespace Sys2Proof.Machine

/-- `BodyDct(vw, vh)` (41_transform.md R130). -/
def bodyDct (vw vh : BitVec 4) (s : State) : State :=
  writeBack vw vh (s.setCoef (dct2 (pad s.inBuf vw vh)))

/-- `BodyDctQ(vw, vh)` (41_transform.md R131). -/
def bodyDctq (vw vh : BitVec 4) (s : State) : State :=
  writeBack vw vh (s.setCoef (quantize (dct2 (pad s.inBuf vw vh)) s.qt))

/-- DCT (41_transform.md R130). -/
def execDct (vw vh : BitVec 4) (s : State) : Host.Outcome State Fault Refusal :=
  .next (computeStep (.dct vw vh) (bodyDct vw vh) s)

/-- DCTQ (41_transform.md R131). -/
def execDctq (vw vh : BitVec 4) (s : State) : Host.Outcome State Fault Refusal :=
  .next (computeStep (.dctq vw vh) (bodyDctq vw vh) s)

end Sys2Proof.Machine
end

