-- ==== Sys2Proof/Machine/Dispatch.lean ====
section
/-! DEFINITION. One arm per command. -/

namespace Sys2Proof.Machine

def exec (i : Instr) (s : State) : Host.Outcome State Fault Refusal :=
  match i with
  | .nop => Sys2Proof.Machine.execNop s
  | .dct vw vh => Sys2Proof.Machine.execDct vw vh s
  | .dctq vw vh => Sys2Proof.Machine.execDctq vw vh s
  | .quant vw vh => Sys2Proof.Machine.execQuant vw vh s
  | .pack vw vh => Sys2Proof.Machine.execPack vw vh s
  | .qtdef => Sys2Proof.Machine.execQtdef s

end Sys2Proof.Machine
end

