-- ==== Sys2Proof/Machine/Step.lean ====
section
/-! DEFINITION. One step of the machine (00_scope.md R13), and how a command word is placed before it. -/

namespace Sys2Proof.Machine

/-- What an action comes to: the command it names, if any, is run. -/
def runAction (a : Action) : Host.Outcome State Fault Refusal :=
  match a with
  | .settle t => .next t
  | .run i t => exec i t
  | .stop r => .fault r

/-- One step of the machine (00_scope.md R13). -/
def step (s : State) : Host.Outcome State Fault Refusal := runAction (nextAction s)

/-- The host's next access is the CMD write of the command whose bits are `w`. The engine takes a command only when it
is idle and out of reset (40_command_protocol.md R102, 70_reset_and_hazards.md R230), so BUSY is 0 and `rst_n` is 1. Log 20. -/
def State.withFetchWord (s : State) (nbits w : Nat) : State :=
  (s.setStatus { s.status with busy := false }).setEnv
    ((s.env.setRst true).setHost (.write 0x008 (tableWord nbits w) :: s.env.host))

end Sys2Proof.Machine
end

