-- ==== Sys2Proof/WellFormed.lean ====
section
/-! DEFINITION. Which commands the assembler encodes (30_encoding.md R82, R87): VW and VH in 1..8. A command outside
this range still decodes; issuing it is the error INVALID_DIM (60_exceptions.md R204). -/

namespace Sys2Proof

/-- A legal extent of the valid region: 1..8 (30_encoding.md R81). -/
def legalDim (d : BitVec 4) : Bool := decide (1 ≤ d.toNat) && decide (d.toNat ≤ 8)

/-- The operand check of 30_encoding.md R87, one arm per constructor. -/
def Instr.wellFormed : Instr → Bool
  | .nop => true
  | .dct vw vh => legalDim vw && legalDim vh
  | .dctq vw vh => legalDim vw && legalDim vh
  | .quant vw vh => legalDim vw && legalDim vh
  | .pack vw vh => legalDim vw && legalDim vh
  | .qtdef => true

end Sys2Proof
end

