-- ==== Sys2Proof/Machine/Assembler.lean ====
section
/-! DEFINITION. The assembler syntax and the host-program notation (30_encoding.md R87 to R89). The layout of a line
beyond what R87 says is a choice of the model: log 18. -/

namespace Sys2Proof.Machine

/-! ### Commands -/

/-- A line of 30_encoding.md R87 or R88. A compute line without operands is the pseudo form, `8, 8`. -/
inductive AsmLine where
  | nop
  | qtdef
  | dct (dims : Option (Nat × Nat))
  | dctq (dims : Option (Nat × Nat))
  | quant (dims : Option (Nat × Nat))
  | pack (dims : Option (Nat × Nat))
  /-- `.word imm32`. -/
  | word (imm : Nat)
  deriving DecidableEq, Repr

/-- The operands of a compute line as fields: `8, 8` where there are none (R88); 1..8 each, any other value refused (R87). -/
def asmDims (dims : Option (Nat × Nat)) : Option (BitVec 4 × BitVec 4) :=
  match dims with
  | none => some (8, 8)
  | some (vw, vh) =>
    if 1 ≤ vw ∧ vw ≤ 8 ∧ 1 ≤ vh ∧ vh ≤ 8 then some (BitVec.ofNat 4 vw, BitVec.ofNat 4 vh) else none

/-- The word of a line; `none` where the assembler refuses it (30_encoding.md R87, R88). -/
def assemble (l : AsmLine) : Option Word :=
  match l with
  | .nop => some (encode .nop)
  | .qtdef => some (encode .qtdef)
  | .dct dims => (asmDims dims).map fun d => encode (.dct d.1 d.2)
  | .dctq dims => (asmDims dims).map fun d => encode (.dctq d.1 d.2)
  | .quant dims => (asmDims dims).map fun d => encode (.quant d.1 d.2)
  | .pack dims => (asmDims dims).map fun d => encode (.pack d.1 d.2)
  | .word imm => if imm < 2 ^ 32 then some (BitVec.ofNat 32 imm) else none

/-! ### Text -/

/-- A piece of a line, put before the pieces that follow unless it is empty. -/
def pushToken (cur : List Char) (rest : List (List Char)) : List (List Char) :=
  if cur.isEmpty then rest else cur.reverse :: rest

/-- The pieces of a line: separated by blanks, a comma a piece of its own, letters in lower case (R87: case-insensitive).
`cur` is the piece being read, last character first. -/
def tokens (cur : List Char) : List Char → List (List Char)
  | [] => pushToken cur []
  | ch :: rest =>
    if ch = ' ' ∨ ch = '\t' then pushToken cur (tokens [] rest)
    else if ch = ',' then pushToken cur ([','] :: tokens [] rest)
    else tokens (ch.toLower :: cur) rest

/-- The value of a digit in a base up to 16, `none` if it is none. -/
def digitValue (base : Nat) (ch : Char) : Option Nat :=
  let n := ch.toNat
  let v := if 48 ≤ n ∧ n ≤ 57 then n - 48 else if 97 ≤ n ∧ n ≤ 102 then n - 87 else base
  if v < base then some v else none

/-- The number a list of digits stands for, most significant first, after `acc`. -/
def digitsValue (base : Nat) (acc : Nat) : List Char → Option Nat
  | [] => some acc
  | ch :: rest =>
    match digitValue base ch with
    | some v => digitsValue base (acc * base + v) rest
    | none => none

/-- A decimal integer (R87). -/
def decimal (t : List Char) : Option Nat := if t.isEmpty then none else digitsValue 10 0 t

/-- A decimal integer, or a hexadecimal one written `0x…` (00_scope.md R9). -/
def number (t : List Char) : Option Nat :=
  match t with
  | '0' :: 'x' :: ds => if ds.isEmpty then none else digitsValue 16 0 ds
  | ds => decimal ds

/-- The operands of a compute line: none (R88), or `vw, vh` separated by a comma (R87). -/
def operandTokens (ts : List (List Char)) : Option (Option (Nat × Nat)) :=
  match ts with
  | [] => some none
  | [a, [','], b] =>
    match decimal a, decimal b with
    | some vw, some vh => some (some (vw, vh))
    | _, _ => none
  | _ => none

/-- One line of text, mnemonic first (30_encoding.md R87). -/
def parseLine (text : List Char) : Option AsmLine :=
  match tokens [] text with
  | [] => none
  | m :: ts =>
    if m = ['n', 'o', 'p'] then (if ts.isEmpty then some .nop else none)
    else if m = ['q', 't', 'd', 'e', 'f'] then (if ts.isEmpty then some .qtdef else none)
    else if m = ['d', 'c', 't'] then (operandTokens ts).map .dct
    else if m = ['d', 'c', 't', 'q'] then (operandTokens ts).map .dctq
    else if m = ['q', 'u', 'a', 'n', 't'] then (operandTokens ts).map .quant
    else if m = ['p', 'a', 'c', 'k'] then (operandTokens ts).map .pack
    else if m = ['.', 'w', 'o', 'r', 'd'] then
      match ts with
      | [t] => (number t).map .word
      | _ => none
    else none

/-- The word of one line of text; `none` where the assembler refuses it. -/
def assembleText (text : List Char) : Option Word := (parseLine text).bind assemble

/-! ### Host programs -/

/-- A host statement (30_encoding.md R89). -/
inductive HostStmt where
  | sw (off : Offset) (imm : Word)
  | cmd (l : AsmLine)
  | lw (off : Offset)
  | expect (off : Offset) (imm : Word)
  | wait
  deriving DecidableEq, Repr

/-- The access a host statement makes (30_encoding.md R89); `none` where the assembler refuses its command. -/
def HostStmt.event (h : HostStmt) : Option HostEvent :=
  match h with
  | .sw off imm => some (.write off imm)
  | .cmd l => (assemble l).map fun w => .write 0x008 w
  | .lw off => some (.read off)
  | .expect off _ => some (.read off)
  | .wait => some .wait

/-- A host program as the accesses it makes (30_encoding.md R89). -/
def programEvents : List HostStmt → Option (List HostEvent)
  | [] => some []
  | h :: rest =>
    match h.event, programEvents rest with
    | some e, some es => some (e :: es)
    | _, _ => none

/-- Whether every `expect` of a program holds of the words its reads returned, oldest first (30_encoding.md R89). -/
def expectsHold : List HostStmt → List Word → Bool
  | [], _ => true
  | .lw _ :: rest, _ :: ws => expectsHold rest ws
  | .expect _ imm :: rest, w :: ws => w == imm && expectsHold rest ws
  | .lw _ :: _, [] => false
  | .expect _ _ :: _, [] => false
  | .sw _ _ :: rest, ws => expectsHold rest ws
  | .cmd _ :: rest, ws => expectsHold rest ws
  | .wait :: rest, ws => expectsHold rest ws

end Sys2Proof.Machine
end

