-- ==== Sys2Proof/Machine/Tiling.lean ====
section
/-! DEFINITION. The reference host procedure `Process` (44_host_tiling.md R190 to R195): a driver that works the engine
through its bus. It adds no state to the engine. Log 19. -/

namespace Sys2Proof.Machine

/-- An image (44_host_tiling.md R190): a flat array of samples, row-major and channel-interleaved. DESIGN CHOICE: R192 and
R193 give width, height and channel count no type; they are natural numbers here, so the only non-positive one is 0.
Log 23. -/
structure Image where
  width : Nat
  height : Nat
  channels : Nat
  samples : List Byte
  deriving DecidableEq, Repr

/-- Why `Process` returns no image (44_host_tiling.md R192, R193). -/
inductive ProcessError where
  | invalidDimensions
  | invalidQuantizationTable
  /-- STATUS.ERR was set; the code is STATUS.ERRCODE. -/
  | engine (code : BitVec 3)
  /-- The fuel of the driver ran out, or the machine stopped: no outcome of R192, an artefact of bounded runs. -/
  | noAnswer
  deriving DecidableEq, Repr

/-- The invariant of 44_host_tiling.md R190. -/
def Image.valid (img : Image) : Bool :=
  decide (1 ≤ img.width) && decide (1 ≤ img.height) && decide (1 ≤ img.channels) &&
    decide (img.samples.length = img.width * img.height * img.channels)

/-- The index of sample `(x, y, ch)` (44_host_tiling.md R190). -/
def sampleIndex (width channels x y ch : Nat) : Nat := (y * width + x) * channels + ch

/-- 0, 8, 16, … below `n` (44_host_tiling.md R191). -/
def originsBelow (n : Nat) : List Nat := (List.range ((n + 7) / 8)).map (8 * ·)

/-- The block origins `(bx, by)` in the order of 44_host_tiling.md R192: `by` outside, `bx` inside. -/
def blockOrigins (width height : Nat) : List (Nat × Nat) :=
  (originsBelow height).flatMap fun oy => (originsBelow width).map fun ox => (ox, oy)

/-- `min(8, extent − origin)` (44_host_tiling.md R191). -/
def validExtent (extent origin : Nat) : Nat := min 8 (extent - origin)

/-- The sample at position `k` of a block; 0 outside the valid region, where R192 allows any value. Log 19. -/
def blockSample (img : Image) (ox oy ch : Nat) (k : Fin 64) : Byte :=
  let x := k.val % 8
  let y := k.val / 8
  if x < validExtent img.width ox ∧ y < validExtent img.height oy then
    img.samples.getD (sampleIndex img.width img.channels (ox + x) (oy + y) ch) 0
  else 0

/-- The offset of word `i` of the window part that begins at `base`. -/
def wordAt (base i : Nat) : Offset := BitVec.ofNat 12 (base + 4 * i)

/-- The writes that load QT (44_host_tiling.md R192). -/
def loadTable (q : Block Nat) : List HostEvent :=
  (List.finRange 64).map fun k => .write (wordAt 0x200 k.val) (BitVec.ofNat 32 q[k])

/-- The writes that load IN with a block (44_host_tiling.md R192). -/
def loadBlock (img : Image) (ox oy ch : Nat) : List HostEvent :=
  let block : Block Byte := Vector.ofFn (blockSample img ox oy ch)
  (List.finRange 16).map fun i => .write (wordAt 0x100 i.val) (packBytes block i)

/-- The command for a block: DCTQ with a table, DCT without (44_host_tiling.md R192). -/
def blockCommand (img : Image) (quantized : Bool) (ox oy : Nat) : Instr :=
  let vw := BitVec.ofNat 4 (validExtent img.width ox)
  let vh := BitVec.ofNat 4 (validExtent img.height oy)
  if quantized then .dctq vw vh else .dct vw vh

/-- Nothing is left to do: no access pending, no command in flight. That a run of the driver ends only here is log 22. -/
def isQuiet (s : State) : Bool := s.env.host.isEmpty && !s.status.busy

/-- Step until the machine is quiet; `none` when the fuel runs out or the machine stops. -/
def runQuiet : Nat → State → Option State
  | 0, s => if isQuiet s then some s else none
  | n + 1, s =>
    if isQuiet s then some s
    else
      match step s with
      | .next t => runQuiet n t
      | .fault _ => none
      | .refused _ => none

/-- Give the host these accesses, and run until they are done and no command is in flight. DESIGN CHOICE: R192 names no wait
before its first IN write and does not say what `Process` does when it begins while BUSY is 1; here the first accesses come
at once, the writes that BUSY forbids are dropped, and after the last write of a table the host idles until BUSY is 0.
Log 22. -/
def perform (fuel : Nat) (es : List HostEvent) (s : State) : Except ProcessError State :=
  match runQuiet fuel (s.setEnv (s.env.setHost es)) with
  | some t => .ok t
  | none => .error .noAnswer

/-- The newest word that a read returned, 0 if none did. DESIGN CHOICE: where `Process` is run with `rst_n` at 0 its reads
are not answered (log 6), the spec does not say what it takes for STATUS or OUT, and the driver goes on with this word.
Log 21. -/
def lastRead (s : State) : Word := s.env.reads.headD 0

/-- `dst[...] <- OUT[8*y + x]`, read by `lw 0x600 + 4*(2y + x div 4)` (44_host_tiling.md R192). -/
def copySample (fuel : Nat) (img : Image) (ox oy ch x y : Nat) (a : List Byte × State) :
    Except ProcessError (List Byte × State) :=
  match perform fuel [.read (wordAt 0x600 (2 * y + x / 4))] a.2 with
  | .error e => .error e
  | .ok s =>
    .ok (a.1.set (sampleIndex img.width img.channels (ox + x) (oy + y) ch)
      ((lastRead s).extractLsb' (8 * (x % 4)) 8), s)

/-- The valid positions of a block in the order of 44_host_tiling.md R192: `y` outside, `x` inside. -/
def validPositions (vw vh : Nat) : List (Nat × Nat) :=
  (List.range vh).flatMap fun y => (List.range vw).map fun x => (x, y)

/-- One block and channel of 44_host_tiling.md R192: load IN, issue, wait, check STATUS.ERR, copy OUT. -/
def processBlock (fuel : Nat) (img : Image) (quantized : Bool) (ox oy ch : Nat) (a : List Byte × State) :
    Except ProcessError (List Byte × State) :=
  match perform fuel (loadBlock img ox oy ch ++
      [.write 0x008 (encode (blockCommand img quantized ox oy)), .wait, .read 0x00C]) a.2 with
  | .error e => .error e
  | .ok s =>
    if (lastRead s).getLsbD 2 then .error (.engine ((lastRead s).extractLsb' 4 3))
    else
      (validPositions (validExtent img.width ox) (validExtent img.height oy)).foldlM
        (fun b p => copySample fuel img ox oy ch p.1 p.2 b) (a.1, s)

/-- Every (block, channel) of an image in the order of 44_host_tiling.md R192: `by`, then `bx`, then `c`. -/
def blockTasks (img : Image) : List (Nat × Nat × Nat) :=
  (blockOrigins img.width img.height).flatMap fun o => (List.range img.channels).map fun ch => (o.1, o.2, ch)

/-- The blocks of `Process`, into an array of zeros (44_host_tiling.md R192). -/
def processBlocks (fuel : Nat) (img : Image) (quantized : Bool) (s : State) : Except ProcessError (List Byte × State) :=
  (blockTasks img).foldlM (fun b o => processBlock fuel img quantized o.1 o.2.1 o.2.2 b)
    (List.replicate (img.width * img.height * img.channels) 0, s)

/-- A table that `Process` accepts: every entry in 1..65535 (44_host_tiling.md R192). That an entry is a natural number, and
the only one below 1 is 0, is log 23. -/
def tableLegal (q : Block Nat) : Bool := q.toList.all fun d => decide (1 ≤ d) && decide (d ≤ 65535)

/-- `Process(src, q)` (44_host_tiling.md R192): the image, and the engine as it is left. `fuel` bounds each run
(log 19); a call while BUSY is 1 is log 22, the type of the arguments log 23. -/
def processImage (fuel : Nat) (img : Image) (q : Option (Block Nat)) (s : State) :
    Except ProcessError (Image × State) :=
  if !img.valid then .error .invalidDimensions
  else
    match q with
    | none =>
      match processBlocks fuel img false s with
      | .error e => .error e
      | .ok (dst, t) => .ok ({ img with samples := dst }, t)
    | some table =>
      if !tableLegal table then .error .invalidQuantizationTable
      else
        match perform fuel (loadTable table) s with
        | .error e => .error e
        | .ok s1 =>
          match processBlocks fuel img true s1 with
          | .error e => .error e
          | .ok (dst, t) => .ok ({ img with samples := dst }, t)

end Sys2Proof.Machine
end

