-- ==== Sys2Proof/Safety.lean ====
section
/-! DEFINITION. What claims are stated in: the value of a pattern and rounding as IEEE 754 says it, the exact transform
and the TOL law (41_transform.md R120, R124), the invariant of the machine, and what counts as a safe run. -/

namespace Sys2Proof

open Sys2Proof.Machine

/-! ### Values -/

/-- The value of a finite binary64 pattern (00_scope.md R9). -/
def f64Value (x : F64) : ℚ := (if signBit x then -1 else 1) * (mant x : ℚ) * (2 : ℚ) ^ expo x

/-- The least magnitude that rounds to an infinity: half a place above the largest finite value. -/
def overflowBound : ℚ := (2 : ℚ) ^ (1024 : ℤ) - (2 : ℚ) ^ (970 : ℤ)

/-- `r` is `x` rounded to nearest with ties to even, stated over all finite patterns and not by an algorithm
(00_scope.md R11). -/
def IsNearestEven (x : ℚ) (r : F64) : Prop :=
  isFinite r = true ∧
  (∀ y : F64, isFinite y = true → |x - f64Value r| ≤ |x - f64Value y|) ∧
  (∀ y : F64, isFinite y = true → |x - f64Value y| = |x - f64Value r| → f64Value y ≠ f64Value r →
    fracField r % 2 = 0)

/-- The result of an operation whose exact result is `x`: rounded, or the infinity of its sign on overflow. -/
def IsRounded (x : ℚ) (r : F64) : Prop :=
  (|x| < overflowBound → IsNearestEven x r) ∧
  (overflowBound ≤ x → r = packF64 false infMag) ∧
  (x ≤ -overflowBound → r = packF64 true infMag)

/-- `|z|` rounded to the nearest integer, halves up: the `n` of 42_quantize_writeback.md R150. -/
def nearestInt (a : ℚ) : Int := ⌊a + 1 / 2⌋

/-- `s(k)` of 41_transform.md R120. -/
noncomputable def dctScale (k : Fin 8) : ℝ := if k = 0 then 1 / Real.sqrt 2 else 1

/-- The exact `C(u, v)` of 41_transform.md R120. -/
noncomputable def exactDct (x : Fin 8 → Fin 8 → ℝ) (u v : Fin 8) : ℝ :=
  0.25 * dctScale u * dctScale v *
    ∑ i : Fin 8, ∑ j : Fin 8, x i j *
      Real.cos ((2 * (i.val : ℝ) + 1) * (u.val : ℝ) * Real.pi / 16) *
      Real.cos ((2 * (j.val : ℝ) + 1) * (v.val : ℝ) * Real.pi / 16)

/-- A block of samples as the binary64 values DCT2 is given (00_scope.md R12). -/
def sampleBlock (b : Block Byte) : Block F64 := b.map fun n => toF64 n.toNat

/-- The samples of a block as reals, `X(x, y)`. -/
def sampleReal (b : Block Byte) (x y : Fin 8) : ℝ := (b[raster x y].toNat : ℝ)

/-- Every coefficient that `f` gives is finite and within `eps` of the exact transform. -/
def WithinOfExact (f : Block F64 → Block F64) (eps : ℝ) : Prop :=
  ∀ (b : Block Byte) (u v : Fin 8),
    isFinite (f (sampleBlock b))[raster u v] = true ∧
    |((f64Value (f (sampleBlock b))[raster u v] : ℚ) : ℝ) - exactDct (sampleReal b) u v| ≤ eps

/-- The only law of `DCT2_TOL` (41_transform.md R124). -/
def TolLaw (f : Block F64 → Block F64) : Prop := WithinOfExact f (2 ^ (-32 : ℤ))

/-! ### The invariant -/

/-- Whether issuing a command checks QT (60_exceptions.md R202, R205). -/
def usesTable : Instr → Bool
  | .nop => false
  | .dct _ _ => false
  | .dctq _ _ => true
  | .quant _ _ => true
  | .pack _ _ => false
  | .qtdef => false

/-- The engine's registers and buffers hold their reset values; the environment is not looked at. -/
def engineIsReset (s : State) : Prop := s = engineReset s

/-- What holds in every state that a run from reset reaches. -/
structure Inv (s : State) : Prop where
  /-- ERRCODE is 0, 1, 2 or 3 (60_exceptions.md R206; 93_implementation_defined.md U7), and not 0 exactly when ERR is set
  (10_state.md R30). -/
  errCode : if s.status.err then s.status.errCode ∈ [(1 : BitVec 3), 2, 3] else s.status.errCode = 0
  /-- While BUSY no outcome is shown (40_command_protocol.md R100). -/
  busyClear : s.status.busy = true → s.status.done = false ∧ s.status.err = false
  /-- While BUSY, CUR_CMD is a compute command that passed its checks (40_command_protocol.md R100, R101). -/
  busyCommand : s.status.busy = true → ∃ i, decode s.curCmd = .ok i ∧ isCompute i = true ∧ i.wellFormed = true ∧
    (usesTable i = true → ∀ k : Fin 64, s.qt[k] ≠ 0)
  /-- While BUSY, LASTCMD equals CUR_CMD (10_state.md R35). -/
  busyLast : s.status.busy = true → s.lastCmd = s.curCmd
  /-- While `rst_n` is 0, every piece of state holds its reset value (70_reset_and_hazards.md R230). -/
  heldReset : s.env.rstN = false → engineIsReset s

/-! ### Steps -/

/-- The next step is the HOST's: out of reset, and no completion is due (00_scope.md R13). -/
def HostTurn (s : State) : Prop := s.env.rstN = true ∧ (s.status.busy = true → s.env.remaining ≠ 0)

/-- The state in which an access takes effect: the access is taken off the list and a step of waiting has passed. -/
def taken (rest : List HostEvent) (s : State) : State := s.setEnv (s.env.tick.setHost rest)

/-- The two states agree on every register and buffer of the engine (10_state.md R22). -/
def SameEngine (s t : State) : Prop := t.setEnv s.env = s

/-! ### Safe runs -/

/-- An event that resets the engine: the pin going to 0, or a CTRL write with bit 31 (70_reset_and_hazards.md R230,
R231). The pin going to 1 resets nothing. -/
def HostEventResets (e : HostEvent) : Prop :=
  match e with
  | .rst level => level = false
  | .write off w => region off = .ctrl ∧ softResetBit w = true
  | .read _ => False
  | .wait => False

/-- A run of `n` steps from `s` stops nowhere and ends in `t`. -/
def Runs (n : Nat) (s t : State) : Prop :=
  match n with
  | 0 => s = t
  | n + 1 => ∃ u, step s = .next u ∧ Runs n u t

/-- A state that some run from reset, with any accesses, reaches. -/
def Reachable (t : State) : Prop :=
  ∃ (n : Nat) (es : List HostEvent), Runs n (State.reset.setEnv (Env.reset.setHost es)) t

end Sys2Proof
end

