-- ==== Sys2Proof/Certificates/Slice0/Obligations.lean ====
section
/-! DEFINITION. The statements about the AEMS-DCT8 engine, from the numbered rules of spec/. -/

open Sys2Proof Sys2Proof.Machine

/-! ### Encoding -/

/-- Words written out from 30_encoding.md R81 (RSV1, VH, VW, RSV0, OP) decode to what they spell; a sanity statement. -/
def Obligations.DecodeReadsWrittenWords : Prop :=
  decode 0b0000000000000000_0000_0000_0000_0000 = .ok .nop ∧
  decode 0b0000000000000000_0010_1000_0000_0001 = .ok (.dct 8 2) ∧
  decode 0b0000000000000000_1000_0010_0000_0010 = .ok (.dctq 2 8) ∧
  decode 0b0000000000000000_0011_0101_0000_0011 = .ok (.quant 5 3) ∧
  decode 0b0000000000000000_0001_0010_0000_0100 = .ok (.pack 2 1) ∧
  decode 0b0000000000000000_1111_1111_0000_0101 = .ok .qtdef ∧
  decode 0b0000000000000000_1000_1000_0001_0001 = .error .reservedBits ∧
  decode 0b0000000000000001_0000_1000_0000_0001 = .error .reservedBits ∧
  decode 0b0000000000000000_1000_1000_0000_0110 = .error .reservedOpcode

/-- Decode and encode agree on every command, at every value of its operands. -/
def Obligations.DecodeOfEncode : Prop :=
  ∀ i : Instr, decode (encode i) = .ok i

/-- The other direction: a word that decodes is the word of its command; NOP and QTDEF ignore VW and VH (30_encoding.md
R83), so only their OP comes back. -/
def Obligations.EncodeOfDecode : Prop :=
  ∀ (w : Word) (i : Instr), decode w = .ok i → encode i = if isCompute i then w else w &&& 0x0000000F

/-- 30_encoding.md R84: every legal command has its reserved bits 0 and is selected by the pair (OP, 0xFFFF00FF), VW and
VH lie outside the mask, and the all-zero word, which is LASTCMD's reset value, spells NOP and nothing else. -/
def Obligations.CommandsMatchTheirMask : Prop :=
  (∀ (w : Word) (i : Instr), decode w = .ok i → w &&& 0xFFFF00F0 = 0) ∧
  (∀ (w : Word) (op : BitVec 4), op.toNat < 6 →
    ((∃ i : Instr, decode w = .ok i ∧ i.opcode = op) ↔ w &&& 0xFFFF00FF = op.zeroExtend 32)) ∧
  (∀ (vh vw : BitVec 4), commandWord vh vw 0 &&& 0xFFFF00FF = 0) ∧
  (∀ i : Instr, decode 0 = .ok i ↔ i = .nop) ∧
  decode State.reset.lastCmd = .ok .nop

/-! ### A step runs the decoded command -/

/-- A CMD write while idle runs the command its word decodes to, after LASTCMD has taken the word (40_command_protocol.md
R100); the access is taken off the host's list. A read of CMD returns LASTCMD in every state (10_state.md R29). -/
def Obligations.StepIssuesDecodedCommand : Prop :=
  (∀ (s : State) (off : Offset) (w : Word) (rest : List HostEvent) (i : Instr),
    s.env.rstN = true → s.status.busy = false → s.env.host = .write off w :: rest → wordOffset off = 0x008 →
    decode w = .ok i →
    step s = exec i ((taken rest s).setLastCmd w)) ∧
  (∀ (s : State) (off : Offset), wordOffset off = 0x008 →
    readRegion (region off) s = s.lastCmd ∧
    ∀ rest : List HostEvent, HostTurn s → s.env.host = .read off :: rest →
      ∃ t, step s = .next t ∧ t.env.reads = s.lastCmd :: s.env.reads)

/-- The ENGINE step runs the command in CUR_CMD (40_command_protocol.md R103) once its LATENCY has passed. That the step
comes when `remaining` is 0 is the model's form of LATENCY (log 2). -/
def Obligations.StepCompletesCommandInFlight : Prop :=
  ∀ (s : State) (i : Instr),
    s.env.rstN = true → s.status.busy = true → s.env.remaining = 0 → decode s.curCmd = .ok i → isCompute i = true →
    step s = exec i s

/-! ### Issue -/

/-- 40_command_protocol.md R102: a CMD write while BUSY is dropped and sets OVR; nothing else of the engine changes. -/
def Obligations.CmdWriteWhileBusyIsDropped : Prop :=
  ∀ (s : State) (off : Offset) (w : Word) (rest : List HostEvent),
    HostTurn s → s.status.busy = true → s.env.host = .write off w :: rest → wordOffset off = 0x008 →
    step s = .next ((taken rest s).setStatus { s.status with ovr := true })

/-- 60_exceptions.md R203: ILLEGAL_CMD. LASTCMD has the failing word, and only STATUS changes beside it. -/
def Obligations.IllegalWordRaisesIllegalCmd : Prop :=
  ∀ (s : State) (off : Offset) (w : Word) (rest : List HostEvent),
    s.env.rstN = true → s.status.busy = false → s.env.host = .write off w :: rest → wordOffset off = 0x008 →
    (w.extractLsb' 16 16 ≠ 0 ∨ w.extractLsb' 4 4 ≠ 0 ∨ 0x6 ≤ (w.extractLsb' 0 4).toNat) →
    step s = .next (((taken rest s).setLastCmd w).setStatus
      { s.status with done := true, err := true, errCode := 1 })

/-- 60_exceptions.md R204: INVALID_DIM, for each of the four compute commands, whatever QT holds. -/
def Obligations.BadDimensionsRaiseInvalidDim : Prop :=
  ∀ (s : State) (vw vh : BitVec 4), s.status.busy = false →
    (vw = 0 ∨ 9 ≤ vw.toNat ∨ vh = 0 ∨ 9 ≤ vh.toNat) →
    ∀ i ∈ [Instr.dct vw vh, .dctq vw vh, .quant vw vh, .pack vw vh],
      exec i s = .next (s.setStatus { s.status with done := true, err := true, errCode := 2 })

/-- 60_exceptions.md R205: INVALID_QT for DCTQ and QUANT exactly when an entry of QT is 0 at issue; the other commands
never check QT: their STATUS afterwards is the same for every table. -/
def Obligations.ZeroDivisorRaisesInvalidQt : Prop :=
  (∀ (s : State) (vw vh : BitVec 4), s.status.busy = false →
    1 ≤ vw.toNat → vw.toNat ≤ 8 → 1 ≤ vh.toNat → vh.toNat ≤ 8 →
    ∀ i ∈ [Instr.dctq vw vh, .quant vw vh],
      ((∃ k : Fin 64, s.qt[k] = 0) →
        exec i s = .next (s.setStatus { s.status with done := true, err := true, errCode := 3 })) ∧
      ((∀ k : Fin 64, s.qt[k] ≠ 0) → ∃ t, exec i s = .next t ∧ t.status.err = false)) ∧
  (∀ (s : State) (q : Block Divisor) (vw vh : BitVec 4) (t t' : State),
    ∀ i ∈ [Instr.dct vw vh, .pack vw vh, .nop, .qtdef],
      exec i s = .next t → exec i (s.setQt q) = .next t' → t.status = t'.status)

/-- 60_exceptions.md R200, R210: a step that newly raises an error is an accepted CMD write, the error is the one
CheckCommand finds (R202), and the step changes nothing but LASTCMD, ERR, ERRCODE and DONE: IN, QT, COEF, OUT, CTRL,
CUR_CMD, BUSY, WERR and OVR stay. No completion and no other access raises one. -/
def Obligations.ErrorsArePrecise : Prop :=
  ∀ s t : State, step s = .next t → s.status.err = false → t.status.err = true →
    s.status.busy = false ∧ ∃ off w rest e, s.env.host = .write off w :: rest ∧ wordOffset off = 0x008 ∧
      checkCommand w s.qt = some e ∧ e ≠ .blockSize ∧
      t = ((taken rest s).setLastCmd w).setStatus { s.status with err := true, errCode := e.code, done := true }

/-- 40_command_protocol.md R100: a compute command that passes its checks is accepted: CUR_CMD takes its word, BUSY is
set, the outcome is cleared, and no buffer changes. -/
def Obligations.LegalComputeCommandIsAccepted : Prop :=
  ∀ (s : State) (i : Instr), s.status.busy = false → isCompute i = true → i.wellFormed = true →
    (usesTable i = true → ∀ k : Fin 64, s.qt[k] ≠ 0) →
    exec i s = .next (((s.setCurCmd (encode i)).setStatus
      { s.status with busy := true, done := false, err := false, errCode := 0 }).setEnv s.env.accept)

/-! ### What each command does -/

/-- 43_control.md R180: NOP leaves DONE = 1, ERR = 0, ERRCODE = 0 and changes nothing else. -/
def Obligations.NopOnlyReportsDone : Prop :=
  ∀ s : State, exec .nop s = .next (s.setStatus { s.status with done := true, err := false, errCode := 0 })

/-- 43_control.md R181: QTDEF restores DEFAULT_QT, reports DONE and changes nothing else; after it DCTQ and QUANT do not
fail with INVALID_QT. -/
def Obligations.QtdefRestoresTable : Prop :=
  ∀ s : State, ∃ t, exec .qtdef s = .next t ∧
    t = (s.setQt Config.defaultQt).setStatus { s.status with done := true, err := false, errCode := 0 } ∧
    t.qt[0] = 16 ∧ t.qt[63] = 99 ∧
    (∀ (i : Instr) (u : State), t.status.busy = false → exec i t = .next u → u.status.errCode ≠ 3)

/-- 41_transform.md R130, completion: COEF is the two passes of R122 over the padded block, OUT its write-back on the
valid region; BUSY falls, DONE rises; nothing else changes. -/
def Obligations.DctTransformsBlock : Prop :=
  ∀ (s : State) (vw vh : BitVec 4), s.status.busy = true →
    ∃ t, exec (.dct vw vh) s = .next t ∧
      (∀ u v : Fin 8, t.coef[raster u v] =
        dct1 (fun y => dct1 (fun x =>
          if x.val < vw.toNat ∧ y.val < vh.toNat then toF64 s.inBuf[raster x y].toNat else posZero) u) v) ∧
      (∀ x y : Fin 8, t.out[raster x y] =
        if x.val < vw.toNat ∧ y.val < vh.toNat then wb8 t.coef[raster x y] else s.out[raster x y]) ∧
      t = ((s.setCoef t.coef).setOut t.out).setStatus { s.status with busy := false, done := true }

/-- 41_transform.md R131, completion: as DCT, each coefficient quantized by QT before it is stored and written back. -/
def Obligations.DctqTransformsAndQuantizes : Prop :=
  ∀ (s : State) (vw vh : BitVec 4), s.status.busy = true →
    ∃ t, exec (.dctq vw vh) s = .next t ∧
      (∀ u v : Fin 8, t.coef[raster u v] =
        quant1 (dct1 (fun y => dct1 (fun x =>
          if x.val < vw.toNat ∧ y.val < vh.toNat then toF64 s.inBuf[raster x y].toNat else posZero) u) v)
          s.qt[raster u v]) ∧
      (∀ x y : Fin 8, t.out[raster x y] =
        if x.val < vw.toNat ∧ y.val < vh.toNat then wb8 t.coef[raster x y] else s.out[raster x y]) ∧
      t = ((s.setCoef t.coef).setOut t.out).setStatus { s.status with busy := false, done := true }

/-- 42_quantize_writeback.md R160, completion: every coefficient is quantized, OUT is written back on the valid region. -/
def Obligations.QuantQuantizesCoefficients : Prop :=
  ∀ (s : State) (vw vh : BitVec 4), s.status.busy = true →
    ∃ t, exec (.quant vw vh) s = .next t ∧
      (∀ k : Fin 64, t.coef[k] = rha (fdiv s.coef[k] (toF64 s.qt[k].toNat))) ∧
      (∀ x y : Fin 8, t.out[raster x y] =
        if x.val < vw.toNat ∧ y.val < vh.toNat then wb8 t.coef[raster x y] else s.out[raster x y]) ∧
      t = ((s.setCoef t.coef).setOut t.out).setStatus { s.status with busy := false, done := true }

/-- 42_quantize_writeback.md R161, completion: OUT is written back on the valid region, COEF is unchanged. -/
def Obligations.PackWritesBack : Prop :=
  ∀ (s : State) (vw vh : BitVec 4), s.status.busy = true →
    ∃ t, exec (.pack vw vh) s = .next t ∧
      (∀ x y : Fin 8, t.out[raster x y] =
        if x.val < vw.toNat ∧ y.val < vh.toNat then wb8 s.coef[raster x y] else s.out[raster x y]) ∧
      t = (s.setOut t.out).setStatus { s.status with busy := false, done := true }

/-- The frame of every command, seen through the register window: a word outside COEF, OUT and STATUS (and, for QTDEF,
outside QT) reads as before, and COEF reads as before for the commands that do not write it. -/
def Obligations.CommandsLeaveOtherWordsAlone : Prop :=
  ∀ (s t : State) (i : Instr) (off : Offset), exec i s = .next t → wordOffset off ≠ 0x00C →
    (0x200 ≤ wordOffset off → wordOffset off ≤ 0x2FF → i ≠ .qtdef) →
    (0x400 ≤ wordOffset off → wordOffset off ≤ 0x5FF →
      s.status.busy = false ∨ i = .nop ∨ i = .qtdef ∨ ∃ vw vh, i = .pack vw vh) →
    (0x600 ≤ wordOffset off → wordOffset off ≤ 0x63F → s.status.busy = false ∨ i = .nop ∨ i = .qtdef) →
    readRegion (region off) t = readRegion (region off) s ∧
    t.ctrl = s.ctrl ∧ t.lastCmd = s.lastCmd ∧ (s.status.busy = true → t.curCmd = s.curCmd) ∧
    t.env.host = s.env.host ∧ t.env.reads = s.env.reads ∧ t.env.draws = s.env.draws ∧ t.env.rstN = s.env.rstN ∧
    t.status.werr = s.status.werr ∧ t.status.ovr = s.status.ovr

/-! ### Whole-machine rules -/

/-- OUT is written only by a completion step, or by a reset: the pin going to 0 or a CTRL write with bit 31
(10_state.md R26; 70_reset_and_hazards.md R230, R231). -/
def Obligations.OutChangesOnlyAtCompletionOrReset : Prop :=
  ∀ s t : State, step s = .next t → t.out ≠ s.out →
    (s.env.rstN = true ∧ s.status.busy = true ∧ s.env.remaining = 0) ∨
    (HostTurn s ∧ ∃ e rest, s.env.host = e :: rest ∧ HostEventResets e)

/-- IN is written only by the host, QT only by the host and by QTDEF, COEF only by the host and by a completion step, the
host's writes while BUSY = 0, or each of them by a reset (10_state.md R23, R24, R25). -/
def Obligations.OperandBuffersChangeOnlyWhileIdle : Prop :=
  ∀ s t : State, step s = .next t →
    (t.inBuf ≠ s.inBuf → HostTurn s ∧ ∃ e rest, s.env.host = e :: rest ∧ (HostEventResets e ∨
      (s.status.busy = false ∧ ∃ off w, e = .write off w ∧ 0x100 ≤ wordOffset off ∧ wordOffset off ≤ 0x13F))) ∧
    (t.qt ≠ s.qt → HostTurn s ∧ ∃ e rest, s.env.host = e :: rest ∧ (HostEventResets e ∨
      (s.status.busy = false ∧ ∃ off w, e = .write off w ∧
        ((0x200 ≤ wordOffset off ∧ wordOffset off ≤ 0x2FF) ∨
          (wordOffset off = 0x008 ∧ decode w = .ok .qtdef))))) ∧
    (t.coef ≠ s.coef →
      (s.env.rstN = true ∧ s.status.busy = true ∧ s.env.remaining = 0) ∨
      (HostTurn s ∧ ∃ e rest, s.env.host = e :: rest ∧ (HostEventResets e ∨
        (s.status.busy = false ∧ ∃ off w, e = .write off w ∧ 0x400 ≤ wordOffset off ∧ wordOffset off ≤ 0x5FF))))

/-- 40_command_protocol.md R101: while a command stays in flight, its operands, its word and the results of the command
before it do not change. -/
def Obligations.OperandsAreStableWhileBusy : Prop :=
  ∀ s t : State, step s = .next t → s.status.busy = true → t.status.busy = true →
    t.inBuf = s.inBuf ∧ t.qt = s.qt ∧ t.coef = s.coef ∧ t.out = s.out ∧ t.curCmd = s.curCmd ∧ t.lastCmd = s.lastCmd

/-- The state after reset meets the invariant, whatever accesses are to come. -/
def Obligations.ResetMeetsInvariant : Prop :=
  ∀ es : List HostEvent, Inv (State.reset.setEnv (Env.reset.setHost es))

/-- Every step keeps the invariant: ERRCODE is legal and 0 exactly when ERR is 0, a command in flight has passed its checks
and its word is LASTCMD, and while `rst_n` is 0 everything holds its reset value. -/
def Obligations.StepKeepsInvariant : Prop :=
  ∀ s t : State, Inv s → step s = .next t → Inv t

/-- Where the invariant holds, the machine does not stop: a completion cannot fail (40_command_protocol.md R103). -/
def Obligations.InvariantStatesDoNotStop : Prop :=
  ∀ s : State, Inv s → ∃ t, step s = .next t

/-- No run from reset, under any accesses and any LATENCY, stops, and ERRCODE never reads 4 to 7 in one
(60_exceptions.md R206; 93_implementation_defined.md U7). -/
def Obligations.ReachableStatesAreSafe : Prop :=
  ∀ t : State, Reachable t → (∃ u, step t = .next u) ∧ (t.status.word.extractLsb' 4 3).toNat ≤ 3

/-! ### Progress and results -/

/-- 40_command_protocol.md R104: a command in flight completes after finitely many steps unless a reset comes first, and
what it leaves is its completion step's effect on the state it was in flight in, whatever accesses arrive meanwhile. -/
def Obligations.CommandInFlightCompletes : Prop :=
  ∀ (s : State) (i : Instr), s.env.rstN = true → s.status.busy = true → decode s.curCmd = .ok i → isCompute i = true →
    (∀ e ∈ s.env.host, ¬ HostEventResets e) →
    ∃ t u, Runs (s.env.remaining + 1) s t ∧ exec i s = .next u ∧
      t.inBuf = u.inBuf ∧ t.qt = u.qt ∧ t.coef = u.coef ∧ t.out = u.out ∧ t.lastCmd = u.lastCmd ∧
      t.status.busy = false ∧ t.status.done = true

/-- From the CMD write to the result: a legal compute command issued to an idle engine completes, for whatever LATENCY
this acceptance draws, with the effect its rule gives on IN, QT and COEF as they were at issue (40_command_protocol.md
R100, R101, R103), whatever accesses that are no reset follow it. -/
def Obligations.IssuedCommandLeavesItsResult : Prop :=
  ∀ (s : State) (off : Offset) (w : Word) (rest : List HostEvent) (i : Instr),
    s.env.rstN = true → s.status.busy = false → s.env.host = .write off w :: rest → wordOffset off = 0x008 →
    decode w = .ok i → isCompute i = true → i.wellFormed = true →
    (usesTable i = true → ∀ k : Fin 64, s.qt[k] ≠ 0) →
    (∀ e ∈ rest, ¬ HostEventResets e) →
    ∃ t u, Runs (Config.latency s.env.accepted + 2) s t ∧
      exec i (s.setStatus { s.status with busy := true }) = .next u ∧
      t.inBuf = s.inBuf ∧ t.qt = s.qt ∧ t.coef = u.coef ∧ t.out = u.out ∧ t.lastCmd = w ∧
      t.status.busy = false ∧ t.status.done = true ∧ t.status.err = false

/-- A host that waits cannot see LATENCY: after `wait`, the whole state is the same for any two numbers of steps that the
command in flight may take (40_command_protocol.md R106 for a host that waits; log 15). -/
def Obligations.WaitingHostDoesNotSeeLatency : Prop :=
  ∀ (s : State) (i : Instr) (rest : List HostEvent) (n m : Nat),
    s.env.rstN = true → s.status.busy = true → decode s.curCmd = .ok i → isCompute i = true →
    s.env.host = .wait :: rest →
    ∃ t, Runs (n + 2) (s.setEnv { s.env with remaining := n }) t ∧
      Runs (m + 2) (s.setEnv { s.env with remaining := m }) t ∧
      t.env.host = rest ∧ t.status.busy = false ∧ t.status.done = true

/-- 41_transform.md R123: what IN holds outside the valid region has no influence. -/
def Obligations.PaddingIgnoresInput : Prop :=
  ∀ (s t : State) (vw vh : BitVec 4) (b : Block Byte), s.status.busy = true →
    (∀ x y : Fin 8, x.val < vw.toNat → y.val < vh.toNat → b[raster x y] = s.inBuf[raster x y]) →
    ∀ i ∈ [Instr.dct vw vh, .dctq vw vh],
      exec i s = .next t → exec i (s.setIn b) = .next (t.setIn b)

/-- 42_quantize_writeback.md R154: quantization and write-back are 64 independent lanes. -/
def Obligations.LanesAreIndependent : Prop :=
  ∀ (s s' t t' : State) (vw vh : BitVec 4) (k : Fin 64), s.status.busy = true → s'.status.busy = true →
    s.coef[k] = s'.coef[k] → s.out[k] = s'.out[k] →
    ((s.qt[k] = s'.qt[k] → exec (.quant vw vh) s = .next t → exec (.quant vw vh) s' = .next t' →
      t.coef[k] = t'.coef[k] ∧ t.out[k] = t'.out[k]) ∧
    (exec (.pack vw vh) s = .next t → exec (.pack vw vh) s' = .next t' →
      t.coef[k] = t'.coef[k] ∧ t.out[k] = t'.out[k]))

/-! ### The bus -/

/-- 20_memory.md R68 and R69: a read returns the current value, or a free draw at COEF and OUT while BUSY, and changes
nothing of the engine. -/
def Obligations.ReadsHaveNoSideEffect : Prop :=
  ∀ (s : State) (off : Offset) (rest : List HostEvent), HostTurn s → s.env.host = .read off :: rest →
    ∃ t v, step s = .next t ∧ SameEngine s t ∧ t.env.host = rest ∧ t.env.reads = v :: s.env.reads ∧
      (if s.status.busy = true ∧ 0x400 ≤ wordOffset off ∧ wordOffset off ≤ 0x63F then
        v = Config.busyRead s.env.draws ∧ t.env.draws = s.env.draws + 1
      else v = readRegion (region off) s ∧ t.env.draws = s.env.draws)

/-- 20_memory.md R61: a reserved offset reads 0; a write to it, to ID or to OUT changes nothing of the engine. -/
def Obligations.ReservedAndReadOnlyOffsets : Prop :=
  ∀ (s : State) (off : Offset) (rest : List HostEvent), HostTurn s →
    ((0x010 ≤ wordOffset off ∧ wordOffset off ≤ 0x0FC) ∨ (0x140 ≤ wordOffset off ∧ wordOffset off ≤ 0x1FC) ∨
      (0x300 ≤ wordOffset off ∧ wordOffset off ≤ 0x3FC) ∨ 0x640 ≤ wordOffset off →
      readRegion (region off) s = 0 ∧
      (∀ w, s.env.host = .write off w :: rest → step s = .next (taken rest s))) ∧
    (wordOffset off = 0x000 ∨ (0x600 ≤ wordOffset off ∧ wordOffset off ≤ 0x63C) →
      ∀ w, s.env.host = .write off w :: rest → step s = .next (taken rest s))

/-- 20_memory.md R64: an access at `off` is the access at `off & 0xFFC`. -/
def Obligations.LowAddressBitsAreIgnored : Prop :=
  ∀ (s : State) (off : Offset) (rest : List HostEvent) (w : Word), HostTurn s →
    step (s.setEnv (s.env.setHost (.read off :: rest))) =
      step (s.setEnv (s.env.setHost (.read (off &&& 0xFFC) :: rest))) ∧
    step (s.setEnv (s.env.setHost (.write off w :: rest))) =
      step (s.setEnv (s.env.setHost (.write (off &&& 0xFFC) w :: rest)))

/-- 20_memory.md R62: the bytes of IN and OUT words are little-endian. -/
def Obligations.ByteBuffersAreLittleEndian : Prop :=
  ∀ (s : State) (i : Fin 16) (off : Offset) (j : Fin 4),
    (wordOffset off = 0x100 + 4 * i.val →
      (readRegion (region off) s).extractLsb' (8 * j.val) 8 = s.inBuf[byteIndex i j] ∧
      ∀ (w : Word) (rest : List HostEvent), HostTurn s → s.status.busy = false → s.env.host = .write off w :: rest →
        ∃ t, step s = .next t ∧ t = (taken rest s).setIn t.inBuf ∧
          ∀ k : Fin 64, t.inBuf[k] =
            if k.val / 4 = i.val then w.extractLsb' (8 * (k.val % 4)) 8 else s.inBuf[k]) ∧
    (wordOffset off = 0x600 + 4 * i.val →
      (readRegion (region off) s).extractLsb' (8 * j.val) 8 = s.out[byteIndex i j])

/-- 20_memory.md R65: a COEF entry is two words, the low word first. -/
def Obligations.CoefficientsAreLowWordFirst : Prop :=
  ∀ (s : State) (k : Fin 64) (off : Offset) (rest : List HostEvent) (w : Word), HostTurn s → s.status.busy = false →
    (wordOffset off = 0x400 + 8 * k.val →
      readRegion (region off) s = s.coef[k].extractLsb' 0 32 ∧
      (s.env.host = .write off w :: rest →
        step s = .next ((taken rest s).setCoef (s.coef.set k (s.coef[k].extractLsb' 32 32 ++ w))))) ∧
    (wordOffset off = 0x404 + 8 * k.val →
      readRegion (region off) s = s.coef[k].extractLsb' 32 32 ∧
      (s.env.host = .write off w :: rest →
        step s = .next ((taken rest s).setCoef (s.coef.set k (w ++ s.coef[k].extractLsb' 0 32)))))

/-- 20_memory.md R66: a QT entry is one word; bits 31:16 are ignored on a write and 0 on a read; 0 is stored. -/
def Obligations.DivisorsAreOneAWord : Prop :=
  ∀ (s : State) (k : Fin 64) (off : Offset) (rest : List HostEvent) (w : Word),
    wordOffset off = 0x200 + 4 * k.val →
    readRegion (region off) s = s.qt[k].zeroExtend 32 ∧
    (HostTurn s → s.status.busy = false → s.env.host = .write off w :: rest →
      step s = .next ((taken rest s).setQt (s.qt.set k (w.extractLsb' 0 16))))

/-- A write to a buffer word while idle reads back (QT: its low half), and every other word of the window reads as
before (20_memory.md R60 to R66). -/
def Obligations.WritesReachOnlyTheirWord : Prop :=
  ∀ (s : State) (off off' : Offset) (rest : List HostEvent) (w : Word), HostTurn s → s.status.busy = false →
    s.env.host = .write off w :: rest →
    ((0x100 ≤ wordOffset off ∧ wordOffset off ≤ 0x13F) ∨ (0x200 ≤ wordOffset off ∧ wordOffset off ≤ 0x2FF) ∨
      (0x400 ≤ wordOffset off ∧ wordOffset off ≤ 0x5FF)) →
    ∃ t, step s = .next t ∧
      readRegion (region off) t =
        (if 0x200 ≤ wordOffset off ∧ wordOffset off ≤ 0x2FF then w &&& 0x0000FFFF else w) ∧
      (wordOffset off' ≠ wordOffset off → readRegion (region off') t = readRegion (region off') s)

/-- 20_memory.md R67: while BUSY, a write to IN, QT or COEF is dropped and sets WERR; writes to CTRL and STATUS take
effect as they do while idle. -/
def Obligations.BufferWritesWhileBusyAreDropped : Prop :=
  ∀ (s : State) (off : Offset) (rest : List HostEvent) (w : Word), HostTurn s → s.status.busy = true →
    s.env.host = .write off w :: rest →
    ((0x100 ≤ wordOffset off ∧ wordOffset off ≤ 0x13F) ∨ (0x200 ≤ wordOffset off ∧ wordOffset off ≤ 0x2FF) ∨
        (0x400 ≤ wordOffset off ∧ wordOffset off ≤ 0x5FF) →
      step s = .next ((taken rest s).setStatus { s.status with werr := true })) ∧
    (wordOffset off = 0x004 → w.getLsbD 31 = false →
      step s = .next ((taken rest s).setCtrl { ieDone := w.getLsbD 0, ieErr := w.getLsbD 1 })) ∧
    (wordOffset off = 0x004 → w.getLsbD 31 = true → step s = .next (State.reset.setEnv (taken rest s).env)) ∧
    (wordOffset off = 0x00C → step s = .next ((taken rest s).setStatus (s.status.w1c w)))

/-- 10_state.md R27: ID reads 0x0DC70801 in every state, and a write to it changes nothing. -/
def Obligations.IdReadsItsConstant : Prop :=
  ∀ (s : State) (off : Offset) (w : Word) (rest : List HostEvent), wordOffset off = 0x000 →
    readRegion (region off) s = 0x0DC70801 ∧
    (HostTurn s → s.env.host = .write off w :: rest → step s = .next (taken rest s))

/-- 10_state.md R30, bit by bit: the word at 0x00C has BUSY at bit 0, DONE at 1, ERR at 2, ERRCODE at 6:4, WERR at 8, OVR at
9 and 0 elsewhere; a write to it clears exactly the W1C bits (DONE, ERR, WERR, OVR) that are 1 in the data, and ERRCODE
with ERR; every other bit, and everything else, is unchanged. -/
def Obligations.StatusWriteClearsItsBits : Prop :=
  ∀ (s : State) (off : Offset), wordOffset off = 0x00C →
    (∀ b : Nat, b < 32 → (readRegion (region off) s).getLsbD b =
      if b = 0 then s.status.busy
      else if b = 1 then s.status.done
      else if b = 2 then s.status.err
      else if 4 ≤ b ∧ b ≤ 6 then s.status.errCode.getLsbD (b - 4)
      else if b = 8 then s.status.werr
      else if b = 9 then s.status.ovr
      else false) ∧
    ∀ (w : Word) (rest : List HostEvent), HostTurn s → s.env.host = .write off w :: rest →
      ∃ t, step s = .next t ∧ t = (taken rest s).setStatus t.status ∧
        ∀ b : Nat, b < 32 → (readRegion (region off) t).getLsbD b =
          if b = 1 ∨ b = 2 ∨ b = 8 ∨ b = 9 then (readRegion (region off) s).getLsbD b && !w.getLsbD b
          else if b = 4 ∨ b = 5 ∨ b = 6 then (readRegion (region off) s).getLsbD b && !w.getLsbD 2
          else (readRegion (region off) s).getLsbD b

/-- 10_state.md R28: a CTRL write without SRST stores bits 1:0 and reads back with every other bit 0; with SRST it reads
back 0. -/
def Obligations.CtrlStoresItsEnables : Prop :=
  ∀ (s : State) (off : Offset) (w : Word) (rest : List HostEvent), HostTurn s → wordOffset off = 0x004 →
    s.env.host = .write off w :: rest →
    ∃ t, step s = .next t ∧
      readRegion (region off) t = (if w.getLsbD 31 then 0 else w &&& 0x00000003) ∧
      (w.getLsbD 31 = false → t = (taken rest s).setCtrl t.ctrl)

/-! ### Reset and the interrupt -/

/-- 70_reset_and_hazards.md R231: a CTRL write with bit 31 is the reset of R230, whatever the engine is doing. -/
def Obligations.SoftResetIsReset : Prop :=
  ∀ (s : State) (off : Offset) (w : Word) (rest : List HostEvent), HostTurn s → wordOffset off = 0x004 →
    w.getLsbD 31 = true → s.env.host = .write off w :: rest →
    step s = .next (State.reset.setEnv (taken rest s).env) ∧
    readRegion .ctrl (State.reset.setEnv (taken rest s).env) = 0

/-- 70_reset_and_hazards.md R230: when `rst_n` goes to 0 every piece of state takes its reset value and `irq` is 0; while
it is 0 no access changes the engine or is answered, and no ENGINE step is taken, whether an access is to come or not;
when it returns to 1 accesses are served again. That an access presented meanwhile is taken off the list is log 6. -/
def Obligations.ResetPinResets : Prop :=
  (∀ (s : State) (rest : List HostEvent), HostTurn s → s.env.host = .rst false :: rest →
    ∃ t, step s = .next t ∧ SameEngine t State.reset ∧ t.env.rstN = false ∧ t.env.host = rest ∧ irq t = false) ∧
  (∀ (s : State) (e : HostEvent) (rest : List HostEvent), s.env.rstN = false → s.env.host = e :: rest →
    e ≠ .rst true → step s = .next (s.setEnv (s.env.setHost rest))) ∧
  (∀ s : State, s.env.rstN = false → s.env.host = [] → step s = .next s) ∧
  (∀ (s : State) (rest : List HostEvent), s.env.rstN = false → s.env.host = .rst true :: rest →
    step s = .next (s.setEnv { s.env with rstN := true, host := rest }))

/-- 70_reset_and_hazards.md R232 and 10_state.md R22: the reset values, none of which depends on the state before. -/
def Obligations.ResetValuesAreFixed : Prop :=
  (∀ s s' : State, s.env = s'.env → engineReset s = engineReset s') ∧
  (∀ (s : State) (k : Fin 64),
    (engineReset s).inBuf[k] = 0 ∧ (engineReset s).qt[k] = Config.defaultQt[k] ∧ (engineReset s).coef[k] = 0 ∧
    (engineReset s).out[k] = 0) ∧
  (∀ (s : State) (off : Offset), readRegion (region off) (engineReset s) =
    if wordOffset off = 0x000 then 0x0DC70801
    else if h : 0x200 ≤ wordOffset off ∧ wordOffset off ≤ 0x2FF then
      Config.defaultQt[(wordOffset off - 0x200) / 4].zeroExtend 32
    else 0) ∧
  (∀ s : State, (engineReset s).curCmd = 0 ∧ (engineReset s).status.busy = false ∧ irq (engineReset s) = false)

/-- 60_exceptions.md R212 over the register words: `irq` is DONE and IE_DONE, or ERR and IE_ERR; a command that fails
asserts it if either enable is 1. -/
def Obligations.InterruptLineIsItsFormula : Prop :=
  (∀ s : State, irq s = ((s.status.word.getLsbD 1 && s.ctrl.word.getLsbD 0) ||
    (s.status.word.getLsbD 2 && s.ctrl.word.getLsbD 1))) ∧
  (∀ s t : State, step s = .next t → s.status.err = false → t.status.err = true →
    irq t = (s.ctrl.ieDone || s.ctrl.ieErr))

/-! ### Arithmetic -/

/-- `fadd` rounds the exact sum of finite operands to nearest, ties to even (00_scope.md R11). -/
def Obligations.FaddRoundsTheSum : Prop :=
  ∀ a b : F64, isFinite a = true → isFinite b = true → IsRounded (f64Value a + f64Value b) (fadd a b)

/-- `fmul` rounds the exact product of finite operands to nearest, ties to even (00_scope.md R11). -/
def Obligations.FmulRoundsTheProduct : Prop :=
  ∀ a b : F64, isFinite a = true → isFinite b = true → IsRounded (f64Value a * f64Value b) (fmul a b)

/-- `fdiv` rounds the exact quotient of finite operands to nearest, ties to even (00_scope.md R11). -/
def Obligations.FdivRoundsTheQuotient : Prop :=
  ∀ a b : F64, isFinite a = true → isFinite b = true → f64Value b ≠ 0 →
    IsRounded (f64Value a / f64Value b) (fdiv a b)

/-- `to_f64(n)` is exact below 2^53 (00_scope.md R11). -/
def Obligations.ToF64IsExact : Prop :=
  ∀ n : Nat, n < 2 ^ 53 → isFinite (toF64 n) = true ∧ signBit (toF64 n) = false ∧ f64Value (toF64 n) = n

/-- 42_quantize_writeback.md R150: RHA keeps NaN and infinities, and rounds any other value to the nearest integer, halves
away from zero, keeping the sign and being exact. -/
def Obligations.RhaRoundsHalfAwayFromZero : Prop :=
  ∀ z : F64, (isNaN z = true ∨ isInf z = true → rha z = z) ∧
    (isFinite z = true → isFinite (rha z) = true ∧ signBit (rha z) = signBit z ∧
      f64Value (rha z) = (if signBit z then -1 else 1) * (nearestInt |f64Value z| : ℚ))

/-- 42_quantize_writeback.md R151, R152: WB8 saturates to 0..255 and rounds half away from zero; a NaN gives 0. -/
def Obligations.WriteBackSaturatesAndRounds : Prop :=
  ∀ z : F64, (isNaN z = true → wb8 z = 0) ∧
    (isInf z = true → (wb8 z).toNat = if signBit z then 0 else 255) ∧
    (isFinite z = true → ((wb8 z).toNat : ℤ) =
      if f64Value z < 0 then 0 else if 255 < f64Value z then 255 else nearestInt (f64Value z))

/-- The corner cases of 42_quantize_writeback.md R153. What a NaN gives is R153 with the quieting of log 7, which the model
presumes. -/
def Obligations.QuantizerCornerCases : Prop :=
  ∀ (z : F64) (q : Divisor), q ≠ 0 →
    ((magField z = 0 ∨ isInf z = true) → quant1 z q = z) ∧
    (isNaN z = true → quant1 z q = quiet z ∧ isNaN (quant1 z q) = true) ∧
    (isFinite z = true → |f64Value z| / q.toNat < 1 / 2 → quant1 z q = if signBit z then negZero else posZero) ∧
    (isFinite z = true → ∀ n : Nat, n < 2 ^ 51 → |f64Value z| / q.toNat = n + 1 / 2 →
      f64Value (quant1 z q) = (if signBit z then -1 else 1) * (n + 1))

/-- 41_transform.md R126: no coefficient is −0.0. R126 speaks of samples 0..255; that it also holds of a transform of any
other 64 patterns, NaNs and infinities among them, rests on what log 8 presumes of `fadd` and `fmul`, the model's choice. -/
def Obligations.NoCoefficientIsNegativeZero : Prop :=
  ∀ (x : Block F64) (k : Fin 64), (dctRef64 x)[k] ≠ negZero

/-- 41_transform.md R130: an all-zero valid region gives COEF all +0.0 and OUT all 0 on the valid region. -/
def Obligations.ZeroBlockTransformsToZero : Prop :=
  ∀ (s t : State) (vw vh : BitVec 4), s.status.busy = true →
    (∀ k : Fin 64, inRegion vw vh k = true → s.inBuf[k] = 0) → exec (.dct vw vh) s = .next t →
    ∀ k : Fin 64, t.coef[k] = posZero ∧ (inRegion vw vh k = true → t.out[k] = 0)

/-- 41_transform.md R125: every REF64 coefficient of samples 0..255 is finite and within 10^-11 of the exact transform of
R120, so REF64 meets the law of TOL (R124). -/
def Obligations.Ref64IsAccurate : Prop :=
  WithinOfExact dctRef64 (1 / 10 ^ 11) ∧ (1 / 10 ^ 11 : ℝ) < 2 ^ (-32 : ℤ)

/-! ### Assembler and tiling -/

/-- 30_encoding.md R87, R88: the words the assembler makes, the values it refuses, and the pseudo forms; letters of either
case spell the same line. -/
def Obligations.AssemblerEncodesLegalLines : Prop :=
  (∀ vw vh : Nat,
    if 1 ≤ vw ∧ vw ≤ 8 ∧ 1 ≤ vh ∧ vh ≤ 8 then
      assemble (.dct (some (vw, vh))) = some (BitVec.ofNat 32 (vh * 2 ^ 12 + vw * 2 ^ 8 + 1)) ∧
      assemble (.dctq (some (vw, vh))) = some (BitVec.ofNat 32 (vh * 2 ^ 12 + vw * 2 ^ 8 + 2)) ∧
      assemble (.quant (some (vw, vh))) = some (BitVec.ofNat 32 (vh * 2 ^ 12 + vw * 2 ^ 8 + 3)) ∧
      assemble (.pack (some (vw, vh))) = some (BitVec.ofNat 32 (vh * 2 ^ 12 + vw * 2 ^ 8 + 4))
    else
      assemble (.dct (some (vw, vh))) = none ∧ assemble (.dctq (some (vw, vh))) = none ∧
      assemble (.quant (some (vw, vh))) = none ∧ assemble (.pack (some (vw, vh))) = none) ∧
  assemble .nop = some 0x00000000 ∧ assemble .qtdef = some 0x00000005 ∧
  assemble (.dct none) = some 0x00008801 ∧ assemble (.dctq none) = some 0x00008802 ∧
  assemble (.quant none) = some 0x00008803 ∧ assemble (.pack none) = some 0x00008804 ∧
  (∀ w : Word, assemble (.word w.toNat) = some w) ∧
  (∀ text : List Char, assembleText (text.map Char.toLower) = assembleText text)

/-- 44_host_tiling.md R191: the block origins, their number, and the valid region of each. -/
def Obligations.BlockOriginsAndRegions : Prop :=
  ∀ width height : Nat,
    (∀ o : Nat × Nat, o ∈ blockOrigins width height ↔
      o.1 % 8 = 0 ∧ o.1 < width ∧ o.2 % 8 = 0 ∧ o.2 < height) ∧
    (blockOrigins width height).length = ((width + 7) / 8) * ((height + 7) / 8) ∧
    (∀ o ∈ blockOrigins width height,
      1 ≤ validExtent width o.1 ∧ validExtent width o.1 ≤ 8 ∧ 1 ≤ validExtent height o.2 ∧ validExtent height o.2 ≤ 8 ∧
      ∀ x y : Fin 8, (o.1 + x.val < width ∧ o.2 + y.val < height) ↔
        (x.val < validExtent width o.1 ∧ y.val < validExtent height o.2))

/-- 44_host_tiling.md R195, coverage: each pixel of an image lies in the valid region of exactly one block, and no block is
visited twice. -/
def Obligations.BlocksCoverEachPixelOnce : Prop :=
  ∀ width height : Nat, (blockOrigins width height).Nodup ∧
    ∀ x y : Nat, x < width → y < height →
      ∃! o : Nat × Nat, o ∈ blockOrigins width height ∧
        (∃ i : Nat, i < validExtent width o.1 ∧ o.1 + i = x) ∧ (∃ j : Nat, j < validExtent height o.2 ∧ o.2 + j = y)

/-- 44_host_tiling.md R193, R195: `Process` refuses an invalid image or table, and when it returns an image, the image has
the shape of its argument. That dimensions and table entries are natural numbers is log 23. -/
def Obligations.ProcessKeepsTheShape : Prop :=
  ∀ (fuel : Nat) (img : Image) (q : Option (Block Nat)) (s : State),
    (img.valid = false → processImage fuel img q s = .error .invalidDimensions) ∧
    (∀ table, img.valid = true → q = some table → (∃ k : Fin 64, table[k] < 1 ∨ 65535 < table[k]) →
      processImage fuel img q s = .error .invalidQuantizationTable) ∧
    (∀ (dst : Image) (t : State), processImage fuel img q s = .ok (dst, t) →
      dst.valid = true ∧ dst.width = img.width ∧ dst.height = img.height ∧ dst.channels = img.channels)
end

