-- ==== Sys2Proof/Laws/State.lean ====
section
/-! SUPPORT. One lemma per field and update of the state, so that no proof unfolds a record update. -/

namespace Sys2Proof.Machine

/-- Two states with equal fields are equal. -/
theorem State.eq_of_fields {s t : State} (h1 : s.inBuf = t.inBuf) (h2 : s.qt = t.qt) (h3 : s.coef = t.coef)
    (h4 : s.out = t.out) (h5 : s.ctrl = t.ctrl) (h6 : s.lastCmd = t.lastCmd) (h7 : s.status = t.status)
    (h8 : s.curCmd = t.curCmd) (h9 : s.env = t.env) : s = t := by
  cases s; cases t; simp_all

@[simp] theorem State.inBuf_setIn (s : State) (v : Block Byte) : (s.setIn v).inBuf = v := rfl
@[simp] theorem State.qt_setIn (s : State) (v : Block Byte) : (s.setIn v).qt = s.qt := rfl
@[simp] theorem State.coef_setIn (s : State) (v : Block Byte) : (s.setIn v).coef = s.coef := rfl
@[simp] theorem State.out_setIn (s : State) (v : Block Byte) : (s.setIn v).out = s.out := rfl
@[simp] theorem State.ctrl_setIn (s : State) (v : Block Byte) : (s.setIn v).ctrl = s.ctrl := rfl
@[simp] theorem State.lastCmd_setIn (s : State) (v : Block Byte) : (s.setIn v).lastCmd = s.lastCmd := rfl
@[simp] theorem State.status_setIn (s : State) (v : Block Byte) : (s.setIn v).status = s.status := rfl
@[simp] theorem State.curCmd_setIn (s : State) (v : Block Byte) : (s.setIn v).curCmd = s.curCmd := rfl
@[simp] theorem State.env_setIn (s : State) (v : Block Byte) : (s.setIn v).env = s.env := rfl
/-- Replacing a field by itself changes nothing. -/
@[simp] theorem State.setIn_self (s : State) : s.setIn s.inBuf = s := rfl
/-- A later replacement of the same field wins. -/
@[simp] theorem State.setIn_setIn (s : State) (v w : Block Byte) : (s.setIn v).setIn w = s.setIn w := rfl

@[simp] theorem State.inBuf_setQt (s : State) (v : Block Divisor) : (s.setQt v).inBuf = s.inBuf := rfl
@[simp] theorem State.qt_setQt (s : State) (v : Block Divisor) : (s.setQt v).qt = v := rfl
@[simp] theorem State.coef_setQt (s : State) (v : Block Divisor) : (s.setQt v).coef = s.coef := rfl
@[simp] theorem State.out_setQt (s : State) (v : Block Divisor) : (s.setQt v).out = s.out := rfl
@[simp] theorem State.ctrl_setQt (s : State) (v : Block Divisor) : (s.setQt v).ctrl = s.ctrl := rfl
@[simp] theorem State.lastCmd_setQt (s : State) (v : Block Divisor) : (s.setQt v).lastCmd = s.lastCmd := rfl
@[simp] theorem State.status_setQt (s : State) (v : Block Divisor) : (s.setQt v).status = s.status := rfl
@[simp] theorem State.curCmd_setQt (s : State) (v : Block Divisor) : (s.setQt v).curCmd = s.curCmd := rfl
@[simp] theorem State.env_setQt (s : State) (v : Block Divisor) : (s.setQt v).env = s.env := rfl
/-- Replacing a field by itself changes nothing. -/
@[simp] theorem State.setQt_self (s : State) : s.setQt s.qt = s := rfl
/-- A later replacement of the same field wins. -/
@[simp] theorem State.setQt_setQt (s : State) (v w : Block Divisor) : (s.setQt v).setQt w = s.setQt w := rfl

@[simp] theorem State.inBuf_setCoef (s : State) (v : Block F64) : (s.setCoef v).inBuf = s.inBuf := rfl
@[simp] theorem State.qt_setCoef (s : State) (v : Block F64) : (s.setCoef v).qt = s.qt := rfl
@[simp] theorem State.coef_setCoef (s : State) (v : Block F64) : (s.setCoef v).coef = v := rfl
@[simp] theorem State.out_setCoef (s : State) (v : Block F64) : (s.setCoef v).out = s.out := rfl
@[simp] theorem State.ctrl_setCoef (s : State) (v : Block F64) : (s.setCoef v).ctrl = s.ctrl := rfl
@[simp] theorem State.lastCmd_setCoef (s : State) (v : Block F64) : (s.setCoef v).lastCmd = s.lastCmd := rfl
@[simp] theorem State.status_setCoef (s : State) (v : Block F64) : (s.setCoef v).status = s.status := rfl
@[simp] theorem State.curCmd_setCoef (s : State) (v : Block F64) : (s.setCoef v).curCmd = s.curCmd := rfl
@[simp] theorem State.env_setCoef (s : State) (v : Block F64) : (s.setCoef v).env = s.env := rfl
/-- Replacing a field by itself changes nothing. -/
@[simp] theorem State.setCoef_self (s : State) : s.setCoef s.coef = s := rfl
/-- A later replacement of the same field wins. -/
@[simp] theorem State.setCoef_setCoef (s : State) (v w : Block F64) : (s.setCoef v).setCoef w = s.setCoef w := rfl

@[simp] theorem State.inBuf_setOut (s : State) (v : Block Byte) : (s.setOut v).inBuf = s.inBuf := rfl
@[simp] theorem State.qt_setOut (s : State) (v : Block Byte) : (s.setOut v).qt = s.qt := rfl
@[simp] theorem State.coef_setOut (s : State) (v : Block Byte) : (s.setOut v).coef = s.coef := rfl
@[simp] theorem State.out_setOut (s : State) (v : Block Byte) : (s.setOut v).out = v := rfl
@[simp] theorem State.ctrl_setOut (s : State) (v : Block Byte) : (s.setOut v).ctrl = s.ctrl := rfl
@[simp] theorem State.lastCmd_setOut (s : State) (v : Block Byte) : (s.setOut v).lastCmd = s.lastCmd := rfl
@[simp] theorem State.status_setOut (s : State) (v : Block Byte) : (s.setOut v).status = s.status := rfl
@[simp] theorem State.curCmd_setOut (s : State) (v : Block Byte) : (s.setOut v).curCmd = s.curCmd := rfl
@[simp] theorem State.env_setOut (s : State) (v : Block Byte) : (s.setOut v).env = s.env := rfl
/-- Replacing a field by itself changes nothing. -/
@[simp] theorem State.setOut_self (s : State) : s.setOut s.out = s := rfl
/-- A later replacement of the same field wins. -/
@[simp] theorem State.setOut_setOut (s : State) (v w : Block Byte) : (s.setOut v).setOut w = s.setOut w := rfl

@[simp] theorem State.inBuf_setCtrl (s : State) (v : Ctrl) : (s.setCtrl v).inBuf = s.inBuf := rfl
@[simp] theorem State.qt_setCtrl (s : State) (v : Ctrl) : (s.setCtrl v).qt = s.qt := rfl
@[simp] theorem State.coef_setCtrl (s : State) (v : Ctrl) : (s.setCtrl v).coef = s.coef := rfl
@[simp] theorem State.out_setCtrl (s : State) (v : Ctrl) : (s.setCtrl v).out = s.out := rfl
@[simp] theorem State.ctrl_setCtrl (s : State) (v : Ctrl) : (s.setCtrl v).ctrl = v := rfl
@[simp] theorem State.lastCmd_setCtrl (s : State) (v : Ctrl) : (s.setCtrl v).lastCmd = s.lastCmd := rfl
@[simp] theorem State.status_setCtrl (s : State) (v : Ctrl) : (s.setCtrl v).status = s.status := rfl
@[simp] theorem State.curCmd_setCtrl (s : State) (v : Ctrl) : (s.setCtrl v).curCmd = s.curCmd := rfl
@[simp] theorem State.env_setCtrl (s : State) (v : Ctrl) : (s.setCtrl v).env = s.env := rfl
/-- Replacing a field by itself changes nothing. -/
@[simp] theorem State.setCtrl_self (s : State) : s.setCtrl s.ctrl = s := rfl
/-- A later replacement of the same field wins. -/
@[simp] theorem State.setCtrl_setCtrl (s : State) (v w : Ctrl) : (s.setCtrl v).setCtrl w = s.setCtrl w := rfl

@[simp] theorem State.inBuf_setLastCmd (s : State) (v : Word) : (s.setLastCmd v).inBuf = s.inBuf := rfl
@[simp] theorem State.qt_setLastCmd (s : State) (v : Word) : (s.setLastCmd v).qt = s.qt := rfl
@[simp] theorem State.coef_setLastCmd (s : State) (v : Word) : (s.setLastCmd v).coef = s.coef := rfl
@[simp] theorem State.out_setLastCmd (s : State) (v : Word) : (s.setLastCmd v).out = s.out := rfl
@[simp] theorem State.ctrl_setLastCmd (s : State) (v : Word) : (s.setLastCmd v).ctrl = s.ctrl := rfl
@[simp] theorem State.lastCmd_setLastCmd (s : State) (v : Word) : (s.setLastCmd v).lastCmd = v := rfl
@[simp] theorem State.status_setLastCmd (s : State) (v : Word) : (s.setLastCmd v).status = s.status := rfl
@[simp] theorem State.curCmd_setLastCmd (s : State) (v : Word) : (s.setLastCmd v).curCmd = s.curCmd := rfl
@[simp] theorem State.env_setLastCmd (s : State) (v : Word) : (s.setLastCmd v).env = s.env := rfl
/-- Replacing a field by itself changes nothing. -/
@[simp] theorem State.setLastCmd_self (s : State) : s.setLastCmd s.lastCmd = s := rfl
/-- A later replacement of the same field wins. -/
@[simp] theorem State.setLastCmd_setLastCmd (s : State) (v w : Word) : (s.setLastCmd v).setLastCmd w = s.setLastCmd w := rfl

@[simp] theorem State.inBuf_setStatus (s : State) (v : Status) : (s.setStatus v).inBuf = s.inBuf := rfl
@[simp] theorem State.qt_setStatus (s : State) (v : Status) : (s.setStatus v).qt = s.qt := rfl
@[simp] theorem State.coef_setStatus (s : State) (v : Status) : (s.setStatus v).coef = s.coef := rfl
@[simp] theorem State.out_setStatus (s : State) (v : Status) : (s.setStatus v).out = s.out := rfl
@[simp] theorem State.ctrl_setStatus (s : State) (v : Status) : (s.setStatus v).ctrl = s.ctrl := rfl
@[simp] theorem State.lastCmd_setStatus (s : State) (v : Status) : (s.setStatus v).lastCmd = s.lastCmd := rfl
@[simp] theorem State.status_setStatus (s : State) (v : Status) : (s.setStatus v).status = v := rfl
@[simp] theorem State.curCmd_setStatus (s : State) (v : Status) : (s.setStatus v).curCmd = s.curCmd := rfl
@[simp] theorem State.env_setStatus (s : State) (v : Status) : (s.setStatus v).env = s.env := rfl
/-- Replacing a field by itself changes nothing. -/
@[simp] theorem State.setStatus_self (s : State) : s.setStatus s.status = s := rfl
/-- A later replacement of the same field wins. -/
@[simp] theorem State.setStatus_setStatus (s : State) (v w : Status) : (s.setStatus v).setStatus w = s.setStatus w := rfl

@[simp] theorem State.inBuf_setCurCmd (s : State) (v : Word) : (s.setCurCmd v).inBuf = s.inBuf := rfl
@[simp] theorem State.qt_setCurCmd (s : State) (v : Word) : (s.setCurCmd v).qt = s.qt := rfl
@[simp] theorem State.coef_setCurCmd (s : State) (v : Word) : (s.setCurCmd v).coef = s.coef := rfl
@[simp] theorem State.out_setCurCmd (s : State) (v : Word) : (s.setCurCmd v).out = s.out := rfl
@[simp] theorem State.ctrl_setCurCmd (s : State) (v : Word) : (s.setCurCmd v).ctrl = s.ctrl := rfl
@[simp] theorem State.lastCmd_setCurCmd (s : State) (v : Word) : (s.setCurCmd v).lastCmd = s.lastCmd := rfl
@[simp] theorem State.status_setCurCmd (s : State) (v : Word) : (s.setCurCmd v).status = s.status := rfl
@[simp] theorem State.curCmd_setCurCmd (s : State) (v : Word) : (s.setCurCmd v).curCmd = v := rfl
@[simp] theorem State.env_setCurCmd (s : State) (v : Word) : (s.setCurCmd v).env = s.env := rfl
/-- Replacing a field by itself changes nothing. -/
@[simp] theorem State.setCurCmd_self (s : State) : s.setCurCmd s.curCmd = s := rfl
/-- A later replacement of the same field wins. -/
@[simp] theorem State.setCurCmd_setCurCmd (s : State) (v w : Word) : (s.setCurCmd v).setCurCmd w = s.setCurCmd w := rfl

@[simp] theorem State.inBuf_setEnv (s : State) (v : Env) : (s.setEnv v).inBuf = s.inBuf := rfl
@[simp] theorem State.qt_setEnv (s : State) (v : Env) : (s.setEnv v).qt = s.qt := rfl
@[simp] theorem State.coef_setEnv (s : State) (v : Env) : (s.setEnv v).coef = s.coef := rfl
@[simp] theorem State.out_setEnv (s : State) (v : Env) : (s.setEnv v).out = s.out := rfl
@[simp] theorem State.ctrl_setEnv (s : State) (v : Env) : (s.setEnv v).ctrl = s.ctrl := rfl
@[simp] theorem State.lastCmd_setEnv (s : State) (v : Env) : (s.setEnv v).lastCmd = s.lastCmd := rfl
@[simp] theorem State.status_setEnv (s : State) (v : Env) : (s.setEnv v).status = s.status := rfl
@[simp] theorem State.curCmd_setEnv (s : State) (v : Env) : (s.setEnv v).curCmd = s.curCmd := rfl
@[simp] theorem State.env_setEnv (s : State) (v : Env) : (s.setEnv v).env = v := rfl
/-- Replacing a field by itself changes nothing. -/
@[simp] theorem State.setEnv_self (s : State) : s.setEnv s.env = s := rfl
/-- A later replacement of the same field wins. -/
@[simp] theorem State.setEnv_setEnv (s : State) (v w : Env) : (s.setEnv v).setEnv w = s.setEnv w := rfl

/-! ### The environment -/

@[simp] theorem Env.rstN_tick (e : Env) : (e.tick).rstN = e.rstN := rfl
@[simp] theorem Env.host_tick (e : Env) : (e.tick).host = e.host := rfl
@[simp] theorem Env.reads_tick (e : Env) : (e.tick).reads = e.reads := rfl
@[simp] theorem Env.remaining_tick (e : Env) : (e.tick).remaining = e.remaining - 1 := rfl
@[simp] theorem Env.accepted_tick (e : Env) : (e.tick).accepted = e.accepted := rfl
@[simp] theorem Env.draws_tick (e : Env) : (e.tick).draws = e.draws := rfl

@[simp] theorem Env.rstN_setHost (e : Env) (h : List HostEvent) : (e.setHost h).rstN = e.rstN := rfl
@[simp] theorem Env.host_setHost (e : Env) (h : List HostEvent) : (e.setHost h).host = h := rfl
@[simp] theorem Env.reads_setHost (e : Env) (h : List HostEvent) : (e.setHost h).reads = e.reads := rfl
@[simp] theorem Env.remaining_setHost (e : Env) (h : List HostEvent) : (e.setHost h).remaining = e.remaining := rfl
@[simp] theorem Env.accepted_setHost (e : Env) (h : List HostEvent) : (e.setHost h).accepted = e.accepted := rfl
@[simp] theorem Env.draws_setHost (e : Env) (h : List HostEvent) : (e.setHost h).draws = e.draws := rfl

@[simp] theorem Env.rstN_setRst (e : Env) (b : Bool) : (e.setRst b).rstN = b := rfl
@[simp] theorem Env.host_setRst (e : Env) (b : Bool) : (e.setRst b).host = e.host := rfl
@[simp] theorem Env.reads_setRst (e : Env) (b : Bool) : (e.setRst b).reads = e.reads := rfl
@[simp] theorem Env.remaining_setRst (e : Env) (b : Bool) : (e.setRst b).remaining = e.remaining := rfl
@[simp] theorem Env.accepted_setRst (e : Env) (b : Bool) : (e.setRst b).accepted = e.accepted := rfl
@[simp] theorem Env.draws_setRst (e : Env) (b : Bool) : (e.setRst b).draws = e.draws := rfl

@[simp] theorem Env.rstN_accept (e : Env) : (e.accept).rstN = e.rstN := rfl
@[simp] theorem Env.host_accept (e : Env) : (e.accept).host = e.host := rfl
@[simp] theorem Env.reads_accept (e : Env) : (e.accept).reads = e.reads := rfl
@[simp] theorem Env.remaining_accept (e : Env) : (e.accept).remaining = Config.latency e.accepted := rfl
@[simp] theorem Env.accepted_accept (e : Env) : (e.accept).accepted = e.accepted + 1 := rfl
@[simp] theorem Env.draws_accept (e : Env) : (e.accept).draws = e.draws := rfl

@[simp] theorem Env.rstN_noteRead (e : Env) (w : Word) (d : Bool) : (e.noteRead w d).rstN = e.rstN := rfl
@[simp] theorem Env.host_noteRead (e : Env) (w : Word) (d : Bool) : (e.noteRead w d).host = e.host := rfl
@[simp] theorem Env.reads_noteRead (e : Env) (w : Word) (d : Bool) : (e.noteRead w d).reads = w :: e.reads := rfl
@[simp] theorem Env.remaining_noteRead (e : Env) (w : Word) (d : Bool) : (e.noteRead w d).remaining = e.remaining := rfl
@[simp] theorem Env.accepted_noteRead (e : Env) (w : Word) (d : Bool) : (e.noteRead w d).accepted = e.accepted := rfl
@[simp] theorem Env.draws_noteRead (e : Env) (w : Word) (d : Bool) : (e.noteRead w d).draws = if d then e.draws + 1 else e.draws := rfl

/-! ### STATUS -/

@[simp] theorem Status.busy_clearOutcome (t : Status) : (t.clearOutcome).busy = t.busy := rfl
@[simp] theorem Status.done_clearOutcome (t : Status) : (t.clearOutcome).done = false := rfl
@[simp] theorem Status.err_clearOutcome (t : Status) : (t.clearOutcome).err = false := rfl
@[simp] theorem Status.errCode_clearOutcome (t : Status) : (t.clearOutcome).errCode = 0 := rfl
@[simp] theorem Status.werr_clearOutcome (t : Status) : (t.clearOutcome).werr = t.werr := rfl
@[simp] theorem Status.ovr_clearOutcome (t : Status) : (t.clearOutcome).ovr = t.ovr := rfl

@[simp] theorem Status.busy_ended (t : Status) : (t.ended).busy = t.busy := rfl
@[simp] theorem Status.done_ended (t : Status) : (t.ended).done = true := rfl
@[simp] theorem Status.err_ended (t : Status) : (t.ended).err = t.err := rfl
@[simp] theorem Status.errCode_ended (t : Status) : (t.ended).errCode = t.errCode := rfl
@[simp] theorem Status.werr_ended (t : Status) : (t.ended).werr = t.werr := rfl
@[simp] theorem Status.ovr_ended (t : Status) : (t.ended).ovr = t.ovr := rfl

@[simp] theorem Status.busy_accepted (t : Status) : (t.accepted).busy = true := rfl
@[simp] theorem Status.done_accepted (t : Status) : (t.accepted).done = t.done := rfl
@[simp] theorem Status.err_accepted (t : Status) : (t.accepted).err = t.err := rfl
@[simp] theorem Status.errCode_accepted (t : Status) : (t.accepted).errCode = t.errCode := rfl
@[simp] theorem Status.werr_accepted (t : Status) : (t.accepted).werr = t.werr := rfl
@[simp] theorem Status.ovr_accepted (t : Status) : (t.accepted).ovr = t.ovr := rfl

@[simp] theorem Status.busy_completed (t : Status) : (t.completed).busy = false := rfl
@[simp] theorem Status.done_completed (t : Status) : (t.completed).done = true := rfl
@[simp] theorem Status.err_completed (t : Status) : (t.completed).err = t.err := rfl
@[simp] theorem Status.errCode_completed (t : Status) : (t.completed).errCode = t.errCode := rfl
@[simp] theorem Status.werr_completed (t : Status) : (t.completed).werr = t.werr := rfl
@[simp] theorem Status.ovr_completed (t : Status) : (t.completed).ovr = t.ovr := rfl

@[simp] theorem Status.busy_setWerr (t : Status) : (t.setWerr).busy = t.busy := rfl
@[simp] theorem Status.done_setWerr (t : Status) : (t.setWerr).done = t.done := rfl
@[simp] theorem Status.err_setWerr (t : Status) : (t.setWerr).err = t.err := rfl
@[simp] theorem Status.errCode_setWerr (t : Status) : (t.setWerr).errCode = t.errCode := rfl
@[simp] theorem Status.werr_setWerr (t : Status) : (t.setWerr).werr = true := rfl
@[simp] theorem Status.ovr_setWerr (t : Status) : (t.setWerr).ovr = t.ovr := rfl

@[simp] theorem Status.busy_setOvr (t : Status) : (t.setOvr).busy = t.busy := rfl
@[simp] theorem Status.done_setOvr (t : Status) : (t.setOvr).done = t.done := rfl
@[simp] theorem Status.err_setOvr (t : Status) : (t.setOvr).err = t.err := rfl
@[simp] theorem Status.errCode_setOvr (t : Status) : (t.setOvr).errCode = t.errCode := rfl
@[simp] theorem Status.werr_setOvr (t : Status) : (t.setOvr).werr = t.werr := rfl
@[simp] theorem Status.ovr_setOvr (t : Status) : (t.setOvr).ovr = true := rfl

@[simp] theorem Status.busy_raised (t : Status) (e : EngineError) : (t.raised e).busy = t.busy := rfl
@[simp] theorem Status.done_raised (t : Status) (e : EngineError) : (t.raised e).done = true := rfl
@[simp] theorem Status.err_raised (t : Status) (e : EngineError) : (t.raised e).err = true := rfl
@[simp] theorem Status.errCode_raised (t : Status) (e : EngineError) : (t.raised e).errCode = e.code := rfl
@[simp] theorem Status.werr_raised (t : Status) (e : EngineError) : (t.raised e).werr = t.werr := rfl
@[simp] theorem Status.ovr_raised (t : Status) (e : EngineError) : (t.raised e).ovr = t.ovr := rfl

@[simp] theorem Status.busy_w1c (t : Status) (w : Word) : (t.w1c w).busy = t.busy := rfl
@[simp] theorem Status.done_w1c (t : Status) (w : Word) : (t.w1c w).done = (t.done && !w.getLsbD 1) := rfl
@[simp] theorem Status.err_w1c (t : Status) (w : Word) : (t.w1c w).err = (t.err && !w.getLsbD 2) := rfl
@[simp] theorem Status.errCode_w1c (t : Status) (w : Word) : (t.w1c w).errCode = if w.getLsbD 2 then 0 else t.errCode := rfl
@[simp] theorem Status.werr_w1c (t : Status) (w : Word) : (t.w1c w).werr = (t.werr && !w.getLsbD 8) := rfl
@[simp] theorem Status.ovr_w1c (t : Status) (w : Word) : (t.w1c w).ovr = (t.ovr && !w.getLsbD 9) := rfl

/-! ### Reset -/

@[simp] theorem State.busy_reset : State.reset.status.busy = false := rfl
@[simp] theorem State.env_engineReset (s : State) : (engineReset s).env = s.env := rfl
@[simp] theorem State.status_engineReset (s : State) : (engineReset s).status = Status.reset := rfl
@[simp] theorem State.inBuf_engineReset (s : State) : (engineReset s).inBuf = Vector.replicate 64 0 := rfl
@[simp] theorem State.qt_engineReset (s : State) : (engineReset s).qt = Config.defaultQt := rfl
@[simp] theorem State.coef_engineReset (s : State) : (engineReset s).coef = Vector.replicate 64 0 := rfl
@[simp] theorem State.out_engineReset (s : State) : (engineReset s).out = Vector.replicate 64 0 := rfl
@[simp] theorem State.ctrl_engineReset (s : State) : (engineReset s).ctrl = Ctrl.reset := rfl
@[simp] theorem State.lastCmd_engineReset (s : State) : (engineReset s).lastCmd = 0 := rfl
@[simp] theorem State.curCmd_engineReset (s : State) : (engineReset s).curCmd = 0 := rfl

/-- The reset forgets everything but the environment. -/
theorem engineReset_setEnv (s : State) (e : Env) : engineReset (s.setEnv e) = State.reset.setEnv e := rfl

end Sys2Proof.Machine
end

