-- ==== Sys2Proof/Laws/Buffers.lean ====
section
/-! SUPPORT. The raster index, the entries of the buffers an operation builds, and the register map. -/

namespace Sys2Proof.Machine

/-! ### Raster index -/

@[simp] theorem raster_colOf_rowOf (k : Fin 64) : raster (colOf k) (rowOf k) = k := by
  apply Fin.ext; simp only [raster, colOf, rowOf]; omega

@[simp] theorem colOf_raster (x y : Fin 8) : colOf (raster x y) = x := by
  apply Fin.ext; simp only [raster, colOf]; omega

@[simp] theorem rowOf_raster (x y : Fin 8) : rowOf (raster x y) = y := by
  apply Fin.ext; simp only [raster, rowOf]; omega

/-- A statement about every lane is one about every column and row. -/
theorem forall_raster {P : Fin 64 → Prop} : (∀ k, P k) ↔ ∀ x y, P (raster x y) :=
  ⟨fun h x y => h _, fun h k => by simpa using h (colOf k) (rowOf k)⟩

/-- The valid region of 41_transform.md R123 as a bound on each coordinate. -/
theorem inRegion_raster (vw vh : BitVec 4) (x y : Fin 8) :
    inRegion vw vh (raster x y) = true ↔ x.val < vw.toNat ∧ y.val < vh.toNat := by
  simp [inRegion]

/-! ### Entries of built buffers -/

theorem getElem_pad (b : Block Byte) (vw vh : BitVec 4) (k : Fin 64) :
    (pad b vw vh)[k] = if inRegion vw vh k then toF64 b[k].toNat else posZero := by
  simp [pad]

theorem getElem_dctRows (x : Block F64) (k : Fin 64) :
    (dctRows x)[k] = dct1 (fun n => x[raster n (rowOf k)]) (colOf k) := by
  simp [dctRows]

theorem getElem_dctCols (t : Block F64) (k : Fin 64) :
    (dctCols t)[k] = dct1 (fun n => t[raster (colOf k) n]) (rowOf k) := by
  simp [dctCols]

/-- The two passes of 41_transform.md R122 at frequency `(u, v)`. -/
theorem getElem_dctRef64 (x : Block F64) (u v : Fin 8) :
    (dctRef64 x)[raster u v] = dct1 (fun y => dct1 (fun n => x[raster n y]) u) v := by
  rw [dctRef64, getElem_dctCols]
  simp only [getElem_dctRows, colOf_raster, rowOf_raster]

theorem getElem_quantize (c : Block F64) (q : Block Divisor) (k : Fin 64) :
    (quantize c q)[k] = quant1 (c)[k] q[k] := by
  simp [quantize]

theorem getElem_writtenBack (c : Block F64) (old : Block Byte) (vw vh : BitVec 4) (k : Fin 64) :
    (writtenBack c old vw vh)[k] = if inRegion vw vh k then wb8 (c)[k] else old[k] := by
  simp [writtenBack]

/-- Two buffers with equal entries are equal. -/
theorem block_ext {α : Type} {v w : Block α} (h : ∀ k : Fin 64, v[k] = w[k]) : v = w := by
  apply Vector.ext
  intro i hi
  exact h ⟨i, hi⟩

/-- An entry after one entry was replaced. -/
theorem getElem_set_fin {α : Type} (v : Block α) (i k : Fin 64) (a : α) :
    (v.set i a)[k] = if k = i then a else v[k] := by
  simp only [Fin.getElem_fin, Vector.getElem_set, Fin.ext_iff, eq_comm]

/-- The entries after a word of a byte buffer was replaced (20_memory.md R62). -/
theorem getElem_unpackBytes (b : Block Byte) (i : Fin 16) (w : Word) (k : Fin 64) :
    (unpackBytes b i w)[k] = if k.val / 4 = i.val then w.extractLsb' (8 * (k.val % 4)) 8 else b[k] := by
  have e0 : k = byteIndex i 0 ↔ k.val = 4 * i.val := Fin.ext_iff
  have e1 : k = byteIndex i 1 ↔ k.val = 4 * i.val + 1 := Fin.ext_iff
  have e2 : k = byteIndex i 2 ↔ k.val = 4 * i.val + 2 := Fin.ext_iff
  have e3 : k = byteIndex i 3 ↔ k.val = 4 * i.val + 3 := Fin.ext_iff
  rw [unpackBytes, getElem_set_fin, getElem_set_fin, getElem_set_fin, getElem_set_fin]
  simp only [e0, e1, e2, e3]
  by_cases hq : k.val / 4 = i.val
  · have : k.val % 4 = 0 ∨ k.val % 4 = 1 ∨ k.val % 4 = 2 ∨ k.val % 4 = 3 := by omega
    rcases this with h | h | h | h
    all_goals
      rw [if_pos hq, h]
      repeat (first | rw [if_pos (by omega)] | rw [if_neg (by omega)])
  · rw [if_neg hq]
    repeat rw [if_neg (by omega)]

/-- Byte `j` of a word of a byte buffer (20_memory.md R62). -/
theorem extractLsb'_packBytes (b : Block Byte) (i : Fin 16) (j : Fin 4) :
    (packBytes b i).extractLsb' (8 * j.val) 8 = b[byteIndex i j] := by
  have key : ∀ (p q r t : Byte), (((p ++ q) ++ (r ++ t) : Word).extractLsb' 0 8 = t) ∧
      (((p ++ q) ++ (r ++ t) : Word).extractLsb' 8 8 = r) ∧ (((p ++ q) ++ (r ++ t) : Word).extractLsb' 16 8 = q) ∧
      (((p ++ q) ++ (r ++ t) : Word).extractLsb' 24 8 = p) := by
    intro p q r t
    refine ⟨?_, ?_, ?_, ?_⟩ <;>
    · ext n hn
      simp only [BitVec.getElem_extractLsb', BitVec.getLsbD_append]
      interval_cases n <;> simp [BitVec.getLsbD_eq_getElem]
  obtain ⟨h0, h1, h2, h3⟩ := key b[byteIndex i 3] b[byteIndex i 2] b[byteIndex i 1] b[byteIndex i 0]
  fin_cases j
  · exact h0
  · exact h1
  · exact h2
  · exact h3

/-! ### The register map (20_memory.md R60) -/

theorem wordOffset_eq (off : Offset) : wordOffset off = off.toNat / 4 * 4 := by
  revert off; decide

theorem wordOffset_lt (off : Offset) : wordOffset off < 4096 := by
  have := off.isLt
  rw [wordOffset_eq]; omega

theorem wordOffset_mod (off : Offset) : wordOffset off % 4 = 0 := by
  rw [wordOffset_eq]; omega

/-- 20_memory.md R64. -/
theorem wordOffset_and (off : Offset) : wordOffset (off &&& 0xFFC) = wordOffset off := by
  simp only [wordOffset, BitVec.and_assoc, BitVec.and_self]

/-- 20_memory.md R64: the two low bits of an offset have no effect. -/
theorem region_and (off : Offset) : region (off &&& 0xFFC) = region off := by
  rw [region, region, wordOffset_and]

theorem regionAt_inWord {a : Nat} (h : 0x100 ≤ a ∧ a ≤ 0x13F) : regionAt a = .inWord ⟨(a - 0x100) / 4, by omega⟩ := by
  unfold regionAt
  repeat rw [if_neg (by omega)]
  rw [dif_pos h]

theorem regionAt_qtWord {a : Nat} (h : 0x200 ≤ a ∧ a ≤ 0x2FF) : regionAt a = .qtWord ⟨(a - 0x200) / 4, by omega⟩ := by
  unfold regionAt
  repeat rw [if_neg (by omega)]
  rw [dif_neg (by omega), dif_pos h]

theorem regionAt_coefLow {a : Nat} (h : 0x400 ≤ a ∧ a ≤ 0x5FF) (h8 : a % 8 < 4) :
    regionAt a = .coefLow ⟨(a - 0x400) / 8, by omega⟩ := by
  unfold regionAt
  repeat rw [if_neg (by omega)]
  rw [dif_neg (by omega), dif_neg (by omega), dif_pos h, if_pos h8]

theorem regionAt_coefHigh {a : Nat} (h : 0x400 ≤ a ∧ a ≤ 0x5FF) (h8 : ¬ a % 8 < 4) :
    regionAt a = .coefHigh ⟨(a - 0x400) / 8, by omega⟩ := by
  unfold regionAt
  repeat rw [if_neg (by omega)]
  rw [dif_neg (by omega), dif_neg (by omega), dif_pos h, if_neg h8]

theorem regionAt_outWord {a : Nat} (h : 0x600 ≤ a ∧ a ≤ 0x63F) : regionAt a = .outWord ⟨(a - 0x600) / 4, by omega⟩ := by
  unfold regionAt
  repeat rw [if_neg (by omega)]
  rw [dif_neg (by omega), dif_neg (by omega), dif_neg (by omega), dif_pos h]

/-- The reserved ranges of 20_memory.md R60, for any byte of theirs. -/
theorem regionAt_reserved {a : Nat}
    (h : (0x010 ≤ a ∧ a ≤ 0x0FF) ∨ (0x140 ≤ a ∧ a ≤ 0x1FF) ∨ (0x300 ≤ a ∧ a ≤ 0x3FF) ∨ 0x640 ≤ a) :
    regionAt a = .reserved := by
  unfold regionAt
  repeat rw [if_neg (by omega)]
  repeat rw [dif_neg (by omega)]

/-- What an offset reaches says where it is. -/
theorem regionAt_cases (off : Offset) :
    (region off = .id ∧ wordOffset off = 0x000) ∨ (region off = .ctrl ∧ wordOffset off = 0x004) ∨
    (region off = .cmd ∧ wordOffset off = 0x008) ∨ (region off = .status ∧ wordOffset off = 0x00C) ∨
    (∃ i : Fin 16, region off = .inWord i ∧ wordOffset off = 0x100 + 4 * i.val) ∨
    (∃ k : Fin 64, region off = .qtWord k ∧ wordOffset off = 0x200 + 4 * k.val) ∨
    (∃ k : Fin 64, region off = .coefLow k ∧ wordOffset off = 0x400 + 8 * k.val) ∨
    (∃ k : Fin 64, region off = .coefHigh k ∧ wordOffset off = 0x404 + 8 * k.val) ∨
    (∃ i : Fin 16, region off = .outWord i ∧ wordOffset off = 0x600 + 4 * i.val) ∨
    (region off = .reserved ∧ ((0x010 ≤ wordOffset off ∧ wordOffset off ≤ 0x0FC) ∨
      (0x140 ≤ wordOffset off ∧ wordOffset off ≤ 0x1FC) ∨ (0x300 ≤ wordOffset off ∧ wordOffset off ≤ 0x3FC) ∨
      0x640 ≤ wordOffset off)) := by
  have hm := wordOffset_mod off
  simp only [region]
  generalize wordOffset off = a at hm ⊢
  by_cases h0 : a = 0x000
  · left; subst h0; exact ⟨rfl, rfl⟩
  by_cases h1 : a = 0x004
  · right; left; subst h1; exact ⟨rfl, rfl⟩
  by_cases h2 : a = 0x008
  · right; right; left; subst h2; exact ⟨rfl, rfl⟩
  by_cases h3 : a = 0x00C
  · right; right; right; left; subst h3; exact ⟨rfl, rfl⟩
  right; right; right; right
  by_cases hi : 0x100 ≤ a ∧ a ≤ 0x13F
  · left; exact ⟨_, regionAt_inWord hi, by simp only []; omega⟩
  by_cases hq : 0x200 ≤ a ∧ a ≤ 0x2FF
  · right; left; exact ⟨_, regionAt_qtWord hq, by simp only []; omega⟩
  by_cases hc : 0x400 ≤ a ∧ a ≤ 0x5FF
  · by_cases h8 : a % 8 < 4
    · right; right; left; exact ⟨_, regionAt_coefLow hc h8, by simp only []; omega⟩
    · right; right; right; left; exact ⟨_, regionAt_coefHigh hc h8, by simp only []; omega⟩
  by_cases ho : 0x600 ≤ a ∧ a ≤ 0x63F
  · right; right; right; right; left; exact ⟨_, regionAt_outWord ho, by simp only []; omega⟩
  right; right; right; right; right
  exact ⟨regionAt_reserved (by omega), by omega⟩

theorem region_eq_cmd_iff (off : Offset) : region off = .cmd ↔ wordOffset off = 0x008 := by
  constructor
  · intro h
    rcases regionAt_cases off with c | c | c | c | ⟨i, c⟩ | ⟨i, c⟩ | ⟨i, c⟩ | ⟨i, c⟩ | ⟨i, c⟩ | c <;>
      simp_all
  · intro h; rw [region, h]; rfl

end Sys2Proof.Machine
end

