-- ==== Sys2Proof/Laws/Decode.lean ====
section
/-! SUPPORT. The fields of a command word, what decoding a word says about it, and the checks of 60_exceptions.md R202
on a command. -/

namespace Sys2Proof.Machine

/-! ### Fields of a written word (30_encoding.md R81) -/

@[simp] theorem opField_commandWord (vh vw op : BitVec 4) : opField (commandWord vh vw op) = op := by
  apply BitVec.eq_of_getLsbD_eq
  intro n hn
  simp only [opField, commandWord, BitVec.getLsbD_extractLsb', BitVec.getLsbD_append]
  interval_cases n <;> simp

@[simp] theorem vwField_commandWord (vh vw op : BitVec 4) : vwField (commandWord vh vw op) = vw := by
  apply BitVec.eq_of_getLsbD_eq
  intro n hn
  simp only [vwField, commandWord, BitVec.getLsbD_extractLsb', BitVec.getLsbD_append]
  interval_cases n <;> simp

@[simp] theorem vhField_commandWord (vh vw op : BitVec 4) : vhField (commandWord vh vw op) = vh := by
  apply BitVec.eq_of_getLsbD_eq
  intro n hn
  simp only [vhField, commandWord, BitVec.getLsbD_extractLsb', BitVec.getLsbD_append]
  interval_cases n <;> simp

@[simp] theorem rsv0Field_commandWord (vh vw op : BitVec 4) : rsv0Field (commandWord vh vw op) = 0 := by
  apply BitVec.eq_of_getLsbD_eq
  intro n hn
  simp only [rsv0Field, commandWord, BitVec.getLsbD_extractLsb', BitVec.getLsbD_append]
  interval_cases n <;> simp

@[simp] theorem rsv1Field_commandWord (vh vw op : BitVec 4) : rsv1Field (commandWord vh vw op) = 0 := by
  apply BitVec.eq_of_getLsbD_eq
  intro n hn
  simp only [rsv1Field, commandWord, BitVec.getLsbD_extractLsb', BitVec.getLsbD_append]
  interval_cases n <;> simp

/-- A word is its five fields. -/
theorem word_eq_of_fields {w w' : Word} (h1 : opField w = opField w') (h2 : rsv0Field w = rsv0Field w')
    (h3 : vwField w = vwField w') (h4 : vhField w = vhField w') (h5 : rsv1Field w = rsv1Field w') : w = w' := by
  have split : ∀ v : Word, v = ((rsv1Field v ++ vhField v) ++ (vwField v ++ (rsv0Field v ++ opField v))) := by
    intro v
    apply BitVec.eq_of_getLsbD_eq
    intro n hn
    simp only [rsv1Field, vhField, vwField, rsv0Field, opField, BitVec.getLsbD_append, BitVec.getLsbD_extractLsb']
    interval_cases n <;> simp
  rw [split w, split w', h1, h2, h3, h4, h5]

/-- A word whose reserved fields are 0 is the word written from its other fields. -/
theorem word_eq_commandWord {w : Word} (h1 : rsv1Field w = 0) (h0 : rsv0Field w = 0) :
    w = commandWord (vhField w) (vwField w) (opField w) := by
  apply word_eq_of_fields <;> simp [h0, h1]

/-! ### Decoding (30_encoding.md R85) -/

/-- What a word that decodes holds. -/
theorem decode_ok {w : Word} {i : Instr} (h : decode w = .ok i) :
    rsv1Field w = 0 ∧ rsv0Field w = 0 ∧ opField w = i.opcode ∧
    (i = .nop ∨ i = .dct (vwField w) (vhField w) ∨ i = .dctq (vwField w) (vhField w) ∨
      i = .quant (vwField w) (vhField w) ∨ i = .pack (vwField w) (vhField w) ∨ i = .qtdef) := by
  unfold decode at h
  split at h
  · cases h
  next hr =>
    have h1 : rsv1Field w = 0 := by by_contra c; exact hr (.inl c)
    have h0 : rsv0Field w = 0 := by by_contra c; exact hr (.inr c)
    refine ⟨h1, h0, ?_⟩
    split at h <;> cases h
    all_goals
      next hop => exact ⟨BitVec.eq_of_toNat_eq hop, by simp⟩

/-- A word is no command exactly when a reserved bit is set or its opcode is reserved (30_encoding.md R86). -/
theorem decode_error_iff (w : Word) :
    (∃ e, decode w = .error e) ↔ rsv1Field w ≠ 0 ∨ rsv0Field w ≠ 0 ∨ 0x6 ≤ (opField w).toNat := by
  unfold decode
  by_cases hr : rsv1Field w ≠ 0 ∨ rsv0Field w ≠ 0
  · rw [if_pos hr]
    exact ⟨fun _ => by tauto, fun _ => ⟨_, rfl⟩⟩
  · rw [if_neg hr]
    split
    all_goals
      next hop =>
        constructor
        · rintro ⟨e, he⟩
          first
            | (cases he; done)
            | (rename_i n0 n1 n2 n3 n4
               have n0 : (opField w).toNat ≠ 0 := n0
               have n1 : (opField w).toNat ≠ 1 := n1
               have n2 : (opField w).toNat ≠ 2 := n2
               have n3 : (opField w).toNat ≠ 3 := n3
               have n4 : (opField w).toNat ≠ 4 := n4
               have n5 : (opField w).toNat ≠ 5 := hop
               exact .inr (.inr (by omega)))
        · intro hc
          first
            | exact ⟨_, rfl⟩
            | (rcases hc with hc | hc | hc
               · exact absurd (.inl hc) hr
               · exact absurd (.inr hc) hr
               · omega)

/-! ### The checks (60_exceptions.md R202) -/

/-- The check `1..8` of 30_encoding.md R81 as an inequality. -/
theorem legalDim_eq_true (d : BitVec 4) : legalDim d = true ↔ 1 ≤ d.toNat ∧ d.toNat ≤ 8 := by
  simp [legalDim]

/-- A table holds a 0 exactly when an entry is 0. -/
theorem qtHasZero_iff (q : Block Divisor) : qtHasZero q = true ↔ ∃ k : Fin 64, q[k] = 0 := by
  simp only [qtHasZero, List.any_eq_true, beq_iff_eq, Vector.mem_toList_iff, Vector.mem_iff_getElem]
  constructor
  · rintro ⟨x, ⟨i, hi, rfl⟩, hx⟩
    exact ⟨⟨i, hi⟩, hx⟩
  · rintro ⟨k, hk⟩
    exact ⟨q[k], ⟨k.val, k.isLt, rfl⟩, hk⟩

/-- CheckCommand on the word of a command: the range of VW and VH, then the table. -/
theorem checkCommand_encode (i : Instr) (q : Block Divisor) :
    checkCommand (encode i) q =
      if i.wellFormed = false then some .invalidDim
      else if usesTable i = true ∧ qtHasZero q = true then some .invalidQt
      else none := by
  have dims : ∀ vw vh : BitVec 4, (vw.toNat < 1 ∨ 8 < vw.toNat ∨ vh.toNat < 1 ∨ 8 < vh.toNat) ↔
      (legalDim vw && legalDim vh) = false := by decide
  cases i
  all_goals
    simp only [encode, checkCommand, opField_commandWord, vwField_commandWord, vhField_commandWord,
      rsv0Field_commandWord, rsv1Field_commandWord, Instr.wellFormed, usesTable, dims]
    simp

/-- CheckCommand answers ILLEGAL_CMD exactly for the words that decode to no command. -/
theorem checkCommand_illegal_iff (w : Word) (q : Block Divisor) :
    checkCommand w q = some .illegalCmd ↔ ∃ e, decode w = .error e := by
  rw [decode_error_iff]
  simp only [checkCommand]
  by_cases h : rsv1Field w ≠ 0 ∨ rsv0Field w ≠ 0 ∨ 0x6 ≤ (opField w).toNat
  · rw [if_pos h]
    exact ⟨fun _ => h, fun _ => rfl⟩
  · rw [if_neg h]
    constructor
    · intro hc; split at hc <;> try split at hc
      all_goals cases hc
    · intro hc; exact absurd hc h

end Sys2Proof.Machine
end

