-- ==== Sys2Proof/Laws/Flags.lean ====
section
/-! SUPPORT. The bits of the STATUS and CTRL words, field by field. -/

namespace Sys2Proof.Machine

/-- The bits of a STATUS word (10_state.md R30). -/
theorem Status.getLsbD_word (t : Status) (b : Nat) : t.word.getLsbD b =
    if b = 0 then t.busy
    else if b = 1 then t.done
    else if b = 2 then t.err
    else if 4 ≤ b ∧ b ≤ 6 then t.errCode.getLsbD (b - 4)
    else if b = 8 then t.werr
    else if b = 9 then t.ovr
    else false := by
  by_cases hb : b < 32
  · simp only [Status.word, BitVec.getLsbD_append]
    interval_cases b <;> simp
  · rw [BitVec.getLsbD_of_ge _ _ (by omega)]
    repeat rw [if_neg (by omega)]

/-- ERRCODE is bits 6:4 of STATUS (10_state.md R30). -/
theorem Status.extractLsb'_word (t : Status) : t.word.extractLsb' 4 3 = t.errCode := by
  apply BitVec.eq_of_getLsbD_eq
  intro n hn
  rw [BitVec.getLsbD_extractLsb', Status.getLsbD_word]
  interval_cases n <;> simp

/-- The bits of a CTRL word (10_state.md R28). -/
theorem Ctrl.getLsbD_word (c : Ctrl) (b : Nat) : c.word.getLsbD b =
    if b = 0 then c.ieDone
    else if b = 1 then c.ieErr
    else false := by
  by_cases hb : b < 32
  · simp only [Ctrl.word, BitVec.getLsbD_append]
    interval_cases b <;> simp
  · rw [BitVec.getLsbD_of_ge _ _ (by omega)]
    repeat rw [if_neg (by omega)]

end Sys2Proof.Machine
end

