-- ==== Sys2Proof/Laws/Float.lean ====
section
/-! SUPPORT. The pieces of the binary64 arithmetic: the fields and the value of a packed pattern, rounding an integer to a
power of two, and what `roundPack` answers, said once for every operation that rounds. -/

namespace Sys2Proof.Machine

/-! ### The fields of a packed pattern -/

theorem toNat_packF64 (s : Bool) (m : Nat) (h : m < 2 ^ 63) : (packF64 s m).toNat = s.toNat * 2 ^ 63 + m := by
  rw [packF64, BitVec.toNat_append, BitVec.toNat_ofBool, BitVec.toNat_ofNat, Nat.mod_eq_of_lt h,
    ← Nat.shiftLeft_add_eq_or_of_lt h, Nat.shiftLeft_eq]

@[simp] theorem signBit_packF64 (s : Bool) (m : Nat) : signBit (packF64 s m) = s := by
  rw [signBit, packF64, BitVec.getLsbD_append]
  cases s <;> simp

theorem expField_packF64 (s : Bool) (m : Nat) (h : m < 2 ^ 63) : expField (packF64 s m) = m / 2 ^ 52 := by
  rw [expField, BitVec.extractLsb'_toNat, toNat_packF64 s m h, Nat.shiftRight_eq_div_pow]
  cases s <;> simp only [Bool.toNat_false, Bool.toNat_true] <;> omega

theorem fracField_packF64 (s : Bool) (m : Nat) (h : m < 2 ^ 63) : fracField (packF64 s m) = m % 2 ^ 52 := by
  rw [fracField, BitVec.extractLsb'_toNat, toNat_packF64 s m h, Nat.shiftRight_zero]
  cases s <;> simp only [Bool.toNat_false, Bool.toNat_true] <;> omega

theorem magField_packF64 (s : Bool) (m : Nat) (h : m < 2 ^ 63) : magField (packF64 s m) = m := by
  rw [magField, BitVec.extractLsb'_toNat, toNat_packF64 s m h, Nat.shiftRight_zero]
  cases s <;> simp only [Bool.toNat_false, Bool.toNat_true] <;> omega

/-! ### The shape of a finite pattern -/

theorem expField_lt (y : F64) : expField y < 2 ^ 11 := (y.extractLsb' 52 11).isLt

theorem fracField_lt (y : F64) : fracField y < 2 ^ 52 := (y.extractLsb' 0 52).isLt

theorem mant_lt (y : F64) : mant y < 2 ^ 53 := by
  have := fracField_lt y
  rw [mant]; split <;> omega

theorem expo_ge (y : F64) : -1074 ≤ expo y := by
  rw [expo]; omega

/-- A significand with its leading 1, unless the exponent is the least one. -/
theorem mant_ge {y : F64} (h : -1074 < expo y) : 2 ^ 52 ≤ mant y := by
  rw [expo] at h
  rw [mant, if_neg (by omega)]; omega

/-- The value of a pattern packed from an exponent and a significand, where a significand of 2^53 carries. -/
theorem f64Value_packF64 (s : Bool) {e m : Nat} (hm : m ≤ 2 ^ 53) (he : e = 0 ∨ 2 ^ 52 ≤ m)
    (hlt : e * 2 ^ 52 + m < infMag) :
    isFinite (packF64 s (e * 2 ^ 52 + m)) = true ∧
    f64Value (packF64 s (e * 2 ^ 52 + m)) = (if s then -1 else 1) * ((m : ℚ) * (2 : ℚ) ^ ((e : ℤ) - 1074)) ∧
    fracField (packF64 s (e * 2 ^ 52 + m)) % 2 = m % 2 := by
  rw [infMag] at hlt
  have h63 : e * 2 ^ 52 + m < 2 ^ 63 := by omega
  have hx := expField_packF64 s _ h63
  have hf := fracField_packF64 s _ h63
  refine ⟨?_, ?_, by rw [hf]; omega⟩
  · rw [isFinite, hx, bne_iff_ne]; omega
  rw [f64Value, signBit_packF64, mul_assoc]
  congr 1
  rcases Nat.lt_or_ge m (2 ^ 52) with h1 | h1
  · have h0 : e = 0 := by omega
    subst h0
    have : (0 * 2 ^ 52 + m) / 2 ^ 52 = 0 := by omega
    rw [mant, expo, hx, hf, this, if_pos rfl]
    have : (0 * 2 ^ 52 + m) % 2 ^ 52 = m := by omega
    rw [this]; rfl
  rcases Nat.lt_or_ge m (2 ^ 53) with h2 | h2
  · have a : (e * 2 ^ 52 + m) / 2 ^ 52 = e + 1 := by omega
    have b : (e * 2 ^ 52 + m) % 2 ^ 52 = m - 2 ^ 52 := by omega
    rw [mant, expo, hx, hf, a, b, if_neg (by omega), Nat.add_sub_cancel' h1]
    congr 2
    omega
  · have h3 : m = 2 ^ 53 := by omega
    subst h3
    have a : (e * 2 ^ 52 + 2 ^ 53) / 2 ^ 52 = e + 2 := by omega
    have b : (e * 2 ^ 52 + 2 ^ 53) % 2 ^ 52 = 0 := by omega
    rw [mant, expo, hx, hf, a, b, if_neg (by omega)]
    have c : ((max (e + 2) 1 : Nat) : ℤ) - 1075 = ((e : ℤ) - 1074) + 1 := by omega
    rw [c, zpow_add_one₀ (by norm_num)]
    push_cast
    ring

/-- A finite value is a multiple of `2 ^ l`, or is below `2 ^ 52` of them and `l` is not the least exponent. -/
theorem f64Value_multiple (y : F64) (l : ℤ) :
    (∃ j : ℤ, f64Value y = j * (2 : ℚ) ^ l) ∨ (-1074 < l ∧ |f64Value y| < 2 ^ 52 * (2 : ℚ) ^ l) := by
  rcases Int.lt_or_le (expo y) l with h | h
  · right
    refine ⟨by have := expo_ge y; omega, ?_⟩
    have hs : |f64Value y| = (mant y : ℚ) * (2 : ℚ) ^ expo y := by
      rw [f64Value, mul_assoc, abs_mul, abs_of_nonneg (a := (mant y : ℚ) * (2 : ℚ) ^ expo y) (by positivity)]
      cases signBit y <;> simp
    have hm : (mant y : ℚ) < 2 ^ 53 := by exact_mod_cast mant_lt y
    have he : (2 : ℚ) ^ expo y ≤ (2 : ℚ) ^ (l - 1) := zpow_le_zpow_right₀ (by norm_num) (by omega)
    have hp : (0 : ℚ) < (2 : ℚ) ^ (l - 1) := by positivity
    have hl : (2 : ℚ) ^ l = (2 : ℚ) ^ (l - 1) * 2 := by rw [← zpow_add_one₀ (by norm_num)]; congr 1; ring
    rw [hs, hl]
    calc (mant y : ℚ) * (2 : ℚ) ^ expo y ≤ (mant y : ℚ) * (2 : ℚ) ^ (l - 1) := by gcongr
      _ < 2 ^ 53 * (2 : ℚ) ^ (l - 1) := by gcongr
      _ = _ := by ring
  · left
    refine ⟨(if signBit y then -1 else 1) * ((mant y : ℤ) * 2 ^ (expo y - l).toNat), ?_⟩
    have hl : (2 : ℚ) ^ expo y = (2 : ℚ) ^ (expo y - l).toNat * (2 : ℚ) ^ l := by
      rw [← zpow_natCast, Int.toNat_of_nonneg (by omega), ← zpow_add₀ (by norm_num)]; congr 1; ring
    rw [f64Value, hl]
    cases signBit y <;> push_cast <;> simp <;> ring

/-! ### Rounding -/

/-- `rneShift n k` is within a half of `n / 2 ^ k`, and even on a tie. -/
theorem rneShift_spec (n k : Nat) :
    |(n : ℚ) / 2 ^ k - rneShift n k| ≤ 1 / 2 ∧ (|(n : ℚ) / 2 ^ k - rneShift n k| = 1 / 2 → rneShift n k % 2 = 0) := by
  have hp : (0 : ℚ) < 2 ^ k := by positivity
  have hpn : 0 < 2 ^ k := by positivity
  have hdiv : (n : ℚ) / 2 ^ k = (n / 2 ^ k : Nat) + ((n % 2 ^ k : Nat) : ℚ) / 2 ^ k := by
    have h : ((2 ^ k * (n / 2 ^ k) + n % 2 ^ k : Nat) : ℚ) = n := by rw [Nat.div_add_mod]
    rw [Nat.cast_add, Nat.cast_mul, Nat.cast_pow, Nat.cast_ofNat] at h
    rw [div_eq_iff hp.ne', add_mul, div_mul_cancel₀ _ hp.ne', mul_comm]
    exact h.symm
  have hr : n % 2 ^ k < 2 ^ k := Nat.mod_lt _ hpn
  unfold rneShift
  dsimp only
  generalize n / 2 ^ k = d at *
  generalize n % 2 ^ k = r at *
  rw [hdiv]
  have h0 : 0 ≤ (r : ℚ) / 2 ^ k := by positivity
  have h1 : (r : ℚ) / 2 ^ k < 1 := by
    rw [div_lt_one hp]; exact_mod_cast hr
  split
  · next h =>
    have h2 : (1 : ℚ) / 2 ≤ (r : ℚ) / 2 ^ k := by
      rw [div_le_div_iff₀ (by norm_num) hp]
      have : 2 ^ k ≤ 2 * r := by omega
      have : ((2 ^ k : Nat) : ℚ) ≤ ((2 * r : Nat) : ℚ) := by exact_mod_cast this
      push_cast at this; linarith
    have e : (d : ℚ) + (r : ℚ) / 2 ^ k - ((d + 1 : Nat) : ℚ) = (r : ℚ) / 2 ^ k - 1 := by push_cast; ring
    rw [e, abs_of_neg (by linarith)]
    refine ⟨by linarith, fun ht => ?_⟩
    rcases h with h | h
    · exfalso
      have : (1 : ℚ) / 2 < (r : ℚ) / 2 ^ k := by
        rw [div_lt_div_iff₀ (by norm_num) hp]
        have : ((2 ^ k : Nat) : ℚ) < ((2 * r : Nat) : ℚ) := by exact_mod_cast h
        push_cast at this; linarith
      linarith
    · omega
  · next h =>
    have h2 : (r : ℚ) / 2 ^ k ≤ 1 / 2 := by
      rw [div_le_div_iff₀ hp (by norm_num)]
      have : 2 * r ≤ 2 ^ k := by omega
      have : ((2 * r : Nat) : ℚ) ≤ ((2 ^ k : Nat) : ℚ) := by exact_mod_cast this
      push_cast at this; linarith
    rw [add_sub_cancel_left, abs_of_nonneg h0]
    refine ⟨h2, fun ht => ?_⟩
    rw [div_eq_div_iff hp.ne' (by norm_num)] at ht
    have : 2 * r = 2 ^ k := by
      have : ((2 * r : Nat) : ℚ) = ((2 ^ k : Nat) : ℚ) := by push_cast; linarith
      exact_mod_cast this
    omega

/-- An integer within a half of `x` is as near to it as any integer, and as any value below `2 ^ 52 ≤ x`; another value is
as near only on a tie. -/
theorem nearest_of_half {x t : ℚ} {m : Nat} (hm : |x - m| ≤ 1 / 2)
    (ht : (∃ j : ℤ, t = j) ∨ (2 ^ 52 ≤ x ∧ |t| < 2 ^ 52)) :
    |x - m| ≤ |x - t| ∧ (|x - t| = |x - m| → t ≠ m → |x - m| = 1 / 2) := by
  have key : ∀ j : ℤ, |x - m| ≤ |x - (j : ℚ)| ∧ (|x - (j : ℚ)| = |x - m| → (j : ℚ) ≠ m → |x - m| = 1 / 2) := by
    intro j
    by_cases hj : j = m
    · subst hj
      exact ⟨le_refl _, fun _ h => absurd rfl h⟩
    · have h1 : (1 : ℤ) ≤ |(m : ℤ) - j| := Int.one_le_abs (by omega)
      have h2 : (1 : ℚ) ≤ |(m : ℚ) - j| := by exact_mod_cast h1
      have h3 : |(m : ℚ) - j| ≤ |x - m| + |x - j| := by
        have := abs_sub_le (m : ℚ) x j
        rwa [abs_sub_comm (m : ℚ) x] at this
      exact ⟨by linarith, fun h _ => by linarith⟩
  rcases ht with ⟨j, rfl⟩ | ⟨hx, hs⟩
  · exact key j
  · have h1 := (key (2 ^ 52)).1
    have h2 : |x - ((2 ^ 52 : ℤ) : ℚ)| = x - 2 ^ 52 := by push_cast; exact abs_of_nonneg (by linarith)
    have h3 := (abs_lt.1 hs).2
    have h4 : |x - t| = x - t := abs_of_pos (by linarith)
    rw [h2] at h1
    rw [h4]
    exact ⟨by linarith, fun h _ => by linarith⟩

/-- The overflow bound is `2 ^ 54 - 1` halves of `2 ^ 971`, the last place of the largest finite exponent. -/
theorem overflowBound_eq : ∃ p : ℚ, 0 < p ∧ overflowBound = (2 ^ 54 - 1) * p ∧
    (∀ l : ℤ, l ≤ 970 → (2 : ℚ) ^ l ≤ p) ∧ (∀ l : ℤ, l = 971 → (2 : ℚ) ^ l = 2 * p) ∧
    (∀ l : ℤ, 972 ≤ l → 4 * p ≤ (2 : ℚ) ^ l) := by
  refine ⟨(2 : ℚ) ^ (970 : ℤ), zpow_pos (by norm_num) _, ?_, fun l h => zpow_le_zpow_right₀ (by norm_num) h, ?_, ?_⟩
  · rw [overflowBound, show (1024 : ℤ) = ((54 : Nat) : ℤ) + 970 by norm_num, zpow_add₀ (by norm_num), zpow_natCast]
    generalize (2 : ℚ) ^ (970 : ℤ) = p
    ring
  · rintro l rfl
    rw [show (971 : ℤ) = 970 + 1 by norm_num, zpow_add_one₀ (by norm_num), mul_comm]
  · intro l h
    rw [show (4 : ℚ) = (2 : ℚ) ^ (2 : ℤ) by norm_num, ← zpow_add₀ (by norm_num)]
    exact zpow_le_zpow_right₀ (by norm_num) (by omega)

/-- A significand that is `x` rounded to an integer, with the exponent of its last place, packs to the rounding of
`±x * 2^l`: to nearest with ties to even, and to an infinity on overflow (00_scope.md R11). -/
theorem isRounded_packF64 (s : Bool) {x : ℚ} {l : ℤ} {e m : Nat} (he : (e : ℤ) = l + 1074) (hx0 : 0 ≤ x)
    (hxlt : x < 2 ^ 53) (hxge : -1074 < l → 2 ^ 52 ≤ x) (hnear : |x - m| ≤ 1 / 2)
    (htie : |x - m| = 1 / 2 → m % 2 = 0) :
    IsRounded ((if s then -1 else 1) * (x * (2 : ℚ) ^ l)) (packF64 s (min (e * 2 ^ 52 + m) infMag)) := by
  obtain ⟨p, hp0, hbound, hp970, hp971, hp972⟩ := overflowBound_eq
  have hl2 : -1074 ≤ l := by omega
  have hpos : (0 : ℚ) < (2 : ℚ) ^ l := by positivity
  have hab := abs_le.1 hnear
  have hm53 : m ≤ 2 ^ 53 := by
    by_contra hc
    have : ((2 ^ 53 + 1 : Nat) : ℚ) ≤ m := by exact_mod_cast (by omega : 2 ^ 53 + 1 ≤ m)
    push_cast at this; linarith
  have hm52 : -1074 < l → 2 ^ 52 ≤ m := by
    intro h
    by_contra hc
    have h1 : (m : ℚ) + 1 ≤ 2 ^ 52 := by exact_mod_cast (by omega : m + 1 ≤ 2 ^ 52)
    have := hxge h
    linarith
  have hsg : ∀ a : ℚ, |(if s then -1 else 1) * a| = |a| := by
    intro a; cases s <;> simp
  have habs : |(if s then -1 else 1) * (x * (2 : ℚ) ^ l)| = x * (2 : ℚ) ^ l := by
    rw [hsg]; exact abs_of_nonneg (by positivity)
  have hfin : x * (2 : ℚ) ^ l < overflowBound → e * 2 ^ 52 + m < infMag := by
    intro h
    have hlle : l ≤ 971 := by
      by_contra hc
      have h2 := hxge (by omega)
      have h3 := hp972 l (by omega)
      have h4 : (2 : ℚ) ^ 52 * (4 * p) ≤ x * (2 : ℚ) ^ l := by gcongr
      rw [hbound] at h
      linarith
    rw [infMag]
    rcases Int.lt_or_le l 971 with h1 | h1
    · omega
    · have h971 : l = 971 := by omega
      have h2 : x < 2 ^ 53 - 1 / 2 := by
        have h3 : overflowBound = (2 ^ 53 - 1 / 2) * (2 : ℚ) ^ l := by
          rw [hbound, hp971 l h971]; ring
        rw [h3] at h
        exact lt_of_mul_lt_mul_right h hpos.le
      have h4 : (m : ℚ) < 2 ^ 53 := by linarith
      have h5 : m < 2 ^ 53 := by exact_mod_cast h4
      omega
  have hinf : overflowBound ≤ x * (2 : ℚ) ^ l → infMag ≤ e * 2 ^ 52 + m := by
    intro h
    have hlge : 971 ≤ l := by
      by_contra hc
      have h3 := hp970 l (by omega)
      have h4 : x * (2 : ℚ) ^ l ≤ 2 ^ 53 * p := by gcongr
      rw [hbound] at h
      linarith
    have h52 := hm52 (by omega)
    rw [infMag]
    rcases Int.lt_or_le 971 l with h1 | h1
    · omega
    · have h971 : l = 971 := by omega
      have h2 : 2 ^ 53 - 1 / 2 ≤ x := by
        have h3 : overflowBound = (2 ^ 53 - 1 / 2) * (2 : ℚ) ^ l := by
          rw [hbound, hp971 l h971]; ring
        rw [h3] at h
        exact le_of_mul_le_mul_right h hpos
      have h5 : 2 ^ 53 ≤ m := by
        by_contra hc
        have h6 : (m : ℚ) + 1 ≤ 2 ^ 53 := by exact_mod_cast (by omega : m + 1 ≤ 2 ^ 53)
        have h7 : x - m = 1 / 2 := by linarith
        have h8 := htie (by rw [h7]; norm_num)
        have h9 : (m : ℚ) = 2 ^ 53 - 1 := by linarith
        have h10 : m = 2 ^ 53 - 1 := by
          have : ((m + 1 : Nat) : ℚ) = ((2 ^ 53 : Nat) : ℚ) := by push_cast; linarith
          have : m + 1 = 2 ^ 53 := by exact_mod_cast this
          omega
        omega
      omega
  refine ⟨fun h => ?_, fun h => ?_, fun h => ?_⟩
  · rw [habs] at h
    have hlt := hfin h
    rw [Nat.min_eq_left hlt.le]
    have hE : e = 0 ∨ 2 ^ 52 ≤ m := by
      rcases Int.lt_or_le (-1074) l with h1 | h1
      · exact .inr (hm52 h1)
      · left; omega
    obtain ⟨v1, v2, v3⟩ := f64Value_packF64 s hm53 hE hlt
    have hel : ((e : ℤ) - 1074) = l := by omega
    rw [hel] at v2
    have dist : ∀ t : ℚ, |(if s then -1 else 1) * (x * (2 : ℚ) ^ l) - (if s then -1 else 1) * (t * (2 : ℚ) ^ l)| =
        |x - t| * (2 : ℚ) ^ l := by
      intro t
      rw [← mul_sub, hsg, ← sub_mul, abs_mul, abs_of_pos hpos]
    have near : ∀ y : F64, ∃ t : ℚ, f64Value y = (if s then -1 else 1) * (t * (2 : ℚ) ^ l) ∧
        ((∃ j : ℤ, t = j) ∨ (2 ^ 52 ≤ x ∧ |t| < 2 ^ 52)) := by
      intro y
      refine ⟨(if s then -1 else 1) * (f64Value y / (2 : ℚ) ^ l), ?_, ?_⟩
      · cases s <;> simp [hpos.ne']
      · rcases f64Value_multiple y l with ⟨j, hj⟩ | ⟨h1, h2⟩
        · left
          refine ⟨(if s then -1 else 1) * j, ?_⟩
          rw [hj, mul_div_assoc, div_self hpos.ne', mul_one]
          cases s <;> simp
        · right
          refine ⟨hxge h1, ?_⟩
          rw [hsg, abs_div, abs_of_pos hpos, div_lt_iff₀ hpos]
          exact h2
    refine ⟨v1, fun y _ => ?_, fun y _ hd hne => ?_⟩
    · obtain ⟨t, ht, ht'⟩ := near y
      rw [v2, ht, dist, dist]
      exact mul_le_mul_of_nonneg_right (nearest_of_half hnear ht').1 hpos.le
    · obtain ⟨t, ht, ht'⟩ := near y
      rw [v2, ht, dist, dist] at hd
      have hd' := mul_right_cancel₀ hpos.ne' hd
      have hne' : t ≠ m := by
        rintro rfl
        exact hne (by rw [ht, v2])
      rw [v3]
      exact htie ((nearest_of_half hnear ht').2 hd' hne')
  · have hs : s = false := by
      cases s
      · rfl
      · exfalso
        have : 0 ≤ x * (2 : ℚ) ^ l := by positivity
        rw [if_pos rfl] at h
        linarith
    subst hs
    have := hinf (by simpa using h)
    rw [Nat.min_eq_right this]
  · have hs : s = true := by
      cases s
      · exfalso
        have : 0 ≤ x * (2 : ℚ) ^ l := by positivity
        rw [if_neg (by simp)] at h
        linarith
      · rfl
    subst hs
    have := hinf (by rw [if_pos rfl] at h; linarith)
    rw [Nat.min_eq_right this]

/-- `roundPack` rounds `±n * 2^q` to nearest with ties to even, and to an infinity on overflow (00_scope.md R11). -/
theorem roundPack_isRounded (s : Bool) (n : Nat) (q : ℤ) :
    IsRounded ((if s then -1 else 1) * ((n : ℚ) * (2 : ℚ) ^ q)) (roundPack s n q) := by
  obtain ⟨p, hp0, hbound, -⟩ := overflowBound_eq
  have hob : (0 : ℚ) < overflowBound := by rw [hbound]; linarith
  by_cases hn : n = 0
  · subst hn
    have hv := f64Value_packF64 s (e := 0) (m := 0) (by norm_num) (.inl rfl) (by decide)
    simp only [Nat.add_zero, Nat.cast_zero, zero_mul, mul_zero] at hv
    rw [roundPack, if_pos rfl]
    simp only [Nat.cast_zero, zero_mul, mul_zero]
    refine ⟨fun _ => ⟨hv.1, fun y _ => ?_, fun y _ h hne => ?_⟩, fun h => ?_, fun h => ?_⟩
    · rw [hv.2.1, sub_zero, abs_zero]; exact abs_nonneg _
    · rw [hv.2.1, sub_zero, abs_zero, abs_eq_zero, zero_sub, neg_eq_zero] at h
      exact absurd (h.trans hv.2.1.symm) hne
    · linarith
    · linarith
  have hlog1 : 2 ^ n.log2 ≤ n := Nat.log2_self_le hn
  have hlog2 : n < 2 ^ (n.log2 + 1) := Nat.lt_log2_self
  obtain ⟨l, hl⟩ : ∃ l : ℤ, l = max ((n.log2 : ℤ) + q - 52) (-1074) := ⟨_, rfl⟩
  have hl1 : (n.log2 : ℤ) + q - 52 ≤ l := by omega
  have hl2 : -1074 ≤ l := by omega
  obtain ⟨e, he⟩ : ∃ e : Nat, (e : ℤ) = l + 1074 := ⟨(l + 1074).toNat, by omega⟩
  obtain ⟨x, hx⟩ : ∃ x : ℚ, x = (n : ℚ) * (2 : ℚ) ^ (q - l) := ⟨_, rfl⟩
  obtain ⟨m, hmdef⟩ : ∃ m : Nat, m = rneShift (n * 2 ^ (q - l).toNat) (l - q).toNat := ⟨_, rfl⟩
  have hval : (n : ℚ) * (2 : ℚ) ^ q = x * (2 : ℚ) ^ l := by
    rw [hx, mul_assoc, ← zpow_add₀ (by norm_num)]; congr 2; ring
  have hspec := rneShift_spec (n * 2 ^ (q - l).toNat) (l - q).toNat
  rw [← hmdef] at hspec
  have hxe : ((n * 2 ^ (q - l).toNat : Nat) : ℚ) / 2 ^ (l - q).toNat = x := by
    rw [hx, div_eq_iff (by positivity)]
    push_cast
    rw [mul_assoc, ← zpow_natCast, ← zpow_natCast, ← zpow_add₀ (by norm_num)]
    congr 2; omega
  rw [hxe] at hspec
  obtain ⟨hnear, htie⟩ := hspec
  have hx0 : 0 ≤ x := by rw [hx]; positivity
  have hxlt : x < 2 ^ 53 := by
    have h1 : (n : ℚ) < 2 ^ (n.log2 + 1) := by exact_mod_cast hlog2
    have h2 : (2 : ℚ) ^ (n.log2 + 1) * (2 : ℚ) ^ (q - l) ≤ 2 ^ 53 := by
      rw [← zpow_natCast (2 : ℚ) (n.log2 + 1), ← zpow_add₀ (by norm_num), ← zpow_natCast (2 : ℚ) 53]
      exact zpow_le_zpow_right₀ (by norm_num) (by push_cast; omega)
    rw [hx]
    calc (n : ℚ) * (2 : ℚ) ^ (q - l) < 2 ^ (n.log2 + 1) * (2 : ℚ) ^ (q - l) := by gcongr
      _ ≤ _ := h2
  have hxge : -1074 < l → 2 ^ 52 ≤ x := by
    intro h
    have h1 : (2 : ℚ) ^ n.log2 ≤ n := by exact_mod_cast hlog1
    have h2 : (2 : ℚ) ^ 52 ≤ (2 : ℚ) ^ n.log2 * (2 : ℚ) ^ (q - l) := by
      rw [← zpow_natCast (2 : ℚ) n.log2, ← zpow_add₀ (by norm_num), ← zpow_natCast (2 : ℚ) 52]
      exact zpow_le_zpow_right₀ (by norm_num) (by push_cast; omega)
    rw [hx]
    calc (2 : ℚ) ^ 52 ≤ 2 ^ n.log2 * (2 : ℚ) ^ (q - l) := h2
      _ ≤ _ := by gcongr
  have hpack : roundPack s n q = packF64 s (min (e * 2 ^ 52 + m) infMag) := by
    have he' : (l + 1074).toNat = e := by omega
    rw [roundPack, if_neg hn]
    dsimp only
    rw [← hl, ← hmdef, he']
  rw [hpack, hval]
  exact isRounded_packF64 s he hx0 hxlt hxge hnear htie

end Sys2Proof.Machine
end

