-- ==== Sys2Proof/Laws/Ops.lean ====
section
/-! SUPPORT. What each shared operation can do, said once. -/

namespace Sys2Proof.Machine

/-! ### Issue and completion -/

/-- The issue step of a command (40_command_protocol.md R100): INVALID_DIM, else INVALID_QT, else accepted. -/
theorem issue_eq (i : Instr) (f : State → State) (s : State) :
    issue i f s =
      if i.wellFormed = false then s.setStatus (s.status.clearOutcome.raised .invalidDim)
      else if usesTable i = true ∧ qtHasZero s.qt = true then s.setStatus (s.status.clearOutcome.raised .invalidQt)
      else f (s.setStatus s.status.clearOutcome) := by
  simp only [issue, checkCommand_encode]
  split <;> try split
  all_goals simp_all [raiseError]

/-- While BUSY a compute command takes its completion step. -/
theorem computeStep_busy (i : Instr) (body : State → State) (s : State) (h : s.status.busy = true) :
    computeStep i body s = completeCommand (body s) := by
  simp [computeStep, h]

/-- While idle a compute command takes its issue step. -/
theorem computeStep_idle (i : Instr) (body : State → State) (s : State) (h : s.status.busy = false) :
    computeStep i body s = issue i (acceptCommand (encode i)) s := by
  simp [computeStep, h]

/-- The issue step of a compute command, whichever it is. -/
theorem exec_idle {i : Instr} {s : State} (hc : isCompute i = true) (h : s.status.busy = false) :
    exec i s = .next (issue i (acceptCommand (encode i)) s) := by
  cases i <;> simp [isCompute] at hc <;>
    simp only [exec, execDct, execDctq, execQuant, execPack, computeStep_idle _ _ _ h]

/-- What a compute command leaves in COEF when it completes. -/
def resultCoef (i : Instr) (s : State) : Block F64 :=
  match i with
  | .nop => s.coef
  | .dct vw vh => dct2 (pad s.inBuf vw vh)
  | .dctq vw vh => quantize (dct2 (pad s.inBuf vw vh)) s.qt
  | .quant _ _ => quantize s.coef s.qt
  | .pack _ _ => s.coef
  | .qtdef => s.coef

/-- The valid region of a command. -/
def regionOf : Instr → BitVec 4 × BitVec 4
  | .nop => (0, 0)
  | .dct vw vh => (vw, vh)
  | .dctq vw vh => (vw, vh)
  | .quant vw vh => (vw, vh)
  | .pack vw vh => (vw, vh)
  | .qtdef => (0, 0)

/-- What a compute command leaves in OUT when it completes. -/
def resultOut (i : Instr) (s : State) : Block Byte :=
  writtenBack (resultCoef i s) s.out (regionOf i).1 (regionOf i).2

/-- The completion step of a compute command, whichever it is: only COEF, OUT, BUSY and DONE change. -/
theorem exec_busy {i : Instr} {s : State} (hc : isCompute i = true) (h : s.status.busy = true) :
    exec i s = .next (((s.setCoef (resultCoef i s)).setOut (resultOut i s)).setStatus s.status.completed) := by
  cases i <;> simp [isCompute] at hc <;>
    simp only [exec, execDct, execDctq, execQuant, execPack, computeStep_busy _ _ _ h, bodyDct, bodyDctq, bodyQuant,
      bodyPack, writeBack, completeCommand, resultOut, resultCoef, regionOf, State.coef_setCoef, State.out_setCoef,
      State.setCoef_self, State.status_setOut, State.status_setCoef]

/-- NOP from any state. -/
theorem exec_nop (s : State) : exec .nop s = .next (s.setStatus s.status.clearOutcome.ended) := by
  simp only [exec, execNop, issue_eq]
  rfl

/-- QTDEF from any state. -/
theorem exec_qtdef (s : State) :
    exec .qtdef s = .next ((s.setQt Config.defaultQt).setStatus s.status.clearOutcome.ended) := by
  simp only [exec, execQtdef, issue_eq]
  rfl

/-- Every command has a next state, from every state. -/
theorem exec_next (i : Instr) (s : State) : ∃ t, exec i s = .next t := by
  cases i <;> exact ⟨_, rfl⟩

/-- The issue step of a legal compute command: CUR_CMD, BUSY and the cleared outcome. -/
theorem exec_accepted {i : Instr} {s : State} (hc : isCompute i = true) (h : s.status.busy = false)
    (hw : i.wellFormed = true) (ht : usesTable i = true → ∀ k : Fin 64, s.qt[k] ≠ 0) :
    exec i s = .next (((s.setCurCmd (encode i)).setStatus s.status.clearOutcome.accepted).setEnv s.env.accept) := by
  rw [exec_idle hc h, issue_eq, if_neg (by simp [hw]), if_neg]
  · rfl
  · rintro ⟨hu, hz⟩
    obtain ⟨k, hk⟩ := (qtHasZero_iff _).1 hz
    exact ht hu k hk

/-! ### Writes -/

/-- A write to IN, QT or COEF (20_memory.md R67). -/
theorem guardedWrite_busy (f : State → State) (s : State) (h : s.status.busy = true) :
    guardedWrite f s = s.setStatus s.status.setWerr := by
  simp [guardedWrite, h]

theorem guardedWrite_idle (f : State → State) (s : State) (h : s.status.busy = false) : guardedWrite f s = f s := by
  simp [guardedWrite, h]

/-- What a write outside CMD changes (20_memory.md R61 to R69): a reset; or CTRL, STATUS and at most one buffer, and a
buffer only while idle. LASTCMD, CUR_CMD, OUT and the environment stay. -/
theorem writeRegion_frame (r : Region) (w : Word) (s : State) :
    (r = .ctrl ∧ softResetBit w = true ∧ writeRegion r w s = engineReset s) ∨
    ((writeRegion r w s).out = s.out ∧ (writeRegion r w s).lastCmd = s.lastCmd ∧
      (writeRegion r w s).curCmd = s.curCmd ∧ (writeRegion r w s).env = s.env ∧
      (writeRegion r w s).status.busy = s.status.busy ∧
      (s.status.busy = true → (writeRegion r w s).inBuf = s.inBuf ∧ (writeRegion r w s).qt = s.qt ∧
        (writeRegion r w s).coef = s.coef) ∧
      ((∀ i, r ≠ .inWord i) → (writeRegion r w s).inBuf = s.inBuf) ∧
      ((∀ k, r ≠ .qtWord k) → (writeRegion r w s).qt = s.qt) ∧
      ((∀ k, r ≠ .coefLow k ∧ r ≠ .coefHigh k) → (writeRegion r w s).coef = s.coef)) := by
  cases r
  case ctrl =>
    by_cases h : softResetBit w = true
    · left; exact ⟨rfl, h, by simp [writeRegion, writeCtrl, h]⟩
    · right; simp [writeRegion, writeCtrl, h]
  all_goals right
  all_goals
    cases hb : s.status.busy <;>
      simp [writeRegion, writeStatus, guardedWrite, hb]

/-- What a write outside CMD does to STATUS: nothing, WERR, or the W1C rule; or it is a reset. -/
theorem writeRegion_status (r : Region) (w : Word) (s : State) :
    writeRegion r w s = engineReset s ∨ (writeRegion r w s).status = s.status ∨
    (writeRegion r w s).status = s.status.setWerr ∨ (writeRegion r w s).status = s.status.w1c w := by
  cases r
  case ctrl =>
    by_cases h : softResetBit w = true
    · left; simp [writeRegion, writeCtrl, h]
    · right; left; simp [writeRegion, writeCtrl, h]
  all_goals
    right
    cases hb : s.status.busy <;>
      simp [writeRegion, writeStatus, guardedWrite, hb]

/-! ### The reset pin (70_reset_and_hazards.md R230) -/

/-- The pin goes from 1 to 0. -/
theorem resetPin_fall {s : State} (h : s.env.rstN = true) :
    resetPin false s = (engineReset s).setEnv (s.env.setRst false) := by
  simp [resetPin, h]

/-- The pin goes to 1, or is there. -/
theorem resetPin_rise (s : State) : resetPin true s = s.setEnv (s.env.setRst true) := by
  simp [resetPin]

/-- While the pin is 0, an event changes the environment at most. -/
theorem heldInReset_eq (e : HostEvent) {s : State} (h : s.env.rstN = false) :
    heldInReset e s = s.setEnv (heldInReset e s).env := by
  cases e <;> simp [heldInReset, resetPin, h]

end Sys2Proof.Machine
end

