-- ==== Sys2Proof/Laws/PerInstr.lean ====
section
/-! SUPPORT. What holds of every command as syntax, one lemma per constructor: its word has its opcode in OP and zeros in
both reserved fields. -/

namespace Sys2Proof.Laws.EncodedWord

open Sys2Proof.Machine

/-- The word of a command carries its opcode and no reserved bit (30_encoding.md R81, R83, R84). -/
def Statement (i : Instr) : Prop :=
  opField (encode i) = i.opcode ∧ rsv0Field (encode i) = 0 ∧ rsv1Field (encode i) = 0

theorem nop : Statement .nop :=
  ⟨opField_commandWord _ _ _, rsv0Field_commandWord _ _ _, rsv1Field_commandWord _ _ _⟩

theorem dct (vw vh : BitVec 4) : Statement (.dct vw vh) :=
  ⟨opField_commandWord _ _ _, rsv0Field_commandWord _ _ _, rsv1Field_commandWord _ _ _⟩

theorem dctq (vw vh : BitVec 4) : Statement (.dctq vw vh) :=
  ⟨opField_commandWord _ _ _, rsv0Field_commandWord _ _ _, rsv1Field_commandWord _ _ _⟩

theorem quant (vw vh : BitVec 4) : Statement (.quant vw vh) :=
  ⟨opField_commandWord _ _ _, rsv0Field_commandWord _ _ _, rsv1Field_commandWord _ _ _⟩

theorem pack (vw vh : BitVec 4) : Statement (.pack vw vh) :=
  ⟨opField_commandWord _ _ _, rsv0Field_commandWord _ _ _, rsv1Field_commandWord _ _ _⟩

theorem qtdef : Statement .qtdef :=
  ⟨opField_commandWord _ _ _, rsv0Field_commandWord _ _ _, rsv1Field_commandWord _ _ _⟩

end Sys2Proof.Laws.EncodedWord
end

