-- ==== Sys2Proof/Laws/Step.lean ====
section
/-! SUPPORT. What a step can do: one equation for each kind of step, and the one case analysis that every whole-machine
proof cites instead of unfolding `step`. -/

namespace Sys2Proof.Machine

/-! ### The kinds of step -/

/-- The HOST's turn: the next access is served. -/
theorem nextAction_access {s : State} {e : HostEvent} {rest : List HostEvent} (h : HostTurn s)
    (hh : s.env.host = e :: rest) : nextAction s = serve e rest s := by
  obtain ⟨hr, hb⟩ := h
  unfold nextAction
  rw [if_pos hr, if_neg, hh]
  rintro hc
  simp only [Bool.and_eq_true, beq_iff_eq] at hc
  exact hb hc.1 hc.2

/-- The HOST's turn with nothing to do: an idle cycle. -/
theorem step_idle {s : State} (h : HostTurn s) (hh : s.env.host = []) : step s = .next (s.setEnv s.env.tick) := by
  obtain ⟨hr, hb⟩ := h
  have : nextAction s = .settle (s.setEnv s.env.tick) := by
    unfold nextAction
    rw [if_pos hr, if_neg, hh]
    rintro hc
    simp only [Bool.and_eq_true, beq_iff_eq] at hc
    exact hb hc.1 hc.2
  rw [step, this]; rfl

/-- The ENGINE's turn (40_command_protocol.md R103). -/
theorem step_engine {s : State} (hr : s.env.rstN = true) (hb : s.status.busy = true) (h0 : s.env.remaining = 0) :
    step s = runAction (engineStep s) := by
  have : nextAction s = engineStep s := by simp [nextAction, hr, hb, h0]
  rw [step, this]

/-- A read (20_memory.md R68). -/
theorem step_read {s : State} {off : Offset} {rest : List HostEvent} (h : HostTurn s)
    (hh : s.env.host = .read off :: rest) : step s = .next (readTransaction off (taken rest s)) := by
  rw [step, nextAction_access h hh]; rfl

/-- A write that is no CMD write. -/
theorem step_write {s : State} {off : Offset} {w : Word} {rest : List HostEvent} (h : HostTurn s)
    (hh : s.env.host = .write off w :: rest) (hr : region off ≠ .cmd) :
    step s = .next (writeRegion (region off) w (taken rest s)) := by
  have : serve (.write off w) rest s = .settle (writeRegion (region off) w (taken rest s)) := by
    simp only [serve, writeTransaction]
    cases hc : region off <;> rfl
  rw [step, nextAction_access h hh, this]; rfl

/-- A CMD write (40_command_protocol.md R100, R102). -/
theorem step_cmdWrite {s : State} {off : Offset} {w : Word} {rest : List HostEvent} (h : HostTurn s)
    (hh : s.env.host = .write off w :: rest) (hr : region off = .cmd) :
    step s = runAction (cmdWrite w (taken rest s)) := by
  have : serve (.write off w) rest s = cmdWrite w (taken rest s) := by
    simp only [serve, writeTransaction, hr]; rfl
  rw [step, nextAction_access h hh, this]

/-- A poll of STATUS by a host that waits (30_encoding.md R89). -/
theorem step_wait {s : State} {rest : List HostEvent} (h : HostTurn s) (hh : s.env.host = .wait :: rest) :
    step s = .next (if s.status.busy then s.setEnv s.env.tick else taken rest s) := by
  rw [step, nextAction_access h hh]; rfl

/-- The reset pin changes (70_reset_and_hazards.md R230). -/
theorem step_rst {s : State} {level : Bool} {rest : List HostEvent} (h : HostTurn s)
    (hh : s.env.host = .rst level :: rest) : step s = .next (resetPin level (taken rest s)) := by
  rw [step, nextAction_access h hh]; rfl

/-- In reset with nothing to come, the machine stays as it is. -/
theorem step_held_nil {s : State} (hr : s.env.rstN = false) (hh : s.env.host = []) : step s = .next s := by
  simp [step, nextAction, runAction, hr, hh]

/-- In reset, an event is served by no one (70_reset_and_hazards.md R230). -/
theorem step_held {s : State} {e : HostEvent} {rest : List HostEvent} (hr : s.env.rstN = false)
    (hh : s.env.host = e :: rest) : step s = .next (heldInReset e (s.setEnv (s.env.setHost rest))) := by
  simp [step, nextAction, runAction, hr, hh]

/-! ### The case analysis -/

/-- Everything a step that answers a next state can be. -/
theorem step_cases {s t : State} (h : step s = .next t) :
    (s.env.rstN = false ∧ (t = s ∨ ∃ e rest, s.env.host = e :: rest ∧
      t = heldInReset e (s.setEnv (s.env.setHost rest)))) ∨
    (s.env.rstN = true ∧ s.status.busy = true ∧ s.env.remaining = 0 ∧
      ∃ i, decode s.curCmd = .ok i ∧ isCompute i = true ∧ exec i s = .next t) ∨
    (HostTurn s ∧ s.env.host = [] ∧ t = s.setEnv s.env.tick) ∨
    (HostTurn s ∧ ∃ off rest, s.env.host = .read off :: rest ∧ t = readTransaction off (taken rest s)) ∨
    (HostTurn s ∧ ∃ off w rest, s.env.host = .write off w :: rest ∧ region off ≠ .cmd ∧
      t = writeRegion (region off) w (taken rest s)) ∨
    (HostTurn s ∧ ∃ off w rest, s.env.host = .write off w :: rest ∧ region off = .cmd ∧
      ((s.status.busy = true ∧ t = (taken rest s).setStatus s.status.setOvr) ∨
       (s.status.busy = false ∧ (∃ i, decode w = .ok i ∧ exec i ((taken rest s).setLastCmd w) = .next t)) ∨
       (s.status.busy = false ∧ (∃ e, decode w = .error e) ∧
        t = ((taken rest s).setLastCmd w).setStatus (s.status.clearOutcome.raised .illegalCmd)))) ∨
    (HostTurn s ∧ ∃ rest, s.env.host = .wait :: rest ∧
      t = if s.status.busy then s.setEnv s.env.tick else taken rest s) ∨
    (HostTurn s ∧ ∃ level rest, s.env.host = .rst level :: rest ∧ t = resetPin level (taken rest s)) := by
  cases hr : s.env.rstN
  · left
    refine ⟨rfl, ?_⟩
    cases hh : s.env.host with
    | nil => left; rw [step_held_nil hr hh] at h; cases h; rfl
    | cons e rest => right; rw [step_held hr hh] at h; cases h; exact ⟨e, rest, rfl, rfl⟩
  right
  by_cases hd : s.status.busy = true ∧ s.env.remaining = 0
  · left
    refine ⟨rfl, hd.1, hd.2, ?_⟩
    rw [step_engine hr hd.1 hd.2] at h
    unfold engineStep at h
    cases hc : decode s.curCmd with
    | error e => rw [hc] at h; cases h
    | ok i =>
      rw [hc] at h
      cases hi : isCompute i
      · simp [hi, runAction] at h
      · simp only [hi, runAction, if_true] at h
        exact ⟨i, rfl, hi, h⟩
  right
  have ht : HostTurn s := ⟨hr, fun hb h0 => hd ⟨hb, h0⟩⟩
  cases hh : s.env.host with
  | nil => left; rw [step_idle ht hh] at h; cases h; exact ⟨ht, rfl, rfl⟩
  | cons e rest =>
    right
    cases e with
    | read off => left; rw [step_read ht hh] at h; cases h; exact ⟨ht, off, rest, rfl, rfl⟩
    | write off w =>
      right
      by_cases hreg : region off = .cmd
      · right; left
        refine ⟨ht, off, w, rest, rfl, hreg, ?_⟩
        rw [step_cmdWrite ht hh hreg] at h
        unfold cmdWrite at h
        cases hb : s.status.busy
        · right
          have hb' : (taken rest s).status.busy = false := hb
          rw [if_neg (by simp [hb'])] at h
          cases hdec : decode w with
          | ok i => left; rw [hdec] at h; exact ⟨rfl, i, rfl, h⟩
          | error e => right; rw [hdec] at h; cases h; exact ⟨rfl, ⟨e, rfl⟩, rfl⟩
        · left
          have hb' : (taken rest s).status.busy = true := hb
          rw [if_pos hb'] at h
          cases h; exact ⟨rfl, rfl⟩
      · left; rw [step_write ht hh hreg] at h; cases h; exact ⟨ht, off, w, rest, rfl, hreg, rfl⟩
    | wait => right; right; right; left; rw [step_wait ht hh] at h; cases h; exact ⟨ht, rest, rfl, rfl⟩
    | rst level => right; right; right; right; rw [step_rst ht hh] at h; cases h; exact ⟨ht, level, rest, rfl, rfl⟩

/-! ### Fields of the states a step passes through -/

@[simp] theorem inBuf_taken (rest : List HostEvent) (s : State) : (taken rest s).inBuf = s.inBuf := rfl
@[simp] theorem qt_taken (rest : List HostEvent) (s : State) : (taken rest s).qt = s.qt := rfl
@[simp] theorem coef_taken (rest : List HostEvent) (s : State) : (taken rest s).coef = s.coef := rfl
@[simp] theorem out_taken (rest : List HostEvent) (s : State) : (taken rest s).out = s.out := rfl
@[simp] theorem ctrl_taken (rest : List HostEvent) (s : State) : (taken rest s).ctrl = s.ctrl := rfl
@[simp] theorem lastCmd_taken (rest : List HostEvent) (s : State) : (taken rest s).lastCmd = s.lastCmd := rfl
@[simp] theorem status_taken (rest : List HostEvent) (s : State) : (taken rest s).status = s.status := rfl
@[simp] theorem curCmd_taken (rest : List HostEvent) (s : State) : (taken rest s).curCmd = s.curCmd := rfl
@[simp] theorem env_taken (rest : List HostEvent) (s : State) : (taken rest s).env = s.env.tick.setHost rest := rfl

/-- A read leaves the engine as it is (20_memory.md R68, R69). -/
theorem sameEngine_readTransaction (off : Offset) (s : State) : SameEngine s (readTransaction off s) := rfl

/-- A run of `n + m` steps is a run of `n` and a run of `m`. -/
theorem runs_trans {n m : Nat} {s t u : State} (h1 : Runs n s t) (h2 : Runs m t u) : Runs (n + m) s u := by
  induction n generalizing s with
  | zero => cases h1; simpa using h2
  | succ n ih =>
    obtain ⟨v, hv, hr⟩ := h1
    rw [Nat.add_right_comm]
    exact ⟨v, hv, ih hr⟩

/-- An invariant that every step keeps holds at the end of every run. -/
theorem runs_keep {P : State → Prop} (hstep : ∀ s t, P s → step s = .next t → P t) {n : Nat} {s t : State}
    (hs : P s) (h : Runs n s t) : P t := by
  induction n generalizing s with
  | zero => cases h; exact hs
  | succ n ih =>
    obtain ⟨u, hu, hr⟩ := h
    exact ih (hstep s u hs hu) hr

end Sys2Proof.Machine
end

