-- ==== Sys2Proof/Laws/Tiling.lean ====
section
/-! SUPPORT. How the driver of `Process` runs the engine: one step of it, and its wait for the command in flight. -/

namespace Sys2Proof.Machine

/-- One step of a run that is not over. -/
theorem runQuiet_step {s t : State} (h : step s = .next t) (hq : isQuiet s = false) (n : Nat) :
    runQuiet (n + 1) s = runQuiet n t := by
  rw [runQuiet, if_neg (by simp [hq]), h]

/-- A waiting host polls until the completion is due, and nothing else changes (30_encoding.md R89). -/
theorem runQuiet_wait (n : Nat) {s : State} {rest : List HostEvent} (hr : s.env.rstN = true)
    (hb : s.status.busy = true) (hh : s.env.host = .wait :: rest) (k : Nat) (hn : s.env.remaining = n) :
    runQuiet (k + n) s = runQuiet k (s.setEnv { s.env with remaining := 0 }) := by
  induction n generalizing s with
  | zero =>
    have : s.setEnv { s.env with remaining := 0 } = s := by
      show { s with env := { s.env with remaining := 0 } } = s
      rw [← hn]
    rw [this]; rfl
  | succ n ih =>
    rw [← Nat.add_assoc, runQuiet_step (step_wait ⟨hr, fun _ => by omega⟩ hh) (by simp [isQuiet, hh]), if_pos hb,
      ih (s := s.setEnv s.env.tick) (by simpa using hr) (by simpa using hb) (by simpa using hh) (by simp [Env.tick, hn])]
    rfl

end Sys2Proof.Machine
end

