-- ==== Sys2Proof/Tests/Slice0.lean ====
section
/-! SUPPORT. Small tests, their expected values from spec/95_test_vectors.md or by hand from the rules named, and for every
statement with hypotheses a concrete case that meets them all. -/

namespace Sys2Proof.Tests

open Sys2Proof Sys2Proof.Machine

/-! ### Helpers -/

/-- What `f` sees in the next state, if there is one. -/
def seen {α : Type} (o : Host.Outcome State Fault Refusal) (f : State → α) : Option α :=
  match o with
  | .next t => some (f t)
  | .fault _ => none
  | .refused _ => none

/-- Reset, with these accesses to come. -/
def idle (es : List HostEvent) : State := State.reset.setEnv (Env.reset.setHost es)

/-- As after reset, with the command `w` in flight, `n` steps left, and these accesses to come. -/
def busy (w : Word) (n : Nat) (es : List HostEvent) : State :=
  (((State.reset.setLastCmd w).setCurCmd w).setStatus { Status.reset with busy := true }).setEnv
    { Env.reset with host := es, remaining := n }

/-- A block with entry 0 replaced. -/
def first {α : Type} (b : Block α) (a : α) : Block α := b.set 0 a

/-- The STATUS word after one step. -/
def statusAfter (s : State) : Option Word := seen (step s) fun t => t.status.word

/-! ### Decoding: words written bit by bit from 30_encoding.md R81 (RSV1, VH, VW, RSV0, OP), cases of vector V-ENC -/

theorem test_decode_nop : decode 0b0000000000000000_0000_0000_0000_0000 = .ok .nop := by decide
theorem test_decode_nop_ignores_dims : decode 0b0000000000000000_1111_1111_0000_0000 = .ok .nop := by decide
theorem test_decode_dct : decode 0b0000000000000000_0010_1000_0000_0001 = .ok (.dct 8 2) := by decide
theorem test_decode_dctq : decode 0b0000000000000000_1000_0010_0000_0010 = .ok (.dctq 2 8) := by decide
theorem test_decode_quant : decode 0b0000000000000000_1000_1000_0000_0011 = .ok (.quant 8 8) := by decide
theorem test_decode_pack : decode 0b0000000000000000_0001_0010_0000_0100 = .ok (.pack 2 1) := by decide
theorem test_decode_qtdef : decode 0b0000000000000000_1111_1111_0000_0101 = .ok .qtdef := by decide
theorem test_decode_bad_dims : decode 0b0000000000000000_0000_0000_0000_0001 = .ok (.dct 0 0) := by decide
theorem test_decode_rsv0 : decode 0x00008811 = .error .reservedBits := by decide
theorem test_decode_rsv1 : decode 0x00010801 = .error .reservedBits := by decide
theorem test_decode_op6 : decode 0x00000006 = .error .reservedOpcode := by decide
theorem test_decode_op15 : decode 0x0000000F = .error .reservedOpcode := by decide
theorem test_decode_table_word : decodeTableWord 32 0x00001204 = some (.pack 2 1) := by decide

/-! ### Well-formedness: one ill-formed term for each check (30_encoding.md R82, R87) -/

theorem test_wellFormed_vw_zero : (Instr.dct 0 8).wellFormed = false := by decide
theorem test_wellFormed_vw_nine : (Instr.dctq 9 1).wellFormed = false := by decide
theorem test_wellFormed_vh_zero : (Instr.quant 1 0).wellFormed = false := by decide
theorem test_wellFormed_vh_nine : (Instr.pack 8 9).wellFormed = false := by decide
theorem test_wellFormed_limits : (Instr.dct 1 8).wellFormed = true ∧ (Instr.pack 8 1).wellFormed = true := by decide

/-! ### The commands -/

/-- Vector DCT-1. -/
theorem test_dct_constant_dc :
    seen (exec (.dct 8 8) ((busy 0x8801 0 []).setIn (Vector.replicate 64 255))) (fun t => (t.coef[0], t.out[0], t.status.word))
      = some (0x409FE00000000001, 255, 0x00000002) := by decide +kernel

/-- Vector DCT-5: the entries 0xAA lie outside the valid region. -/
theorem test_dct_one_sample :
    seen (exec (.dct 1 1) ((busy 0x1101 0 []).setIn (first (Vector.replicate 64 0xAA) 200)))
      (fun t => (t.coef[0], t.out[0], t.out[1])) = some (0x4039000000000001, 25, 0) := by decide +kernel

/-- Vector DCTQ-1. -/
theorem test_dctq_constant :
    seen (exec (.dctq 8 8) ((busy 0x8802 0 []).setIn (Vector.replicate 64 255)))
      (fun t => (t.coef[0], t.coef[7], t.coef[1], t.out[0]))
      = some (0x4060000000000000, 0x8000000000000000, 0, 128) := by decide +kernel

/-- Vector DCTQ-4, the ramp of S8. -/
theorem test_dctq_ramp :
    seen (exec (.dctq 8 8) ((busy 0x8802 0 []).setIn (Vector.ofFn fun k => BitVec.ofNat 8 (32 * (k.val % 8)))))
      (fun t => (t.coef[0], t.coef[1], t.coef[3])) = some (0x404C000000000000, 0xC04A800000000000, 0xC010000000000000) := by
  decide +kernel

/-- Vector V-QUANT: a lane that is a half, and −0.3. -/
theorem test_quant_lanes :
    seen (exec (.quant 1 1) ((busy 0x1103 0 []).setCoef
      ((Vector.replicate 64 0xBFD3333333333333).set 0 0x405FE00000000000 |>.set 63 0x40A8CE0000000000)))
      (fun t => (t.coef[0], t.coef[1], t.coef[63], t.out[0]))
      = some (0x4020000000000000, 0x8000000000000000, 0x4040000000000000, 8) := by decide +kernel

/-- Vector V-QUANT, every row: c, q, COEF after. -/
theorem test_quant1_rows : ([
    (0x4059000000000000, 16, 0x4018000000000000), (0x4020000000000000, 16, 0x3FF0000000000000),
    (0xC020000000000000, 16, 0xBFF0000000000000), (0x4038000000000000, 16, 0x4000000000000000),
    (0xC038000000000000, 16, 0xC000000000000000), (0x3FD3333333333333, 16, 0x0000000000000000),
    (0xBFD3333333333333, 16, 0x8000000000000000), (0x409FE00000000000, 16, 0x4060000000000000),
    (0x4060000000000000, 16, 0x4020000000000000), (0x401C000000000000, 16, 0x0000000000000000),
    (0x3FF0000000000000, 65535, 0x0000000000000000), (0x405FE00000000000, 1, 0x4060000000000000),
    (0xC05FE00000000000, 1, 0xC060000000000000), (0x4004000000000000, 1, 0x4008000000000000),
    (0x7E37E43C8800759C, 1, 0x7E37E43C8800759C), (0x7FF0000000000000, 3, 0x7FF0000000000000),
    (0xFFF0000000000000, 3, 0xFFF0000000000000), (0x7FF8000000000000, 5, 0x7FF8000000000000),
    (0x0000000000000000, 7, 0x0000000000000000), (0x8000000000000000, 7, 0x8000000000000000),
    (0x0000000000000001, 1, 0x0000000000000000)] : List (F64 × Divisor × F64)).all
      (fun r => quant1 r.1 r.2.1 == r.2.2) = true := by decide +kernel

/-- Vector V-PACK, every row: z, OUT. -/
theorem test_wb8_rows : ([
    (0xC014000000000000, 0), (0x8000000000000000, 0), (0x0000000000000001, 0), (0x3FDFFFFFFFFFFFFF, 0),
    (0x3FE0000000000000, 1), (0x3FF8000000000000, 2), (0x4004000000000000, 3), (0x405FE00000000000, 128),
    (0x406FCFFFFFFFFFFF, 254), (0x406FD00000000000, 255), (0x406FECCCCCCCCCCD, 255), (0x406FF00000000000, 255),
    (0x7E37E43C8800759C, 255), (0x7FF0000000000000, 255), (0xFFF0000000000000, 0), (0x7FF8000000000000, 0)] :
      List (F64 × Byte)).all (fun r => wb8 r.1 == r.2) = true := by decide +kernel

/-- Vector V-PACK, masking, read through the window. -/
theorem test_pack_masks :
    seen (exec (.pack 2 1) (((busy 0x1204 0 []).setOut (Vector.replicate 64 0x11)).setCoef
      ((Vector.replicate 64 0).set 0 0xC014000000000000 |>.set 1 0x406FD00000000000)))
      (fun t => (readRegion (region 0x600) t, readRegion (region 0x604) t)) = some (0x1111FF00, 0x11111111) := by
  decide +kernel

/-- Vector CTRL-2: NOP acknowledges an error. -/
theorem test_nop_clears_error :
    statusAfter ((idle [.write 0x008 0]).setStatus { Status.reset with done := true, err := true, errCode := 3 })
      = some 0x00000002 := by decide +kernel

/-- Vector CTRL-4. -/
theorem test_qtdef :
    seen (step ((idle [.write 0x008 0x0000FF05]).setQt (Vector.replicate 64 0)))
      (fun t => (t.qt[0], t.qt[63], t.status.word)) = some (16, 99, 0x00000002) := by decide +kernel

/-! ### Errors, the bus and reset -/

/-- Vector V-ERR: QT[0] = 0 and one CMD write; the word, STATUS after. -/
theorem test_errors_at_issue : ([
    (0x00000006, 0x16), (0x0000000F, 0x16), (0x00010801, 0x16), (0x00008811, 0x16), (0x0000F0F0, 0x16),
    (0x00000001, 0x26), (0x00009801, 0x26), (0x00008001, 0x26), (0x00000004, 0x26), (0x00008904, 0x26),
    (0x00000802, 0x26), (0x00008802, 0x36), (0x00008803, 0x36), (0x00008801, 0x01), (0x00008804, 0x01),
    (0x00000000, 0x02)] : List (Word × Word)).all
      (fun r => statusAfter ((idle [.write 0x008 r.1]).setQt (first Config.defaultQt 0)) == some r.2) = true := by
  decide +kernel

/-- Vectors BUS-6 to BUS-10: one step each. -/
theorem test_status_while_busy :
    statusAfter (busy 0x8801 1 [.write 0x100 0x12345678]) = some 0x00000101 ∧
    statusAfter ((busy 0x8801 1 [.write 0x008 0x8802]).setStatus { Status.reset with busy := true, werr := true })
      = some 0x00000301 ∧
    statusAfter ((busy 0x8801 1 [.write 0x00C 2]).setStatus { Status.reset with busy := true, werr := true, ovr := true })
      = some 0x00000301 ∧
    statusAfter ((busy 0x8801 0 []).setStatus { Status.reset with busy := true, werr := true, ovr := true })
      = some 0x00000302 ∧
    statusAfter ((idle [.write 0x00C 0x302]).setStatus { Status.reset with done := true, werr := true, ovr := true })
      = some 0 := by decide +kernel

/-- Vectors BUS-1, BUS-2 and the reset reads of RST-1. -/
theorem test_reads_after_reset :
    ([(0x000, 0x0DC70801), (0x010, 0), (0x140, 0), (0x640, 0), (0xFFC, 0), (0x004, 0), (0x008, 0), (0x00C, 0),
      (0x200, 16), (0x2FC, 99), (0x400, 0), (0x600, 0)] : List (Offset × Word)).all
      (fun r => seen (step (idle [.read r.1])) (fun t => t.env.reads) == some [r.2]) = true := by decide +kernel

/-- Vector BUS-4: `addr[1:0]` is ignored and bits 31:16 are dropped. -/
theorem test_qt_write :
    seen (step (idle [.write 0x202 0xABCD1234])) (fun t => readRegion (region 0x200) t) = some 0x00001234 := by
  decide +kernel

/-- Vector BUS-5. -/
theorem test_in_write :
    seen (step (idle [.write 0x100 0x04030201])) (fun t => (t.inBuf[0], t.inBuf[1], t.inBuf[2], t.inBuf[3], t.inBuf[4]))
      = some (1, 2, 3, 4, 0) := by decide +kernel

/-- 20_memory.md R65: the high word of COEF[63]. -/
theorem test_coef_write :
    seen (step (idle [.write 0x5FC 0x40590000])) (fun t => (t.coef[63], t.coef[62])) = some (0x4059000000000000, 0) := by
  decide +kernel

/-- Vector BUS-15: an error asserts the line through IE_DONE. -/
theorem test_irq_on_error :
    seen (step ((idle [.write 0x008 0x00000007]).setCtrl { ieDone := true, ieErr := false }))
      (fun t => (t.status.word, irq t)) = some (0x00000016, true) := by decide +kernel

/-- Vector RST-2: a soft reset ends the command in flight and stores no enable. -/
theorem test_soft_reset :
    seen (step ((busy 0x8801 1 [.write 0x004 0x80000003]).setCtrl { ieDone := true, ieErr := true }))
      (fun t => decide (t.setEnv Env.reset = State.reset)) = some true := by decide +kernel

/-- A word placed by the host's hook is the command of the next step (log 20). -/
theorem test_withFetchWord :
    seen (step (State.reset.withFetchWord 32 0x00008801)) (fun t => (t.status.word, t.curCmd))
      = some (0x00000001, 0x00008801) := by decide +kernel

/-! ### Assembler and tiling -/

/-- V-ENC: spelling in either case, and the refused `DCT 0, 8` and `DCT 9, 1`. -/
theorem test_assembler :
    assembleText "dctq 2, 8".toList = some 0x00008202 ∧ assembleText "PACK".toList = some 0x00008804 ∧
    assembleText ".word 0x00010801".toList = some 0x00010801 ∧ assembleText "DCT 0, 8".toList = none ∧
    assembleText "DCT 9, 1".toList = none := by decide +kernel

/-- P3: a 10 by 10 image has four blocks, the corner one 2 by 2. -/
theorem test_block_origins :
    blockOrigins 10 10 = [(0, 0), (8, 0), (0, 8), (8, 8)] ∧ validExtent 10 8 = 2 ∧ validExtent 10 0 = 8 := by decide

/-! ### Witnesses: for every statement with hypotheses, a state and operands that meet them, clause by clause -/

/-- The table after reset holds no 0 (10_state.md R34). -/
theorem defaultQt_ne_zero : ∀ k : Fin 64, Config.defaultQt[k] ≠ 0 := by decide +kernel

/-- A compute word, and a NOP word whose VW and VH are not 0. -/
theorem witness_EncodeOfDecode :
    (decode 0x00002801 = .ok (.dct 8 2) ∧ isCompute (.dct 8 2) = true) ∧
    decode 0x0000FF00 = .ok .nop ∧ isCompute .nop = false := by decide

/-- A legal word, and the first and last opcode of the table. -/
theorem witness_CommandsMatchTheirMask :
    decode 0x00008804 = .ok (.pack 8 8) ∧ (0 : BitVec 4).toNat < 6 ∧ (5 : BitVec 4).toNat < 6 := by decide

theorem witness_StepIssuesDecodedCommand :
    let s := idle [.write 0x00B 0x00008801]
    s.env.rstN = true ∧ s.status.busy = false ∧ s.env.host = .write 0x00B 0x00008801 :: [] ∧ wordOffset 0x00B = 0x008 ∧
      decode 0x00008801 = .ok (.dct 8 8) := by decide

/-- The clause on reads of CMD, idle and BUSY. -/
theorem witness_StepIssuesDecodedCommand_read :
    wordOffset 0x00B = 0x008 ∧ (HostTurn (idle [.read 0x00B]) ∧ (idle [.read 0x00B]).env.host = .read 0x00B :: []) ∧
    HostTurn (busy 0x00008801 1 [.read 0x00B]) := by
  refine ⟨by decide, ⟨⟨rfl, ?_⟩, rfl⟩, rfl, fun _ => by decide⟩
  intro h; cases h

theorem witness_StepCompletesCommandInFlight :
    let s := busy 0x00001101 0 [.wait]
    s.env.rstN = true ∧ s.status.busy = true ∧ s.env.remaining = 0 ∧ decode s.curCmd = .ok (.dct 1 1) ∧
      isCompute (.dct 1 1) = true := by decide

theorem witness_CmdWriteWhileBusyIsDropped :
    let s := busy 0x00008801 1 [.write 0x008 0x00008802]
    HostTurn s ∧ s.status.busy = true ∧ s.env.host = .write 0x008 0x00008802 :: [] ∧ wordOffset 0x008 = 0x008 := by
  refine ⟨⟨rfl, fun _ => by decide⟩, rfl, rfl, by decide⟩

/-- The least failing value of each disjunct: bit 16, bit 4, OP 6; and the largest OP. -/
theorem witness_IllegalWordRaisesIllegalCmd :
    let s := idle [.write 0x008 0x00010000]
    s.env.rstN = true ∧ s.status.busy = false ∧ s.env.host = .write 0x008 0x00010000 :: [] ∧ wordOffset 0x008 = 0x008 ∧
      (0x00010000 : Word).extractLsb' 16 16 ≠ 0 ∧ (0x00000010 : Word).extractLsb' 4 4 ≠ 0 ∧
      0x6 ≤ ((0x00000006 : Word).extractLsb' 0 4).toNat ∧ 0x6 ≤ ((0x0000000F : Word).extractLsb' 0 4).toNat := by decide

/-- Each disjunct at its boundaries, the other extent legal. -/
theorem witness_BadDimensionsRaiseInvalidDim :
    (idle []).status.busy = false ∧
    ∀ d ∈ [((0 : BitVec 4), (1 : BitVec 4)), (9, 8), (1, 0), (8, 9), (15, 15)],
      (d.1 = 0 ∨ 9 ≤ d.1.toNat ∨ d.2 = 0 ∨ 9 ≤ d.2.toNat) ∧ Instr.quant d.1 d.2 ∈
        [Instr.dct d.1 d.2, .dctq d.1 d.2, .quant d.1 d.2, .pack d.1 d.2] := by decide +kernel

/-- Entry 63 is 0 (first clause); the table after reset (second clause); two tables that differ (third clause). -/
theorem witness_ZeroDivisorRaisesInvalidQt :
    (let s := (idle []).setQt (Config.defaultQt.set 63 0)
     s.status.busy = false ∧ 1 ≤ (1 : BitVec 4).toNat ∧ (8 : BitVec 4).toNat ≤ 8 ∧ ∃ k : Fin 64, s.qt[k] = 0) ∧
    ((idle []).status.busy = false ∧ ∀ k : Fin 64, (idle []).qt[k] ≠ 0) ∧
    (∃ t t', exec (.pack 1 8) (idle []) = .next t ∧
      exec (.pack 1 8) ((idle []).setQt (Vector.replicate 64 0)) = .next t') := by
  refine ⟨⟨rfl, by decide, by decide, 63, by decide⟩, ⟨rfl, defaultQt_ne_zero⟩, _, _, rfl, rfl⟩

theorem witness_ErrorsArePrecise :
    ∃ t, step (idle [.write 0x008 0x00000001]) = .next t ∧ (idle [.write 0x008 0x00000001]).status.err = false ∧
      t.status.err = true := ⟨_, rfl, rfl, by decide +kernel⟩

theorem witness_LegalComputeCommandIsAccepted :
    (idle []).status.busy = false ∧ isCompute (.dctq 8 1) = true ∧ (Instr.dctq 8 1).wellFormed = true ∧
      (usesTable (.dctq 8 1) = true ∧ ∀ k : Fin 64, (idle []).qt[k] ≠ 0) :=
  ⟨rfl, rfl, rfl, rfl, defaultQt_ne_zero⟩

/-- After QTDEF, idle, a command runs. -/
theorem witness_QtdefRestoresTable :
    ∃ t u, exec .qtdef (idle []) = .next t ∧ t.status.busy = false ∧ exec (.quant 8 8) t = .next u :=
  ⟨_, _, rfl, rfl, rfl⟩

/-- For the four completion statements: BUSY is 1. -/
theorem witness_completions : (busy 0x00008801 0 []).status.busy = true := rfl

/-- The window word 0x100 in every case; 0x200 for a command but QTDEF; 0x400 for PACK; 0x600 while idle. -/
theorem witness_CommandsLeaveOtherWordsAlone :
    (∃ t, exec (.pack 8 8) (busy 0x00008804 0 []) = .next t) ∧ (∃ t, exec .nop (idle []) = .next t) ∧
    (∀ off ∈ [(0x100 : Offset), 0x200, 0x2FC, 0x400, 0x5FC, 0x640], wordOffset off ≠ 0x00C ∧
      (0x200 ≤ wordOffset off → wordOffset off ≤ 0x2FF → Instr.pack 8 8 ≠ .qtdef) ∧
      (0x600 ≤ wordOffset off → wordOffset off ≤ 0x63F → False)) ∧
    (0x600 ≤ wordOffset 0x63C ∧ wordOffset 0x63C ≤ 0x63F ∧ (idle []).status.busy = false) := by
  refine ⟨⟨_, rfl⟩, ⟨_, rfl⟩, by simp [wordOffset_eq], by simp [wordOffset_eq], by simp [wordOffset_eq], rfl⟩

/-- A PACK that changes OUT, and a reset that does. -/
theorem witness_OutChangesOnlyAtCompletionOrReset :
    (∃ t, step ((busy 0x00001104 0 []).setCoef (Vector.replicate 64 0x4059000000000000)) = .next t ∧
      t.out ≠ (busy 0x00001104 0 []).out) ∧
    (∃ t, step ((idle [.rst false]).setOut (Vector.replicate 64 1)) = .next t ∧ t.out ≠ Vector.replicate 64 1) :=
  ⟨⟨_, rfl, by decide +kernel⟩, _, rfl, by decide +kernel⟩

/-- An IN write, a QT write, a QTDEF, a COEF write and a completion that change their buffer. -/
theorem witness_OperandBuffersChangeOnlyWhileIdle :
    (∃ t, step (idle [.write 0x13C 1]) = .next t ∧ t.inBuf ≠ (idle []).inBuf) ∧
    (∃ t, step (idle [.write 0x2FC 1]) = .next t ∧ t.qt ≠ (idle []).qt) ∧
    (∃ t, step ((idle [.write 0x008 5]).setQt (Vector.replicate 64 0)) = .next t ∧ t.qt ≠ Vector.replicate 64 0) ∧
    (∃ t, step (idle [.write 0x5FC 1]) = .next t ∧ t.coef ≠ (idle []).coef) ∧
    (∃ t, step ((busy 0x00001103 0 []).setCoef (Vector.replicate 64 0x4059000000000000)) = .next t ∧
      t.coef ≠ Vector.replicate 64 0x4059000000000000) :=
  ⟨⟨_, rfl, by decide +kernel⟩, ⟨_, rfl, by decide +kernel⟩, ⟨_, rfl, by decide +kernel⟩, ⟨_, rfl, by decide +kernel⟩,
    _, rfl, by decide +kernel⟩

theorem witness_OperandsAreStableWhileBusy :
    ∃ t, step (busy 0x00008801 1 [.write 0x100 7]) = .next t ∧ (busy 0x00008801 1 [.write 0x100 7]).status.busy = true ∧
      t.status.busy = true := ⟨_, rfl, rfl, by decide +kernel⟩

/-- The invariant holds with a command in flight, with an error shown, and in reset. -/
theorem witness_StepKeepsInvariant :
    (Inv (busy 0x00008802 0 [.wait]) ∧ ∃ t, step (busy 0x00008802 0 [.wait]) = .next t) ∧
    Inv ((idle []).setStatus { Status.reset with done := true, err := true, errCode := 3 }) ∧
    Inv (State.reset.setEnv (Env.reset.setRst false)) := by
  refine ⟨⟨⟨rfl, fun _ => ⟨rfl, rfl⟩, fun _ => ⟨.dctq 8 8, by decide, rfl, rfl, fun _ => defaultQt_ne_zero⟩, fun _ => rfl, ?_⟩,
    _, rfl⟩, ⟨by decide, ?_, ?_, ?_, ?_⟩, ⟨rfl, ?_, ?_, ?_, fun _ => rfl⟩⟩
  all_goals
    intro h; cases h

theorem witness_InvariantStatesDoNotStop : Inv (idle [.write 0x008 0x00008801]) := by
  refine ⟨rfl, ?_, ?_, ?_, ?_⟩ <;> (intro h; cases h)

theorem witness_ReachableStatesAreSafe : Reachable (idle [.read 0x00C]) := ⟨0, _, rfl⟩

theorem witness_CommandInFlightCompletes :
    let s := busy 0x00008803 2 [.write 0x004 3, .read 0x400]
    s.env.rstN = true ∧ s.status.busy = true ∧ decode s.curCmd = .ok (.quant 8 8) ∧ isCompute (.quant 8 8) = true ∧
      ∀ e ∈ s.env.host, ¬ HostEventResets e := by
  refine ⟨rfl, rfl, by decide, rfl, ?_⟩
  intro e he
  rcases List.mem_cons.1 he with rfl | he
  · rintro ⟨-, h⟩; revert h; decide
  · rcases List.mem_singleton.1 he with rfl; exact id

theorem witness_IssuedCommandLeavesItsResult :
    let s := idle [.write 0x008 0x00008802, .wait]
    s.env.rstN = true ∧ s.status.busy = false ∧ s.env.host = .write 0x008 0x00008802 :: [.wait] ∧
      wordOffset 0x008 = 0x008 ∧ decode 0x00008802 = .ok (.dctq 8 8) ∧ isCompute (.dctq 8 8) = true ∧
      (Instr.dctq 8 8).wellFormed = true ∧ (usesTable (.dctq 8 8) = true ∧ ∀ k : Fin 64, s.qt[k] ≠ 0) ∧
      ∀ e ∈ [HostEvent.wait], ¬ HostEventResets e := by
  refine ⟨rfl, rfl, rfl, by decide, by decide, rfl, rfl, ⟨rfl, defaultQt_ne_zero⟩, ?_⟩
  intro e he
  rcases List.mem_singleton.1 he with rfl; exact id

theorem witness_WaitingHostDoesNotSeeLatency :
    let s := busy 0x00008801 0 [.wait, .read 0x600]
    s.env.rstN = true ∧ s.status.busy = true ∧ decode s.curCmd = .ok (.dct 8 8) ∧ isCompute (.dct 8 8) = true ∧
      s.env.host = .wait :: [.read 0x600] := by decide

/-- A block that differs from IN in column 3 only, with VW = 3. -/
theorem witness_PaddingIgnoresInput :
    let b : Block Byte := (Vector.replicate 64 0).set 3 9
    (busy 0x00008301 0 []).status.busy = true ∧ b ≠ (busy 0x00008301 0 []).inBuf ∧
    (∀ x y : Fin 8, x.val < (3 : BitVec 4).toNat → y.val < (8 : BitVec 4).toNat →
      b[raster x y] = (busy 0x00008301 0 []).inBuf[raster x y]) ∧
    ∃ t, exec (.dct 3 8) (busy 0x00008301 0 []) = .next t := by
  refine ⟨rfl, by decide +kernel, by decide +kernel, _, rfl⟩

/-- Two states that agree in lane 63 and differ in lane 0. -/
theorem witness_LanesAreIndependent :
    let s := busy 0x00008803 0 []
    let s' := (busy 0x00008803 0 []).setCoef ((Vector.replicate 64 0).set 0 1)
    s.status.busy = true ∧ s'.status.busy = true ∧ s.coef ≠ s'.coef ∧ s.coef[(63 : Fin 64)] = s'.coef[(63 : Fin 64)] ∧
      s.out[(63 : Fin 64)] = s'.out[(63 : Fin 64)] ∧ s.qt[(63 : Fin 64)] = s'.qt[(63 : Fin 64)] ∧
      (∃ t, exec (.quant 8 8) s = .next t) ∧ (∃ t, exec (.quant 8 8) s' = .next t) ∧
      (∃ t, exec (.pack 8 8) s = .next t) ∧ ∃ t, exec (.pack 8 8) s' = .next t :=
  ⟨rfl, rfl, by decide +kernel, by decide +kernel, by decide +kernel, by decide +kernel, ⟨_, rfl⟩, ⟨_, rfl⟩, ⟨_, rfl⟩, _, rfl⟩

/-- The first and last words of COEF and OUT while BUSY, and a word on either side of them. -/
theorem witness_ReadsHaveNoSideEffect :
    HostTurn (busy 0x00008801 1 [.read 0x400]) ∧ (busy 0x00008801 1 [.read 0x400]).env.host = .read 0x400 :: [] ∧
    (0x400 ≤ wordOffset 0x400 ∧ wordOffset 0x63F ≤ 0x63F) ∧ ¬ 0x400 ≤ wordOffset 0x3FF ∧ ¬ wordOffset 0x640 ≤ 0x63F ∧
    HostTurn (idle [.read 0x400]) := by
  refine ⟨⟨rfl, fun _ => by decide⟩, rfl, by decide, by decide, by decide, ⟨rfl, ?_⟩⟩
  intro h; cases h

/-- Both ends of every range. -/
theorem witness_ReservedAndReadOnlyOffsets :
    HostTurn (idle [.write 0x010 7]) ∧ (idle [.write 0x010 7]).env.host = .write 0x010 7 :: [] ∧
    (∀ off ∈ [(0x010 : Offset), 0x0FF, 0x140, 0x1FF, 0x300, 0x3FF, 0x640, 0xFFF],
      (0x010 ≤ wordOffset off ∧ wordOffset off ≤ 0x0FC) ∨ (0x140 ≤ wordOffset off ∧ wordOffset off ≤ 0x1FC) ∨
      (0x300 ≤ wordOffset off ∧ wordOffset off ≤ 0x3FC) ∨ 0x640 ≤ wordOffset off) ∧
    ∀ off ∈ [(0x003 : Offset), 0x600, 0x63F],
      wordOffset off = 0x000 ∨ (0x600 ≤ wordOffset off ∧ wordOffset off ≤ 0x63C) := by
  refine ⟨⟨rfl, ?_⟩, rfl, by simp [wordOffset_eq], by simp [wordOffset_eq]⟩
  intro h; cases h

theorem witness_LowAddressBitsAreIgnored : HostTurn (idle []) ∧ HostTurn (busy 0x00008801 1 []) := by
  refine ⟨⟨rfl, ?_⟩, rfl, fun _ => by decide⟩
  intro h; cases h

/-- The first and last words of IN and OUT. -/
theorem witness_ByteBuffersAreLittleEndian :
    wordOffset 0x100 = 0x100 + 4 * (0 : Fin 16).val ∧ wordOffset 0x13F = 0x100 + 4 * (15 : Fin 16).val ∧
    wordOffset 0x600 = 0x600 + 4 * (0 : Fin 16).val ∧ wordOffset 0x63F = 0x600 + 4 * (15 : Fin 16).val ∧
    HostTurn (idle [.write 0x100 5]) ∧ (idle [.write 0x100 5]).status.busy = false ∧
    (idle [.write 0x100 5]).env.host = .write 0x100 5 :: [] := by
  refine ⟨by decide, by decide, by decide, by decide, ⟨rfl, ?_⟩, rfl, rfl⟩
  intro h; cases h

/-- The low and high words of the first and last coefficients. -/
theorem witness_CoefficientsAreLowWordFirst :
    HostTurn (idle [.write 0x400 5]) ∧ (idle [.write 0x400 5]).status.busy = false ∧
    wordOffset 0x400 = 0x400 + 8 * (0 : Fin 64).val ∧ wordOffset 0x5F8 = 0x400 + 8 * (63 : Fin 64).val ∧
    wordOffset 0x404 = 0x404 + 8 * (0 : Fin 64).val ∧ wordOffset 0x5FF = 0x404 + 8 * (63 : Fin 64).val ∧
    (idle [.write 0x400 5]).env.host = .write 0x400 5 :: [] := by
  refine ⟨⟨rfl, ?_⟩, rfl, by decide, by decide, by decide, by decide, rfl⟩
  intro h; cases h

theorem witness_DivisorsAreOneAWord :
    wordOffset 0x200 = 0x200 + 4 * (0 : Fin 64).val ∧ wordOffset 0x2FF = 0x200 + 4 * (63 : Fin 64).val ∧
    HostTurn (idle [.write 0x200 0x10000]) ∧ (idle [.write 0x200 0x10000]).status.busy = false ∧
    (idle [.write 0x200 0x10000]).env.host = .write 0x200 0x10000 :: [] := by
  refine ⟨by decide, by decide, ⟨rfl, ?_⟩, rfl, rfl⟩
  intro h; cases h

/-- Both ends of the three writable ranges. -/
theorem witness_WritesReachOnlyTheirWord :
    HostTurn (idle [.write 0x13C 5]) ∧ (idle [.write 0x13C 5]).status.busy = false ∧
    (idle [.write 0x13C 5]).env.host = .write 0x13C 5 :: [] ∧ wordOffset 0x138 ≠ wordOffset 0x13C ∧
    ∀ off ∈ [(0x100 : Offset), 0x13F, 0x200, 0x2FF, 0x400, 0x5FF],
      (0x100 ≤ wordOffset off ∧ wordOffset off ≤ 0x13F) ∨ (0x200 ≤ wordOffset off ∧ wordOffset off ≤ 0x2FF) ∨
      (0x400 ≤ wordOffset off ∧ wordOffset off ≤ 0x5FF) := by
  refine ⟨⟨rfl, ?_⟩, rfl, rfl, by simp [wordOffset_eq], by simp [wordOffset_eq]⟩
  intro h; cases h

/-- Both ends of the three dropped ranges; CTRL without and with SRST; STATUS. -/
theorem witness_BufferWritesWhileBusyAreDropped :
    HostTurn (busy 0x00008801 1 [.write 0x400 5]) ∧ (busy 0x00008801 1 [.write 0x400 5]).status.busy = true ∧
    (busy 0x00008801 1 [.write 0x400 5]).env.host = .write 0x400 5 :: [] ∧
    (∀ off ∈ [(0x100 : Offset), 0x13F, 0x200, 0x2FF, 0x400, 0x5FF],
      (0x100 ≤ wordOffset off ∧ wordOffset off ≤ 0x13F) ∨ (0x200 ≤ wordOffset off ∧ wordOffset off ≤ 0x2FF) ∨
      (0x400 ≤ wordOffset off ∧ wordOffset off ≤ 0x5FF)) ∧
    wordOffset 0x007 = 0x004 ∧ (0x7FFFFFFF : Word).getLsbD 31 = false ∧ (0x80000000 : Word).getLsbD 31 = true ∧
    wordOffset 0x00C = 0x00C := by
  refine ⟨⟨rfl, fun _ => by decide⟩, rfl, rfl, by simp [wordOffset_eq], by decide, by decide, by decide, by decide⟩

theorem witness_IdReadsItsConstant :
    wordOffset 0x003 = 0x000 ∧ HostTurn (idle [.write 0x000 5]) ∧ (idle [.write 0x000 5]).env.host = .write 0x000 5 :: [] := by
  refine ⟨by decide, ⟨rfl, ?_⟩, rfl⟩
  intro h; cases h

theorem witness_StatusWriteClearsItsBits :
    HostTurn (busy 0x00008801 1 [.write 0x00C 0x302]) ∧ wordOffset 0x00F = 0x00C ∧
    (busy 0x00008801 1 [.write 0x00C 0x302]).env.host = .write 0x00C 0x302 :: [] :=
  ⟨⟨rfl, fun _ => by decide⟩, by decide, rfl⟩

theorem witness_CtrlStoresItsEnables :
    HostTurn (busy 0x00008801 1 [.write 0x004 0x7FFFFFFF]) ∧ wordOffset 0x007 = 0x004 ∧
    (busy 0x00008801 1 [.write 0x004 0x7FFFFFFF]).env.host = .write 0x004 0x7FFFFFFF :: [] ∧
    (0x7FFFFFFF : Word).getLsbD 31 = false := ⟨⟨rfl, fun _ => by decide⟩, by decide, rfl, by decide⟩

theorem witness_SoftResetIsReset :
    HostTurn (busy 0x00008801 1 [.write 0x004 0x80000003]) ∧ wordOffset 0x004 = 0x004 ∧
    (0x80000003 : Word).getLsbD 31 = true ∧
    (busy 0x00008801 1 [.write 0x004 0x80000003]).env.host = .write 0x004 0x80000003 :: [] :=
  ⟨⟨rfl, fun _ => by decide⟩, by decide, by decide, rfl⟩

/-- The pin falls; an access while it is low; nothing to come while it is low; the pin rises. -/
theorem witness_ResetPinResets :
    (HostTurn (busy 0x00008801 1 [.rst false]) ∧ (busy 0x00008801 1 [.rst false]).env.host = .rst false :: []) ∧
    (let s := State.reset.setEnv { Env.reset with rstN := false, host := [.write 0x008 1] }
     s.env.rstN = false ∧ s.env.host = .write 0x008 1 :: [] ∧ HostEvent.write 0x008 1 ≠ .rst true ∧ HostEvent.rst false ≠ .rst true) ∧
    (let s := State.reset.setEnv { Env.reset with rstN := false }
     s.env.rstN = false ∧ s.env.host = []) ∧
    (let s := State.reset.setEnv { Env.reset with rstN := false, host := [.rst true] }
     s.env.rstN = false ∧ s.env.host = .rst true :: []) := by
  refine ⟨⟨⟨rfl, fun _ => by decide⟩, rfl⟩, ⟨rfl, rfl, by decide, by decide⟩, ⟨rfl, rfl⟩, rfl, rfl⟩

theorem witness_ResetValuesAreFixed : (idle []).env = ((idle []).setIn (Vector.replicate 64 9)).env := rfl

theorem witness_InterruptLineIsItsFormula :
    ∃ t, step ((idle [.write 0x008 7]).setCtrl { ieDone := false, ieErr := true }) = .next t ∧
      ((idle [.write 0x008 7]).setCtrl { ieDone := false, ieErr := true }).status.err = false ∧ t.status.err = true :=
  ⟨_, rfl, rfl, by decide +kernel⟩

/-- Finite operands (the largest finite value and the smallest subnormal), and a divisor that is not 0. -/
theorem witness_arithmetic :
    isFinite 0x7FEFFFFFFFFFFFFF = true ∧ isFinite 0x0000000000000001 = true ∧ f64Value 0x3FF0000000000000 ≠ 0 := by
  refine ⟨by decide, by decide, ?_⟩
  have h : mant 0x3FF0000000000000 = 2 ^ 52 := by decide
  have e : expo 0x3FF0000000000000 = -52 := by decide
  rw [f64Value, h, e]
  norm_num [show signBit 0x3FF0000000000000 = false by decide]

theorem witness_ToF64IsExact : 0 < 2 ^ 53 ∧ 2 ^ 53 - 1 < 2 ^ 53 := by decide

/-- A NaN, both infinities, and finite values on both sides of 0 and above 255. -/
theorem witness_classes :
    isNaN 0x7FF0000000000001 = true ∧ isInf 0x7FF0000000000000 = true ∧ isInf 0xFFF0000000000000 = true ∧
    isFinite 0xBFF0000000000000 = true ∧ isFinite 0x4070000000000000 = true := by decide

/-- A zero, an infinity, a NaN; 7 / 16, which is below a half; 8 / 16, which is `n + 1/2` for `n = 0`. -/
theorem witness_QuantizerCornerCases :
    ((16 : Divisor) ≠ 0 ∧ magField negZero = 0 ∧ isInf 0xFFF0000000000000 = true ∧ isNaN 0xFFF0000000000001 = true) ∧
    (isFinite 0x401C000000000000 = true ∧ |f64Value 0x401C000000000000| / ((16 : Divisor).toNat : ℚ) < 1 / 2) ∧
    (isFinite 0x4020000000000000 = true ∧ 0 < 2 ^ 51 ∧
      |f64Value 0x4020000000000000| / ((16 : Divisor).toNat : ℚ) = ((0 : Nat) : ℚ) + 1 / 2) := by
  have h7 : f64Value 0x401C000000000000 = 7 := by
    rw [f64Value, show mant 0x401C000000000000 = 7 * 2 ^ 50 by decide, show expo 0x401C000000000000 = -50 by decide]
    norm_num [show signBit 0x401C000000000000 = false by decide]
  have h8 : f64Value 0x4020000000000000 = 8 := by
    rw [f64Value, show mant 0x4020000000000000 = 2 ^ 52 by decide, show expo 0x4020000000000000 = -49 by decide]
    norm_num [show signBit 0x4020000000000000 = false by decide]
  refine ⟨by decide, ⟨by decide, ?_⟩, by decide, by decide, ?_⟩
  · rw [h7, show (16 : Divisor).toNat = 16 by decide]; norm_num
  · rw [h8, show (16 : Divisor).toNat = 16 by decide]; norm_num

/-- IN is 0 on the region 1 by 1 and not outside it. -/
theorem witness_ZeroBlockTransformsToZero :
    let s := (busy 0x00001101 0 []).setIn ((Vector.replicate 64 7).set 0 0)
    s.status.busy = true ∧ (∀ k : Fin 64, inRegion 1 1 k = true → s.inBuf[k] = 0) ∧ ∃ t, exec (.dct 1 1) s = .next t := by
  refine ⟨rfl, by decide +kernel, _, rfl⟩

/-- Extents at the limits of the first clause, and just outside them. -/
theorem witness_AssemblerEncodesLegalLines :
    (1 ≤ 1 ∧ 8 ≤ 8) ∧ ¬ (1 ≤ 0) ∧ ¬ (9 ≤ 8) := by decide

theorem witness_BlockOriginsAndRegions : (8, 0) ∈ blockOrigins 10 10 := by decide

theorem witness_BlocksCoverEachPixelOnce : 9 < 10 ∧ 0 < 10 := by decide

/-- An image of no rows; a table with a 0; an image that comes back. -/
theorem witness_ProcessKeepsTheShape :
    (Image.mk 1 0 1 []).valid = false ∧ (Image.mk 1 1 1 [5]).valid = true ∧
    (∃ k : Fin 64, (Vector.replicate 64 0 : Block Nat)[k] < 1 ∨ 65535 < (Vector.replicate 64 0 : Block Nat)[k]) :=
  ⟨by decide, by decide, 0, by decide⟩

/-! An image of one pixel that `Process` returns, for whatever LATENCY its one command draws. -/

def pixelImage : Image := { width := 1, height := 1, channels := 1, samples := [5] }

/-- The accesses of 44_host_tiling.md R192 for its block. -/
def pixelEvents : List HostEvent :=
  loadBlock pixelImage 0 0 0 ++ [.write 0x008 (encode (blockCommand pixelImage false 0 0)), .wait, .read 0x00C]

/-- Its command is in flight. -/
def pixelInFlight : State :=
  ((((State.reset.setIn ((Vector.replicate 64 0).set 0 5)).setLastCmd 0x1101).setCurCmd 0x1101).setStatus
    { Status.reset with busy := true }).setEnv
    { Env.reset with host := [.wait, .read 0x00C], remaining := Config.latency 0, accepted := 1 }

/-- Its completion is due. -/
def pixelDue : State := pixelInFlight.setEnv { pixelInFlight.env with remaining := 0 }

/-- Its STATUS has been read. -/
def pixelDone : State := (runQuiet 3 pixelDue).getD State.reset

def pixelFuel : Nat := 3 + Config.latency 0 + 17

set_option maxRecDepth 10000 in
theorem pixel_issued (n : Nat) : runQuiet (n + 17) (idle pixelEvents) = runQuiet n pixelInFlight := by
  with_unfolding_all rfl

theorem pixel_completed : runQuiet 3 pixelDue = some pixelDone := by
  have h : (runQuiet 3 pixelDue).isSome = true := by decide +kernel
  cases h' : runQuiet 3 pixelDue with
  | none => rw [h'] at h; cases h
  | some t => rw [pixelDone, h']; rfl

theorem pixel_run : perform pixelFuel pixelEvents (idle []) = .ok pixelDone := by
  have h : runQuiet pixelFuel ((idle []).setEnv ((idle []).env.setHost pixelEvents)) = some pixelDone :=
    (pixel_issued _).trans ((runQuiet_wait _ (s := pixelInFlight) (rest := [.read 0x00C]) rfl rfl rfl 3 rfl).trans
      pixel_completed)
  rw [perform, h]

theorem pixel_copied (a : List Byte) : ∃ r, copySample pixelFuel pixelImage 0 0 0 0 0 (a, pixelDone) = .ok r := by
  have h1 : pixelDone.env.rstN = true ∧ pixelDone.status.busy = false := by decide +kernel
  have hs := step_read (s := pixelDone.setEnv (pixelDone.env.setHost [.read 0x600])) (off := 0x600) (rest := [])
    ⟨h1.1, fun h => absurd h (by simp [h1.2])⟩ rfl
  have hq : perform pixelFuel [.read (wordAt 0x600 0)] pixelDone =
      .ok (readTransaction 0x600 (taken [] (pixelDone.setEnv (pixelDone.env.setHost [.read 0x600])))) := by
    rw [perform, show wordAt 0x600 0 = 0x600 by decide, show pixelFuel = (3 + Config.latency 0 + 15) + 1 + 1 from rfl,
      runQuiet_step hs (by simp [isQuiet]), runQuiet, if_pos]
    simp [isQuiet, readTransaction, h1.2]
  simp only [copySample, Nat.mul_zero, Nat.zero_div, Nat.add_zero, hq]
  exact ⟨_, rfl⟩

theorem witness_ProcessReturnsAnImage : ∃ dst t, processImage pixelFuel pixelImage none (idle []) = .ok (dst, t) := by
  have hb : blockTasks pixelImage = [(0, 0, 0)] := by decide
  have hv : validPositions (validExtent pixelImage.width 0) (validExtent pixelImage.height 0) = [(0, 0)] := by decide
  have hy : (lastRead pixelDone).getLsbD 2 = false := by decide +kernel
  have hp : ∃ r, processBlocks pixelFuel pixelImage false (idle []) = .ok r := by
    obtain ⟨r, hr⟩ := pixel_copied (List.replicate (pixelImage.width * pixelImage.height * pixelImage.channels) 0)
    have hrun := pixel_run
    rw [pixelEvents] at hrun
    refine ⟨r, ?_⟩
    rw [processBlocks, hb]
    simp only [List.foldlM_cons, List.foldlM_nil, processBlock, hrun, hy, hv, Bool.false_eq_true, if_false, hr]
    rfl
  obtain ⟨⟨d, t⟩, hr⟩ := hp
  exact ⟨_, t, by rw [processImage, if_neg (by decide)]; simp only [hr]; rfl⟩

end Sys2Proof.Tests
end

section
/-! PROOFS. `fadd`, `fmul`, `fdiv` and `toF64` (00_scope.md R11): what each hands to `roundPack`, that a sticky bit keeps the
rounding of a quotient, and the obligations O47 to O50. -/

namespace Sys2Proof.Machine

/-! ### Finite patterns -/

theorem isNaN_of_isFinite {x : F64} (h : isFinite x = true) : isNaN x = false := by
  rw [isFinite, bne_iff_ne] at h
  simp [isNaN, h]

theorem isInf_of_isFinite {x : F64} (h : isFinite x = true) : isInf x = false := by
  rw [isFinite, bne_iff_ne] at h
  simp [isInf, h]

/-- Only a zero has all its bits but the sign 0. -/
theorem mant_eq_zero_of_magField {x : F64} (h : magField x = 0) : mant x = 0 := by
  rw [magField, BitVec.extractLsb'_toNat, Nat.shiftRight_zero] at h
  have he : expField x = 0 := by
    rw [expField, BitVec.extractLsb'_toNat, Nat.shiftRight_eq_div_pow]; omega
  rw [mant, if_pos he, fracField, BitVec.extractLsb'_toNat, Nat.shiftRight_zero]
  omega

/-- A value is its scaled integer times its scale. -/
theorem f64Value_eq_scaledTo {x : F64} {q : ℤ} (h : q ≤ expo x) : f64Value x = scaledTo q x * (2 : ℚ) ^ q := by
  have he : (2 : ℚ) ^ expo x = (2 : ℚ) ^ (expo x - q).toNat * (2 : ℚ) ^ q := by
    rw [← zpow_natCast, Int.toNat_of_nonneg (by omega), ← zpow_add₀ (by norm_num), sub_add_cancel]
  rw [f64Value, he, scaledTo]
  split <;> (push_cast; ring)

/-- The sign of a product or a quotient, and the product of the signs. -/
theorem sign_bne (s t : Bool) : (if s != t then -1 else 1 : ℚ) = (if s then -1 else 1) * (if t then -1 else 1) := by
  cases s <;> cases t <;> simp

/-! ### `roundPack` -/

@[simp] theorem signBit_roundPack (s : Bool) (n : Nat) (q : ℤ) : signBit (roundPack s n q) = s := by
  rw [roundPack]
  split
  · exact signBit_packF64 _ _
  · exact signBit_packF64 _ _

/-- `roundPack` rounds the integer `v` times `2^q` when it is given the sign and the magnitude of `v`. -/
theorem roundPack_natAbs_isRounded (v q : ℤ) :
    IsRounded ((v : ℚ) * (2 : ℚ) ^ q) (roundPack (decide (v < 0)) v.natAbs q) := by
  have h := roundPack_isRounded (decide (v < 0)) v.natAbs q
  have hv : (if decide (v < 0) then -1 else 1 : ℚ) * (v.natAbs : ℚ) = v := by
    rw [Nat.cast_natAbs]
    by_cases hn : v < 0
    · simp [hn, abs_of_neg hn]
    · simp [hn, abs_of_nonneg (not_lt.1 hn)]
  rwa [← mul_assoc, hv] at h

/-- A zero of either sign is the rounding of 0. -/
theorem packF64_zero_isRounded (s : Bool) : IsRounded 0 (packF64 s 0) := by
  simpa [roundPack] using roundPack_isRounded s 0 0

/-- `roundPack` of a number that is not 0, by its last place `l` and the biased exponent `e` of that place. -/
theorem roundPack_eq (s : Bool) {n e : Nat} {q l : ℤ} (hn : n ≠ 0) (hl : max ((n.log2 : ℤ) + q - 52) (-1074) = l)
    (he : (e : ℤ) = l + 1074) :
    roundPack s n q = packF64 s (min (e * 2 ^ 52 + rneShift (n * 2 ^ (q - l).toNat) (l - q).toNat) infMag) := by
  have he' : (l + 1074).toNat = e := by omega
  rw [roundPack, if_neg hn]
  simp only [hl, he']

@[simp] theorem rneShift_zero (n : Nat) : rneShift n 0 = n := by
  simp [rneShift, Nat.mod_one]

/-- A natural number below 2^53 is packed as it is. -/
theorem roundPack_natural (s : Bool) {n : Nat} (h : n < 2 ^ 53) :
    isFinite (roundPack s n 0) = true ∧ f64Value (roundPack s n 0) = (if s then -1 else 1) * n := by
  by_cases hn : n = 0
  · subst hn
    have hv := f64Value_packF64 s (e := 0) (m := 0) (by norm_num) (.inl rfl) (by decide)
    rw [roundPack, if_pos rfl]
    exact ⟨hv.1, by simpa using hv.2.1⟩
  have hlog : n.log2 ≤ 52 := Nat.lt_succ_iff.1 ((Nat.log2_lt hn).2 h)
  obtain ⟨k, hk⟩ := Nat.exists_eq_add_of_le hlog
  have hge : 2 ^ 52 ≤ n * 2 ^ k := by
    rw [hk, pow_add]
    exact Nat.mul_le_mul_right _ (Nat.log2_self_le hn)
  have hlt : n * 2 ^ k < 2 ^ 53 := by
    have h53 : 2 ^ 53 = 2 ^ (n.log2 + 1) * 2 ^ k := by rw [← pow_add]; congr 1; omega
    rw [h53]
    exact Nat.mul_lt_mul_of_pos_right Nat.lt_log2_self (by positivity)
  have hfit : (1074 - k) * 2 ^ 52 + n * 2 ^ k < infMag := by rw [infMag]; omega
  have hpack : roundPack s n 0 = packF64 s ((1074 - k) * 2 ^ 52 + n * 2 ^ k) := by
    have h1 : (0 - -(k : ℤ)).toNat = k := by omega
    have h2 : (-(k : ℤ) - 0).toNat = 0 := by omega
    rw [roundPack_eq s hn (l := -(k : ℤ)) (e := 1074 - k) (by omega) (by omega), h1, h2, rneShift_zero,
      Nat.min_eq_left hfit.le]
  obtain ⟨hf, hv, -⟩ := f64Value_packF64 s hlt.le (.inr hge) hfit
  rw [hpack]
  refine ⟨hf, ?_⟩
  have he : ((1074 - k : Nat) : ℤ) - 1074 = -(k : ℤ) := by omega
  rw [hv, he, zpow_neg, zpow_natCast]
  push_cast
  rw [mul_inv_cancel_right₀ (by positivity)]

/-! ### Rounding with a sticky bit -/

/-- The integer that `rneShift` cuts an odd `n` to is the nearest to every `x` within 1 of `n`, and `x` is no tie: a tie
is an even number of units, as two places at least are cut off. -/
theorem rneShift_odd {n k : Nat} {x : ℚ} (hodd : n % 2 = 1) (hk : 2 ≤ k) (hx : |x - n| < 1) :
    |x / 2 ^ k - rneShift n k| < 1 / 2 := by
  obtain ⟨j, rfl⟩ := Nat.exists_eq_add_of_le hk
  have hp : (0 : ℚ) < 2 ^ (2 + j) := by positivity
  generalize hm : rneShift n (2 + j) = m
  have hnear : |(n : ℚ) - m * 2 ^ (2 + j)| ≤ 2 * 2 ^ j := by
    have h := (rneShift_spec n (2 + j)).1
    rw [hm, div_sub' hp.ne', abs_div, abs_of_pos hp, div_le_iff₀ hp] at h
    rw [mul_comm (m : ℚ)]
    exact h.trans_eq (by ring)
  have hnear' : |(n : ℤ) - m * 2 ^ (2 + j)| ≤ 2 * 2 ^ j := by exact_mod_cast hnear
  have hstrict : |(n : ℤ) - m * 2 ^ (2 + j)| + 1 ≤ 2 * 2 ^ j := by
    have h4 : (m : ℤ) * 2 ^ (2 + j) = 4 * (m * 2 ^ j) := by rw [pow_add]; ring
    have hodd' : |(n : ℤ) - 4 * (m * 2 ^ j)| ≠ 2 * 2 ^ j := by
      intro h
      rcases abs_eq (by positivity) |>.1 h with h | h <;> omega
    rw [h4] at hnear' ⊢
    omega
  have hstrict' : |(n : ℚ) - m * 2 ^ (2 + j)| + 1 ≤ 2 * 2 ^ j := by exact_mod_cast hstrict
  rw [div_sub' hp.ne', abs_div, abs_of_pos hp, div_lt_iff₀ hp, mul_comm _ (m : ℚ)]
  calc |x - m * 2 ^ (2 + j)| ≤ |x - n| + |(n : ℚ) - m * 2 ^ (2 + j)| := abs_sub_le _ _ _
    _ < 2 * 2 ^ j := by linarith
    _ = _ := by ring

/-- An odd integer of 55 bits or more rounds as every number within 1 of it does: its last bit only says on which side
of an even one the number lies. -/
theorem roundPack_odd_isRounded (s : Bool) {n : Nat} (q : ℤ) {x : ℚ} (hodd : n % 2 = 1) (hn : 2 ^ 54 ≤ n)
    (hx : |x - n| < 1) : IsRounded ((if s then -1 else 1) * (x * (2 : ℚ) ^ q)) (roundPack s n q) := by
  have hn0 : n ≠ 0 := by omega
  have hlog : 54 ≤ n.log2 := (Nat.le_log2 hn0).2 hn
  obtain ⟨hlo, hhi⟩ := abs_lt.1 hx
  have hxge : (2 : ℚ) ^ n.log2 ≤ x := by
    have hne : 2 ^ n.log2 ≠ n := by
      obtain ⟨j, hj⟩ := Nat.exists_eq_add_of_le hlog
      intro h
      rw [hj, pow_add] at h
      omega
    have h : 2 ^ n.log2 + 1 ≤ n := lt_of_le_of_ne (Nat.log2_self_le hn0) hne
    have h' : (2 : ℚ) ^ n.log2 + 1 ≤ n := by exact_mod_cast h
    linarith
  have hxlt : x < (2 : ℚ) ^ (n.log2 + 1) := by
    have h : n + 1 ≤ 2 ^ (n.log2 + 1) := Nat.lt_log2_self
    have h' : (n : ℚ) + 1 ≤ 2 ^ (n.log2 + 1) := by exact_mod_cast h
    linarith
  obtain ⟨l, hl⟩ : ∃ l : ℤ, max ((n.log2 : ℤ) + q - 52) (-1074) = l := ⟨_, rfl⟩
  obtain ⟨e, he⟩ : ∃ e : Nat, (e : ℤ) = l + 1074 := ⟨(l + 1074).toNat, by omega⟩
  obtain ⟨k, hk⟩ : ∃ k : Nat, (k : ℤ) = l - q := ⟨(l - q).toNat, by omega⟩
  have hpack : roundPack s n q = packF64 s (min (e * 2 ^ 52 + rneShift n k) infMag) := by
    have h1 : (q - l).toNat = 0 := by omega
    have h2 : (l - q).toNat = k := by omega
    rw [roundPack_eq s hn0 hl he, h1, h2, pow_zero, mul_one]
  have hval : x * (2 : ℚ) ^ q = x / 2 ^ k * (2 : ℚ) ^ l := by
    have hlk : l = k + q := by omega
    rw [hlk, zpow_add₀ (by norm_num), zpow_natCast]
    field_simp
  have hhalf := rneShift_odd hodd (by omega : 2 ≤ k) hx
  rw [hpack, hval]
  refine isRounded_packF64 s he ?_ ?_ (fun hl' => ?_) hhalf.le (fun h => absurd h hhalf.ne)
  · exact div_nonneg ((by positivity : (0 : ℚ) ≤ 2 ^ n.log2).trans hxge) (by positivity)
  · rw [div_lt_iff₀ (by positivity), ← pow_add]
    exact hxlt.trans_le (pow_le_pow_right₀ (by norm_num) (by omega))
  · rw [le_div_iff₀ (by positivity), ← pow_add]
    exact (pow_le_pow_right₀ (by norm_num) (by omega)).trans hxge

/-- The quotient with its sticky bit, which `fdiv` rounds, rounds as the exact quotient does when it has 54 bits or the
division is exact. -/
theorem roundPack_sticky_isRounded (s : Bool) (n d : Nat) (q : ℤ) (hd : 0 < d) (h : n % d = 0 ∨ 2 ^ 53 ≤ n / d) :
    IsRounded ((if s then -1 else 1) * ((2 * ((n : ℚ) / d)) * (2 : ℚ) ^ q))
      (roundPack s (2 * (n / d) + if n % d = 0 then 0 else 1) q) := by
  have hd' : (0 : ℚ) < d := by exact_mod_cast hd
  have hdiv : (n : ℚ) / d = (n / d : Nat) + ((n % d : Nat) : ℚ) / d := by
    have h : ((d * (n / d) + n % d : Nat) : ℚ) = n := by rw [Nat.div_add_mod]
    rw [← h]; push_cast; field_simp
  by_cases hr : n % d = 0
  · have hx := roundPack_isRounded s (2 * (n / d)) q
    rw [hdiv, hr]
    simpa using hx
  · rw [if_neg hr]
    refine roundPack_odd_isRounded s q (by omega) (by omega) ?_
    have hpos : 0 < ((n % d : Nat) : ℚ) / d := div_pos (by exact_mod_cast Nat.pos_of_ne_zero hr) hd'
    have hlt : ((n % d : Nat) : ℚ) / d < 1 := by
      rw [div_lt_one hd']; exact_mod_cast Nat.mod_lt n hd
    rw [hdiv, abs_lt]
    push_cast
    constructor <;> linarith

/-! ### The operations on finite operands -/

theorem fadd_finite {a b : F64} (ha : isFinite a = true) (hb : isFinite b = true) :
    fadd a b =
      let q := min (expo a) (expo b)
      let sum := scaledTo q a + scaledTo q b
      if sum = 0 then packF64 (signBit a && signBit b) 0 else roundPack (decide (sum < 0)) sum.natAbs q := by
  simp [fadd, isNaN_of_isFinite, isInf_of_isFinite, ha, hb]

theorem fmul_finite {a b : F64} (ha : isFinite a = true) (hb : isFinite b = true) :
    fmul a b = roundPack (signBit a != signBit b) (mant a * mant b) (expo a + expo b) := by
  simp [fmul, isNaN_of_isFinite, isInf_of_isFinite, ha, hb]

theorem fdiv_finite {a b : F64} (ha : isFinite a = true) (hb : isFinite b = true) (hm : mant b ≠ 0) :
    fdiv a b =
      roundPack (signBit a != signBit b)
        (2 * (mant a * 2 ^ 110 / mant b) + if mant a * 2 ^ 110 % mant b = 0 then 0 else 1)
        (expo a - expo b - 111) := by
  have hmag : magField b ≠ 0 := fun h => hm (mant_eq_zero_of_magField h)
  simp [fdiv, isNaN_of_isFinite, isInf_of_isFinite, ha, hb, hmag]

/-- A quotient of significands to 110 extra places has 54 bits, or its dividend is 0. -/
theorem significand_quotient_ge (a b : F64) (hb : mant b ≠ 0) :
    mant a * 2 ^ 110 % mant b = 0 ∨ 2 ^ 53 ≤ mant a * 2 ^ 110 / mant b := by
  by_cases ha : mant a = 0
  · simp [ha]
  · right
    rw [Nat.le_div_iff_mul_le (Nat.pos_of_ne_zero hb)]
    have := mant_lt b
    omega

end Sys2Proof.Machine

namespace Sys2Proof

open Sys2Proof.Machine

/-- Settles O47: both operands are integers at the lesser of their last places, and `fadd` rounds the sum of these. -/
theorem faddRoundsTheSum : Obligations.FaddRoundsTheSum := by
  intro a b ha hb
  have hsum : f64Value a + f64Value b =
      ((scaledTo (min (expo a) (expo b)) a + scaledTo (min (expo a) (expo b)) b : ℤ) : ℚ) *
        (2 : ℚ) ^ min (expo a) (expo b) := by
    rw [f64Value_eq_scaledTo (min_le_left (expo a) (expo b)), f64Value_eq_scaledTo (min_le_right (expo a) (expo b))]
    push_cast
    ring
  rw [fadd_finite ha hb, hsum]
  dsimp only
  split
  · next h0 =>
    rw [h0, Int.cast_zero, zero_mul]
    exact packF64_zero_isRounded _
  · exact roundPack_natAbs_isRounded _ _

/-- Settles O48: `fmul` rounds the product of the significands at the sum of the exponents. -/
theorem fmulRoundsTheProduct : Obligations.FmulRoundsTheProduct := by
  intro a b ha hb
  have h := roundPack_isRounded (signBit a != signBit b) (mant a * mant b) (expo a + expo b)
  have hprod : f64Value a * f64Value b = (if signBit a != signBit b then -1 else 1) *
      (((mant a * mant b : Nat) : ℚ) * (2 : ℚ) ^ (expo a + expo b)) := by
    rw [f64Value, f64Value, sign_bne, zpow_add₀ (by norm_num)]
    push_cast
    ring
  rw [fmul_finite ha hb, hprod]
  exact h

/-- Settles O49: the sticky bit of `fdiv` keeps the rounding of the exact quotient. -/
theorem fdivRoundsTheQuotient : Obligations.FdivRoundsTheQuotient := by
  intro a b ha hb hb0
  have hm : mant b ≠ 0 := fun h => hb0 (by simp [f64Value, h])
  have hm' : (mant b : ℚ) ≠ 0 := by exact_mod_cast hm
  have h := roundPack_sticky_isRounded (signBit a != signBit b) (mant a * 2 ^ 110) (mant b) (expo a - expo b - 111)
    (Nat.pos_of_ne_zero hm) (significand_quotient_ge a b hm)
  have hquot : f64Value a / f64Value b = (if signBit a != signBit b then -1 else 1) *
      ((2 * (((mant a * 2 ^ 110 : Nat) : ℚ) / mant b)) * (2 : ℚ) ^ (expo a - expo b - 111)) := by
    have hsign : ((if signBit b then -1 else 1 : ℚ))⁻¹ = if signBit b then -1 else 1 := by
      cases signBit b <;> norm_num
    have h111 : (2 : ℚ) ^ (111 : ℤ) = 2 ^ 111 := by norm_cast
    rw [f64Value, f64Value, sign_bne, zpow_sub₀ (by norm_num), zpow_sub₀ (by norm_num), h111, div_eq_mul_inv, mul_inv,
      mul_inv, hsign]
    push_cast
    ring
  rw [fdiv_finite ha hb hm, hquot]
  exact h

/-- Settles O50: a natural number below 2^53 has a significand of its own. -/
theorem toF64IsExact : Obligations.ToF64IsExact := by
  intro n hn
  obtain ⟨hf, hv⟩ := roundPack_natural false hn
  exact ⟨hf, signBit_roundPack false n 0, by simpa [toF64] using hv⟩

end Sys2Proof
end

section
/-! PROOFS. The registers and buffers of 10_state.md: what an access to ID, CTRL and STATUS leaves, which steps change a
buffer, that every step keeps the invariant, and the obligations O20, O21, O24 and O40 to O42. -/

namespace Sys2Proof.Machine

/-! ### The register words -/

theorem region_id {off : Offset} (h : wordOffset off = 0x000) : region off = .id := by
  rw [region, h]; rfl

theorem region_ctrl {off : Offset} (h : wordOffset off = 0x004) : region off = .ctrl := by
  rw [region, h]; rfl

theorem region_status {off : Offset} (h : wordOffset off = 0x00C) : region off = .status := by
  rw [region, h]; rfl

/-- A CTRL word keeps its two enables and reads 0 elsewhere (10_state.md R28). -/
theorem Ctrl.word_ofWord (w : Word) : (Ctrl.ofWord w).word = w &&& 0x00000003 := by
  apply BitVec.eq_of_getLsbD_eq
  intro b hb
  rw [Ctrl.getLsbD_word, BitVec.getLsbD_and]
  interval_cases b <;> simp [Ctrl.ofWord]

/-- The bits of STATUS after a write: W1C bits where the word has a 1, and ERRCODE with ERR (10_state.md R30). -/
theorem Status.getLsbD_word_w1c (t : Status) (w : Word) (b : Nat) : (t.w1c w).word.getLsbD b =
    if b = 1 ∨ b = 2 ∨ b = 8 ∨ b = 9 then t.word.getLsbD b && !w.getLsbD b
    else if b = 4 ∨ b = 5 ∨ b = 6 then t.word.getLsbD b && !w.getLsbD 2
    else t.word.getLsbD b := by
  simp only [Status.getLsbD_word]
  by_cases hw1c : b = 1 ∨ b = 2 ∨ b = 8 ∨ b = 9
  · rcases hw1c with rfl | rfl | rfl | rfl <;> simp
  · by_cases hcode : b = 4 ∨ b = 5 ∨ b = 6
    · rcases hcode with rfl | rfl | rfl <;> cases hw : w[2] <;> simp [hw]
    · have hout : ¬(4 ≤ b ∧ b ≤ 6) := by omega
      simp only [not_or] at hw1c
      simp [hw1c, hcode, hout]

/-! ### The offsets of the operand buffers (20_memory.md R60) -/

/-- An offset that reaches a word of IN, QT or COEF lies in that buffer's range. -/
theorem wordOffset_of_operand_word (off : Offset) :
    (∀ i, region off = .inWord i → 0x100 ≤ wordOffset off ∧ wordOffset off ≤ 0x13F) ∧
    (∀ k, region off = .qtWord k → 0x200 ≤ wordOffset off ∧ wordOffset off ≤ 0x2FF) ∧
    (∀ k, region off = .coefLow k ∨ region off = .coefHigh k → 0x400 ≤ wordOffset off ∧ wordOffset off ≤ 0x5FF) := by
  rcases regionAt_cases off with c | c | c | c | ⟨j, c⟩ | ⟨j, c⟩ | ⟨j, c⟩ | ⟨j, c⟩ | ⟨j, c⟩ | c <;>
    obtain ⟨hreg, hoff⟩ := c <;> simp [hreg] <;> omega

/-! ### Writes of CTRL and events in reset -/

/-- A write of CTRL without SRST stores the enables (10_state.md R28). -/
theorem writeRegion_ctrl_store {w : Word} (h : w.getLsbD 31 = false) (s : State) :
    writeRegion .ctrl w s = s.setCtrl (Ctrl.ofWord w) :=
  if_neg (Bool.eq_false_iff.1 h)

/-- A write of CTRL with SRST is the reset (70_reset_and_hazards.md R231). -/
theorem writeRegion_ctrl_reset {w : Word} (h : w.getLsbD 31 = true) (s : State) :
    writeRegion .ctrl w s = engineReset s :=
  if_pos h

/-- While `rst_n` is 0, taking an event off the list changes the environment and nothing else. -/
theorem heldInReset_eq_setEnv {s : State} (h : s.env.rstN = false) (e : HostEvent) (rest : List HostEvent) :
    ∃ env, heldInReset e (s.setEnv (s.env.setHost rest)) = s.setEnv env :=
  ⟨_, heldInReset_eq e (s := s.setEnv (s.env.setHost rest)) h⟩

/-! ### Commands issued while idle -/

/-- A compute command's word is the word it was decoded from (30_encoding.md R83, R85). -/
theorem encode_of_decode_compute {w : Word} {i : Instr} (h : decode w = .ok i) (hc : isCompute i = true) :
    encode i = w := by
  obtain ⟨h1, h0, hop, hi⟩ := decode_ok h
  rw [word_eq_commandWord h1 h0, hop]
  rcases hi with rfl | rfl | rfl | rfl | rfl | rfl
  · cases hc
  iterate 4 · rfl
  · cases hc

/-- Everything an issue step can be (40_command_protocol.md R100): NOP, QTDEF, a failed check, or an acceptance. -/
theorem exec_idle_cases {i : Instr} {s t : State} (hb : s.status.busy = false) (h : exec i s = .next t) :
    t = s.setStatus s.status.clearOutcome.ended ∨
    (i = .qtdef ∧ t = (s.setQt Config.defaultQt).setStatus s.status.clearOutcome.ended) ∨
    (∃ e, e ≠ .blockSize ∧ t = s.setStatus (s.status.clearOutcome.raised e)) ∨
    (isCompute i = true ∧ i.wellFormed = true ∧ (usesTable i = true → ∀ k : Fin 64, s.qt[k] ≠ 0) ∧
      t = ((s.setCurCmd (encode i)).setStatus s.status.clearOutcome.accepted).setEnv s.env.accept) := by
  cases hc : isCompute i
  · cases i <;> simp only [isCompute, reduceCtorEq] at hc
    case nop => rw [exec_nop] at h; cases h; exact .inl rfl
    case qtdef => rw [exec_qtdef] at h; cases h; exact .inr (.inl ⟨rfl, rfl⟩)
  · right; right
    by_cases hw : i.wellFormed = true
    · by_cases ht : usesTable i = true ∧ qtHasZero s.qt = true
      · rw [exec_idle hc hb, issue_eq, if_neg (by simp [hw]), if_pos ht] at h
        cases h; exact .inl ⟨.invalidQt, by decide, rfl⟩
      · have hz : usesTable i = true → ∀ k : Fin 64, s.qt[k] ≠ 0 :=
          fun hu k hk => ht ⟨hu, (qtHasZero_iff _).2 ⟨k, hk⟩⟩
        rw [exec_accepted hc hb hw hz] at h
        cases h; exact .inr ⟨rfl, hw, hz, rfl⟩
    · rw [exec_idle hc hb, issue_eq, if_pos (by simpa using hw)] at h
      cases h; exact .inl ⟨.invalidDim, by decide, rfl⟩

/-! ### Which steps change a buffer -/

/-- The four buffers hold the same in both states. -/
def SameBuffers (s t : State) : Prop := t.inBuf = s.inBuf ∧ t.qt = s.qt ∧ t.coef = s.coef ∧ t.out = s.out

theorem SameBuffers.refl (s : State) : SameBuffers s s := ⟨rfl, rfl, rfl, rfl⟩

theorem sameBuffers_setEnv (s : State) (e : Env) : SameBuffers s (s.setEnv e) := ⟨rfl, rfl, rfl, rfl⟩

/-- What a write of `w` at `off` that resets nothing can do to the buffers while BUSY = 0 (20_memory.md R61 to R67). -/
structure IdleWriteFrame (off : Offset) (w : Word) (s t : State) : Prop where
  inBuf : t.inBuf ≠ s.inBuf → ∃ i, region off = .inWord i
  qt : t.qt ≠ s.qt → (∃ k, region off = .qtWord k) ∨ (region off = .cmd ∧ decode w = .ok .qtdef)
  coef : t.coef ≠ s.coef → ∃ k, region off = .coefLow k ∨ region off = .coefHigh k
  out : t.out = s.out

theorem SameBuffers.idleWriteFrame_trans {off : Offset} {w : Word} {s u t : State} (h : SameBuffers s u)
    (hf : IdleWriteFrame off w u t) : IdleWriteFrame off w s t := by
  obtain ⟨hin, hqt, hcoef, hout⟩ := h
  exact ⟨hin ▸ hf.inBuf, hqt ▸ hf.qt, hcoef ▸ hf.coef, hout ▸ hf.out⟩

theorem SameBuffers.idleWriteFrame {s t : State} (h : SameBuffers s t) (off : Offset) (w : Word) :
    IdleWriteFrame off w s t := by
  obtain ⟨hin, hqt, hcoef, hout⟩ := h
  exact ⟨fun c => absurd hin c, fun c => absurd hqt c, fun c => absurd hcoef c, hout⟩

/-- A write outside CMD is a soft reset, or changes one buffer's word at most, and none while BUSY. -/
theorem writeRegion_buffers (off : Offset) (w : Word) (s : State) :
    HostEventResets (.write off w) ∨ SameBuffers s (writeRegion (region off) w s) ∨
    (s.status.busy = false ∧ IdleWriteFrame off w s (writeRegion (region off) w s)) := by
  rcases writeRegion_frame (region off) w s with ⟨hr, hw, -⟩ | ⟨hout, -, -, -, -, hbusy, hin, hqt, hcoef⟩
  · exact .inl ⟨hr, hw⟩
  right
  cases hb : s.status.busy
  · refine .inr ⟨rfl, fun c => ?_, fun c => .inl ?_, fun c => ?_, hout⟩
    · by_contra hn; exact c (hin (not_exists.1 hn))
    · by_contra hn; exact c (hqt (not_exists.1 hn))
    · by_contra hn; exact c (hcoef fun k => not_or.1 (not_exists.1 hn k))
  · obtain ⟨hin', hqt', hcoef'⟩ := hbusy hb
    exact .inl ⟨hin', hqt', hcoef', hout⟩

/-- A command issued while idle changes no buffer but QT, and QT only if it is QTDEF (43_control.md R181). -/
theorem exec_idle_buffers {off : Offset} {w : Word} {i : Instr} {s t : State} (hreg : region off = .cmd)
    (hdec : decode w = .ok i) (hb : s.status.busy = false) (h : exec i s = .next t) : IdleWriteFrame off w s t := by
  rcases exec_idle_cases hb h with rfl | ⟨rfl, rfl⟩ | ⟨e, -, rfl⟩ | ⟨-, -, -, rfl⟩
  case inr.inl => exact ⟨fun c => absurd rfl c, fun _ => .inr ⟨hreg, hdec⟩, fun c => absurd rfl c, rfl⟩
  all_goals
    refine SameBuffers.idleWriteFrame (s := s) ?_ off w
    exact ⟨rfl, rfl, rfl, rfl⟩

/-- What a step can do to the buffers: a completion, an event that resets, a host write while idle, or nothing. -/
theorem step_buffers {s t : State} (h : step s = .next t) :
    ((s.env.rstN = true ∧ s.status.busy = true ∧ s.env.remaining = 0) ∧ t.inBuf = s.inBuf ∧ t.qt = s.qt) ∨
    (HostTurn s ∧ ∃ e rest, s.env.host = e :: rest ∧ HostEventResets e) ∨
    (HostTurn s ∧ s.status.busy = false ∧ ∃ off w rest, s.env.host = .write off w :: rest ∧
      IdleWriteFrame off w s t) ∨
    SameBuffers s t := by
  rcases step_cases h with ⟨hr, rfl | ⟨e, rest, -, rfl⟩⟩ | ⟨hr, hb, h0, i, -, hc, he⟩ | ⟨-, -, rfl⟩ |
    ⟨-, off, rest, -, rfl⟩ | ⟨ht, off, w, rest, hh, -, rfl⟩ | ⟨ht, off, w, rest, hh, hreg, hcmd⟩ |
    ⟨-, rest, -, rfl⟩ | ⟨ht, level, rest, hh, rfl⟩
  · exact .inr (.inr (.inr (.refl _)))
  · obtain ⟨env, henv⟩ := heldInReset_eq_setEnv hr e rest
    exact .inr (.inr (.inr (henv ▸ sameBuffers_setEnv s env)))
  · rw [exec_busy hc hb] at he
    cases he
    exact .inl ⟨⟨hr, hb, h0⟩, rfl, rfl⟩
  · exact .inr (.inr (.inr (sameBuffers_setEnv s _)))
  · exact .inr (.inr (.inr (sameBuffers_setEnv s _)))
  · rcases writeRegion_buffers off w (taken rest s) with hres | hsame | ⟨hb, hframe⟩
    · exact .inr (.inl ⟨ht, _, rest, hh, hres⟩)
    · exact .inr (.inr (.inr hsame))
    · exact .inr (.inr (.inl ⟨ht, hb, off, w, rest, hh, (sameBuffers_setEnv s _).idleWriteFrame_trans hframe⟩))
  · rcases hcmd with ⟨-, rfl⟩ | ⟨hb, i, hdec, he⟩ | ⟨-, -, rfl⟩
    · exact .inr (.inr (.inr ⟨rfl, rfl, rfl, rfl⟩))
    · have hsame : SameBuffers s ((taken rest s).setLastCmd w) := ⟨rfl, rfl, rfl, rfl⟩
      have hframe := exec_idle_buffers (s := (taken rest s).setLastCmd w) hreg hdec hb he
      exact .inr (.inr (.inl ⟨ht, hb, off, w, rest, hh, hsame.idleWriteFrame_trans hframe⟩))
    · exact .inr (.inr (.inr ⟨rfl, rfl, rfl, rfl⟩))
  · refine .inr (.inr (.inr ?_))
    split <;> exact sameBuffers_setEnv s _
  · cases level
    · exact .inr (.inl ⟨ht, _, rest, hh, rfl⟩)
    · rw [resetPin_rise]
      exact .inr (.inr (.inr (sameBuffers_setEnv s _)))

/-! ### The invariant -/

/-- ERRCODE is 1, 2 or 3 while ERR is set and else 0 (10_state.md R30; 60_exceptions.md R206). -/
def ErrCodeLegal (t : Status) : Prop := if t.err then t.errCode ∈ [(1 : BitVec 3), 2, 3] else t.errCode = 0

theorem errCodeLegal_clearOutcome_ended (t : Status) : ErrCodeLegal t.clearOutcome.ended := rfl

theorem errCodeLegal_clearOutcome_accepted (t : Status) : ErrCodeLegal t.clearOutcome.accepted := rfl

/-- BLOCK_SIZE is the one error whose code the invariant does not allow (60_exceptions.md R206). -/
theorem errCodeLegal_raised (t : Status) {e : EngineError} (h : e ≠ .blockSize) : ErrCodeLegal (t.raised e) := by
  cases e
  case blockSize => exact absurd rfl h
  all_goals simp [ErrCodeLegal, EngineError.code]

/-- A STATUS write clears ERRCODE with ERR (60_exceptions.md R211). -/
theorem ErrCodeLegal.w1c {t : Status} (h : ErrCodeLegal t) (w : Word) : ErrCodeLegal (t.w1c w) := by
  cases hw : w[2]
  · simpa [ErrCodeLegal, hw] using h
  · simp [ErrCodeLegal, hw]

/-- Out of reset with BUSY = 0, the invariant is its clause on ERRCODE. -/
theorem inv_of_idle {s : State} (he : ErrCodeLegal s.status) (hb : s.status.busy = false) (hr : s.env.rstN = true) :
    Inv s :=
  { errCode := he
    busyClear := fun h => by simp [hb] at h
    busyCommand := fun h => by simp [hb] at h
    busyLast := fun h => by simp [hb] at h
    heldReset := fun h => by simp [hr] at h }

/-- The reset state meets the invariant in every environment. -/
theorem inv_engineReset_setEnv (s : State) (e : Env) : Inv ((engineReset s).setEnv e) :=
  { errCode := rfl
    busyClear := fun h => by cases h
    busyCommand := fun h => by cases h
    busyLast := fun h => by cases h
    heldReset := fun _ => rfl }

/-- The environment may change freely while `rst_n` stays 1 or the engine holds its reset values. -/
theorem inv_setEnv {s : State} (h : Inv s) {e : Env} (he : e.rstN = true ∨ engineIsReset s) : Inv (s.setEnv e) :=
  { errCode := h.errCode
    busyClear := h.busyClear
    busyCommand := h.busyCommand
    busyLast := h.busyLast
    heldReset := fun hr => by
      rcases he with he | he
      · exact absurd (he.symm.trans hr) (by decide)
      · have heq : s = engineReset s := he
        show s.setEnv e = (engineReset s).setEnv e
        rw [← heq] }

theorem inv_taken {s : State} (h : Inv s) (ht : HostTurn s) (rest : List HostEvent) : Inv (taken rest s) :=
  inv_setEnv h (.inl ht.1)

/-- Out of reset, a step that leaves BUSY, CUR_CMD and LASTCMD, leaves QT while BUSY, and shows no new outcome keeps the
invariant if it keeps ERRCODE legal. -/
theorem inv_of_frame {s t : State} (h : Inv s) (hr : t.env.rstN = true) (he : ErrCodeLegal t.status)
    (hbusy : t.status.busy = s.status.busy) (hdone : t.status.done = true → s.status.done = true)
    (herr : t.status.err = true → s.status.err = true) (hcur : t.curCmd = s.curCmd) (hlast : t.lastCmd = s.lastCmd)
    (hqt : s.status.busy = true → t.qt = s.qt) : Inv t where
  errCode := he
  busyClear hb := by
    obtain ⟨hd, hx⟩ := h.busyClear (hbusy ▸ hb)
    exact ⟨Bool.eq_false_iff.2 fun c => by simp [hdone c] at hd, Bool.eq_false_iff.2 fun c => by simp [herr c] at hx⟩
  busyCommand hb := by
    rw [hcur, hqt (hbusy ▸ hb)]
    exact h.busyCommand (hbusy ▸ hb)
  busyLast hb := by
    rw [hcur, hlast]
    exact h.busyLast (hbusy ▸ hb)
  heldReset hf := by simp [hr] at hf

/-- A write outside CMD keeps the invariant. -/
theorem inv_writeRegion {s : State} (h : Inv s) (hr : s.env.rstN = true) (r : Region) (w : Word) :
    Inv (writeRegion r w s) := by
  have hreset : Inv (engineReset s) := inv_engineReset_setEnv s s.env
  rcases writeRegion_frame r w s with ⟨-, -, heq⟩ | ⟨-, hlast, hcur, henv, hbusy, hbuf, -⟩
  · exact heq ▸ hreset
  have hqt := fun hb => (hbuf hb).2.1
  rcases writeRegion_status r w s with heq | hst | hst | hst
  · exact heq ▸ hreset
  · exact inv_of_frame h (henv ▸ hr) (hst ▸ h.errCode) hbusy (by simp [hst]) (by simp [hst]) hcur hlast hqt
  · exact inv_of_frame h (henv ▸ hr) (hst ▸ h.errCode) hbusy (by simp [hst]) (by simp [hst]) hcur hlast hqt
  · exact inv_of_frame h (henv ▸ hr) (hst ▸ ErrCodeLegal.w1c h.errCode w) hbusy (by simp [hst]; tauto)
      (by simp [hst]; tauto) hcur hlast hqt

/-- A command decoded from LASTCMD and issued while idle leaves a state that meets the invariant. -/
theorem inv_exec_idle {i : Instr} {s t : State} (hdec : decode s.lastCmd = .ok i) (hb : s.status.busy = false)
    (hr : s.env.rstN = true) (h : exec i s = .next t) : Inv t := by
  rcases exec_idle_cases hb h with rfl | ⟨-, rfl⟩ | ⟨e, hne, rfl⟩ | ⟨hc, hw, hz, rfl⟩
  · exact inv_of_idle (errCodeLegal_clearOutcome_ended _) hb hr
  · exact inv_of_idle (errCodeLegal_clearOutcome_ended _) hb hr
  · exact inv_of_idle (errCodeLegal_raised _ hne) hb hr
  · have henc : encode i = s.lastCmd := encode_of_decode_compute hdec hc
    exact
      { errCode := errCodeLegal_clearOutcome_accepted _
        busyClear := fun _ => ⟨rfl, rfl⟩
        busyCommand := fun _ => ⟨i, by simpa [henc] using hdec, hc, hw, hz⟩
        busyLast := fun _ => henc.symm
        heldReset := fun hf => absurd (hr.symm.trans hf) (by decide) }

/-- The completion of a command in flight keeps the invariant. -/
theorem inv_exec_busy {i : Instr} {s t : State} (h : Inv s) (hr : s.env.rstN = true) (hc : isCompute i = true)
    (hb : s.status.busy = true) (he : exec i s = .next t) : Inv t := by
  rw [exec_busy hc hb] at he
  cases he
  exact inv_of_idle h.errCode rfl hr

/-- A change of the reset pin keeps the invariant. -/
theorem inv_resetPin {s : State} (h : Inv s) (hr : s.env.rstN = true) (level : Bool) : Inv (resetPin level s) := by
  cases level
  · rw [resetPin_fall hr]
    exact inv_engineReset_setEnv s _
  · rw [resetPin_rise]
    exact inv_setEnv h (.inl rfl)

end Sys2Proof.Machine

namespace Sys2Proof

open Sys2Proof.Machine

/-- Settles O24, along the cases of a step: each kind of step keeps the invariant. -/
theorem stepKeepsInvariant : Obligations.StepKeepsInvariant := by
  intro s t hs h
  rcases step_cases h with ⟨hr, rfl | ⟨e, rest, -, rfl⟩⟩ | ⟨hr, hb, -, i, -, hc, he⟩ | ⟨ht, -, rfl⟩ |
    ⟨ht, off, rest, -, rfl⟩ | ⟨ht, off, w, rest, -, -, rfl⟩ | ⟨ht, off, w, rest, -, -, hcmd⟩ |
    ⟨ht, rest, -, rfl⟩ | ⟨ht, level, rest, -, rfl⟩
  · exact hs
  · obtain ⟨env, henv⟩ := heldInReset_eq_setEnv hr e rest
    rw [henv]
    exact inv_setEnv hs (.inr (hs.heldReset hr))
  · exact inv_exec_busy hs hr hc hb he
  · exact inv_setEnv hs (.inl ht.1)
  · exact inv_setEnv (inv_taken hs ht rest) (.inl ht.1)
  · exact inv_writeRegion (inv_taken hs ht rest) ht.1 _ w
  · rcases hcmd with ⟨-, rfl⟩ | ⟨hb, i, hdec, he⟩ | ⟨hb, -, rfl⟩
    · exact inv_of_frame (inv_taken hs ht rest) ht.1 hs.errCode rfl id id rfl rfl fun _ => rfl
    · exact inv_exec_idle (s := (taken rest s).setLastCmd w) hdec hb ht.1 he
    · exact inv_of_idle (errCodeLegal_raised _ (by decide)) hb ht.1
  · split
    · exact inv_setEnv hs (.inl ht.1)
    · exact inv_taken hs ht rest
  · exact inv_resetPin (inv_taken hs ht rest) ht.1 level

/-- Settles O20: of the ways a step touches the buffers, only a completion and a reset reach OUT. -/
theorem outChangesOnlyAtCompletionOrReset : Obligations.OutChangesOnlyAtCompletionOrReset := by
  intro s t h hne
  rcases step_buffers h with ⟨hdue, -, -⟩ | hres | ⟨-, -, off, w, rest, -, hframe⟩ | ⟨-, -, -, hout⟩
  · exact .inl hdue
  · exact .inr hres
  · exact absurd hframe.out hne
  · exact absurd hout hne

/-- Settles O21: the frame of an idle write names the offsets that reach each buffer. -/
theorem operandBuffersChangeOnlyWhileIdle : Obligations.OperandBuffersChangeOnlyWhileIdle := by
  intro s t h
  rcases step_buffers h with ⟨hdue, hin, hqt⟩ | ⟨ht, e, rest, hh, hres⟩ |
    ⟨ht, hb, off, w, rest, hh, hframe⟩ | ⟨hin, hqt, hcoef, -⟩
  · exact ⟨fun c => absurd hin c, fun c => absurd hqt c, fun _ => .inl hdue⟩
  · exact ⟨fun _ => ⟨ht, e, rest, hh, .inl hres⟩, fun _ => ⟨ht, e, rest, hh, .inl hres⟩,
      fun _ => .inr ⟨ht, e, rest, hh, .inl hres⟩⟩
  · obtain ⟨hinWord, hqtWord, hcoefWord⟩ := wordOffset_of_operand_word off
    refine ⟨fun c => ?_, fun c => ?_, fun c => .inr ?_⟩
    · obtain ⟨i, hi⟩ := hframe.inBuf c
      exact ⟨ht, _, rest, hh, .inr ⟨hb, off, w, rfl, hinWord i hi⟩⟩
    · refine ⟨ht, _, rest, hh, .inr ⟨hb, off, w, rfl, ?_⟩⟩
      rcases hframe.qt c with ⟨k, hk⟩ | ⟨hreg, hdec⟩
      · exact .inl (hqtWord k hk)
      · exact .inr ⟨(region_eq_cmd_iff off).1 hreg, hdec⟩
    · obtain ⟨k, hk⟩ := hframe.coef c
      exact ⟨ht, _, rest, hh, .inr ⟨hb, off, w, rfl, hcoefWord k hk⟩⟩
  · exact ⟨fun c => absurd hin c, fun c => absurd hqt c, fun c => absurd hcoef c⟩

/-- Settles O41: the bits of a STATUS word, before and after the W1C rule. -/
theorem statusWriteClearsItsBits : Obligations.StatusWriteClearsItsBits := by
  intro s off hoff
  have hreg := region_status hoff
  rw [hreg]
  refine ⟨fun b _ => s.status.getLsbD_word b, fun w rest ht hh => ?_⟩
  have hstep := step_write ht hh (by simp [hreg])
  rw [hreg] at hstep
  exact ⟨_, hstep, rfl, fun b _ => s.status.getLsbD_word_w1c w b⟩

/-- Settles O42: without SRST, CTRL takes the word's two enables; with it, the reset value. -/
theorem ctrlStoresItsEnables : Obligations.CtrlStoresItsEnables := by
  intro s off w rest ht hoff hh
  have hreg := region_ctrl hoff
  have hstep := step_write ht hh (by simp [hreg])
  rw [hreg] at hstep ⊢
  refine ⟨_, hstep, ?_⟩
  cases hw : w.getLsbD 31
  · rw [writeRegion_ctrl_store hw]
    exact ⟨Ctrl.word_ofWord w, fun _ => rfl⟩
  · rw [writeRegion_ctrl_reset hw]
    have hzero : Ctrl.reset.word = 0 := by decide
    exact ⟨hzero, fun h => by cases h⟩

/-- Settles O40: ID is no data of the state, and a write to it is served as nothing. -/
theorem idReadsItsConstant : Obligations.IdReadsItsConstant := by
  intro s off w rest hoff
  have hreg := region_id hoff
  refine ⟨by rw [hreg]; rfl, fun ht hh => ?_⟩
  rw [step_write ht hh (by simp [hreg]), hreg]
  rfl

end Sys2Proof
end

section
/-! PROOFS. The register window of 20_memory.md: where each region starts, what a read and a write there do while idle and
while BUSY, which words a write leaves alone, and the obligations O32 to O39. -/

namespace Sys2Proof.Machine

/-! ### The register map (20_memory.md R60) -/

/-- The word-aligned offset at which a region stands; the reserved ranges, which are many words, have none. -/
def Region.offset : Region → Option Nat
  | .id => some 0x000
  | .ctrl => some 0x004
  | .cmd => some 0x008
  | .status => some 0x00C
  | .inWord i => some (0x100 + 4 * i.val)
  | .qtWord k => some (0x200 + 4 * k.val)
  | .coefLow k => some (0x400 + 8 * k.val)
  | .coefHigh k => some (0x404 + 8 * k.val)
  | .outWord i => some (0x600 + 4 * i.val)
  | .reserved => none

/-- A region that is one word stands at its offset and nowhere else. -/
theorem region_eq_iff {off : Offset} {r : Region} {a : Nat} (ha : r.offset = some a) :
    region off = r ↔ wordOffset off = a := by
  constructor
  · rintro rfl
    rcases regionAt_cases off with c | c | c | c | ⟨i, c⟩ | ⟨k, c⟩ | ⟨k, c⟩ | ⟨k, c⟩ | ⟨i, c⟩ | c <;>
      obtain ⟨hreg, hoff⟩ := c <;> rw [hreg] at ha <;> cases ha
    all_goals exact hoff
  · intro h
    rw [region, h]
    cases r <;> cases ha
    case inWord.refl i => rw [regionAt_inWord (by omega)]; congr; omega
    case qtWord.refl k => rw [regionAt_qtWord (by omega)]; congr; omega
    case coefLow.refl k => rw [regionAt_coefLow (by omega) (by omega)]; congr; omega
    case coefHigh.refl k => rw [regionAt_coefHigh (by omega) (by omega)]; congr; omega
    case outWord.refl i => rw [regionAt_outWord (by omega)]; congr; omega
    all_goals rfl

/-- The words that a host write changes only while BUSY = 0: IN, QT and COEF (20_memory.md R67). -/
def Region.isOperand : Region → Bool
  | .id => false
  | .ctrl => false
  | .cmd => false
  | .status => false
  | .inWord _ => true
  | .qtWord _ => true
  | .coefLow _ => true
  | .coefHigh _ => true
  | .outWord _ => false
  | .reserved => false

/-- The three ranges of the operand buffers. -/
theorem isOperand_region_iff (off : Offset) : (region off).isOperand = true ↔
    (0x100 ≤ wordOffset off ∧ wordOffset off ≤ 0x13F) ∨ (0x200 ≤ wordOffset off ∧ wordOffset off ≤ 0x2FF) ∨
      (0x400 ≤ wordOffset off ∧ wordOffset off ≤ 0x5FF) := by
  rcases regionAt_cases off with c | c | c | c | ⟨i, c⟩ | ⟨k, c⟩ | ⟨k, c⟩ | ⟨k, c⟩ | ⟨i, c⟩ | c <;>
    obtain ⟨hreg, hoff⟩ := c <;> simp only [hreg, Region.isOperand, reduceCtorEq, true_iff, false_iff] <;> omega

/-- COEF and OUT are one range of offsets, and the one whose reads are drawn while BUSY (20_memory.md R68). -/
theorem drawnWhileBusy_region_iff (off : Offset) :
    (region off).drawnWhileBusy = true ↔ 0x400 ≤ wordOffset off ∧ wordOffset off ≤ 0x63F := by
  rcases regionAt_cases off with c | c | c | c | ⟨i, c⟩ | ⟨k, c⟩ | ⟨k, c⟩ | ⟨k, c⟩ | ⟨i, c⟩ | c <;>
    obtain ⟨hreg, hoff⟩ := c <;>
    simp only [hreg, Region.drawnWhileBusy, reduceCtorEq, true_iff, false_iff] <;> omega

/-- Distinct words of the window are distinct regions, where one of them is an operand word. -/
theorem region_ne_of_wordOffset_ne {off off' : Offset} (hop : (region off).isOperand = true)
    (h : wordOffset off' ≠ wordOffset off) : region off' ≠ region off := by
  intro heq
  obtain ⟨a, ha⟩ : ∃ a, (region off).offset = some a := by
    cases hr : region off <;> rw [hr] at hop <;> cases hop <;> exact ⟨_, rfl⟩
  exact h (((region_eq_iff ha).1 heq).trans ((region_eq_iff ha).1 rfl).symm)

/-! ### Reads (20_memory.md R68) -/

/-- When a read is a free draw. -/
theorem read_drawn_iff (off : Offset) (s : State) : (s.status.busy && (region off).drawnWhileBusy) = true ↔
    s.status.busy = true ∧ 0x400 ≤ wordOffset off ∧ wordOffset off ≤ 0x63F := by
  rw [Bool.and_eq_true, drawnWhileBusy_region_iff]

theorem busRead_drawn {off : Offset} {s : State} (h : (s.status.busy && (region off).drawnWhileBusy) = true) :
    busRead off s = Config.busyRead s.env.draws :=
  if_pos h

theorem busRead_current {off : Offset} {s : State} (h : (s.status.busy && (region off).drawnWhileBusy) = false) :
    busRead off s = readRegion (region off) s :=
  if_neg (Bool.eq_false_iff.1 h)

/-- What a region holds is no matter of the environment. -/
theorem readRegion_taken (r : Region) (rest : List HostEvent) (s : State) :
    readRegion r (taken rest s) = readRegion r s := by
  cases r <;> rfl

/-- 20_memory.md R64 for a read. -/
theorem readTransaction_and (off : Offset) (s : State) :
    readTransaction (off &&& 0xFFC) s = readTransaction off s := by
  simp only [readTransaction, busRead, region_and]

/-- 20_memory.md R64 for a write. -/
theorem writeTransaction_and (off : Offset) (w : Word) (s : State) :
    writeTransaction (off &&& 0xFFC) w s = writeTransaction off w s := by
  simp only [writeTransaction, region_and]

/-- A write at any offset, CMD included. -/
theorem step_writeTransaction {s : State} {off : Offset} {w : Word} {rest : List HostEvent} (h : HostTurn s)
    (hh : s.env.host = .write off w :: rest) : step s = runAction (writeTransaction off w (taken rest s)) := by
  rw [step, nextAction_access h hh]
  rfl

/-! ### Writes to the operand buffers (20_memory.md R62, R65, R66, R67) -/

/-- A dropped write (20_memory.md R67). -/
theorem writeRegion_operand_busy {r : Region} (h : r.isOperand = true) (w : Word) {s : State}
    (hb : s.status.busy = true) : writeRegion r w s = s.setStatus s.status.setWerr := by
  cases r <;> cases h <;> rw [writeRegion, guardedWrite_busy _ s hb]

section
variable {s : State} (hb : s.status.busy = false)
include hb

theorem writeRegion_inWord_idle (i : Fin 16) (w : Word) :
    writeRegion (.inWord i) w s = s.setIn (unpackBytes s.inBuf i w) := by
  rw [writeRegion, guardedWrite_idle _ s hb]

theorem writeRegion_qtWord_idle (k : Fin 64) (w : Word) :
    writeRegion (.qtWord k) w s = s.setQt (s.qt.set k (w.extractLsb' 0 16)) := by
  rw [writeRegion, guardedWrite_idle _ s hb]

theorem writeRegion_coefLow_idle (k : Fin 64) (w : Word) :
    writeRegion (.coefLow k) w s = s.setCoef (s.coef.set k (s.coef[k].extractLsb' 32 32 ++ w)) := by
  rw [writeRegion, guardedWrite_idle _ s hb]

theorem writeRegion_coefHigh_idle (k : Fin 64) (w : Word) :
    writeRegion (.coefHigh k) w s = s.setCoef (s.coef.set k (w ++ s.coef[k].extractLsb' 0 32)) := by
  rw [writeRegion, guardedWrite_idle _ s hb]

end

/-- A write to IN, QT or COEF is never a CMD write. -/
theorem step_operand_write {s : State} {off : Offset} {w : Word} {rest : List HostEvent} (ht : HostTurn s)
    (hh : s.env.host = .write off w :: rest) (hop : (region off).isOperand = true) :
    step s = .next (writeRegion (region off) w (taken rest s)) :=
  step_write ht hh fun hcmd => by rw [hcmd] at hop; cases hop

/-! ### What a written word reads (20_memory.md R62, R65, R66) -/

/-- The bytes of any word `i'` after word `i` was replaced. -/
theorem getElem_unpackBytes_byteIndex (b : Block Byte) (i i' : Fin 16) (w : Word) (j : Fin 4) :
    (unpackBytes b i w)[byteIndex i' j] = if i' = i then w.extractLsb' (8 * j.val) 8 else b[byteIndex i' j] := by
  have hdiv : (byteIndex i' j).val / 4 = i'.val := by simp only [byteIndex]; omega
  have hmod : (byteIndex i' j).val % 4 = j.val := by simp only [byteIndex]; omega
  rw [getElem_unpackBytes, hdiv, hmod]
  simp only [Fin.ext_iff]

/-- The four bytes of a word, the highest first, are the word. -/
theorem append_bytes (w : Word) :
    (w.extractLsb' 24 8 ++ w.extractLsb' 16 8) ++ (w.extractLsb' 8 8 ++ w.extractLsb' 0 8) = w := by
  rw [BitVec.extractLsb'_append_extractLsb'_eq_extractLsb' (start₂ := 24) rfl,
    BitVec.extractLsb'_append_extractLsb'_eq_extractLsb' (start₂ := 8) rfl,
    BitVec.extractLsb'_append_extractLsb'_eq_extractLsb' (start₂ := 16) rfl]
  exact BitVec.extractLsb'_eq_self

theorem packBytes_unpackBytes_same (b : Block Byte) (i : Fin 16) (w : Word) : packBytes (unpackBytes b i w) i = w := by
  simp only [packBytes, getElem_unpackBytes_byteIndex, if_true]
  exact append_bytes w

theorem packBytes_unpackBytes_of_ne (b : Block Byte) {i i' : Fin 16} (h : i' ≠ i) (w : Word) :
    packBytes (unpackBytes b i w) i' = packBytes b i' := by
  simp only [packBytes, getElem_unpackBytes_byteIndex, if_neg h]

/-- The low half of a word, zero-extended (20_memory.md R66). -/
theorem zeroExtend_extractLsb'_low (w : Word) : (w.extractLsb' 0 16).zeroExtend 32 = w &&& 0x0000FFFF := by
  apply BitVec.eq_of_getLsbD_eq
  intro b hb
  interval_cases b <;> simp

/-- The low word of a coefficient whose halves are `hi` and `lo` (20_memory.md R65). -/
theorem readRegion_coefLow_setCoef_append (s : State) (k : Fin 64) (hi lo : Word) :
    readRegion (.coefLow k) (s.setCoef (s.coef.set k (hi ++ lo))) = lo := by
  simp only [readRegion, State.coef_setCoef, getElem_set_fin, if_true]
  exact BitVec.extractLsb'_append_eq_right

/-- The high word of a coefficient whose halves are `hi` and `lo` (20_memory.md R65). -/
theorem readRegion_coefHigh_setCoef_append (s : State) (k : Fin 64) (hi lo : Word) :
    readRegion (.coefHigh k) (s.setCoef (s.coef.set k (hi ++ lo))) = hi := by
  simp only [readRegion, State.coef_setCoef, getElem_set_fin, if_true]
  exact BitVec.extractLsb'_append_eq_left

/-- A QT word reads back its low half. -/
theorem readRegion_writeRegion_qtWord {s : State} (hb : s.status.busy = false) (k : Fin 64) (w : Word) :
    readRegion (.qtWord k) (writeRegion (.qtWord k) w s) = w &&& 0x0000FFFF := by
  rw [writeRegion_qtWord_idle hb, ← zeroExtend_extractLsb'_low]
  simp [readRegion]

/-- A word of IN or COEF reads back whole. -/
theorem readRegion_writeRegion_same {r : Region} (hop : r.isOperand = true) (hqt : ∀ k, r ≠ .qtWord k) {s : State}
    (hb : s.status.busy = false) (w : Word) : readRegion r (writeRegion r w s) = w := by
  cases r <;> cases hop
  case inWord i => rw [writeRegion_inWord_idle hb]; exact packBytes_unpackBytes_same _ i w
  case qtWord k => exact absurd rfl (hqt k)
  case coefLow k =>
    rw [writeRegion_coefLow_idle hb, readRegion_coefLow_setCoef_append]
  case coefHigh k =>
    rw [writeRegion_coefHigh_idle hb, readRegion_coefHigh_setCoef_append]

/-! ### What a write leaves alone (20_memory.md R60) -/

/-- A change of one coefficient shows in its two words only. -/
theorem readRegion_setCoef_set (s : State) (k : Fin 64) (c : F64) {r : Region} (hlow : r ≠ .coefLow k)
    (hhigh : r ≠ .coefHigh k) : readRegion r (s.setCoef (s.coef.set k c)) = readRegion r s := by
  cases r
  case coefLow m =>
    have hm : m ≠ k := fun h => hlow (congrArg _ h)
    simp only [readRegion, State.coef_setCoef, getElem_set_fin, if_neg hm]
  case coefHigh m =>
    have hm : m ≠ k := fun h => hhigh (congrArg _ h)
    simp only [readRegion, State.coef_setCoef, getElem_set_fin, if_neg hm]
  all_goals rfl

/-- A write of an operand word while idle changes no other region. -/
theorem readRegion_writeRegion_of_ne {r r' : Region} (hop : r.isOperand = true) (hne : r' ≠ r) {s : State}
    (hb : s.status.busy = false) (w : Word) : readRegion r' (writeRegion r w s) = readRegion r' s := by
  cases r <;> cases hop
  case inWord i =>
    rw [writeRegion_inWord_idle hb]
    cases r'
    case inWord m => exact packBytes_unpackBytes_of_ne _ (fun h => hne (congrArg _ h)) w
    all_goals rfl
  case qtWord k =>
    rw [writeRegion_qtWord_idle hb]
    cases r'
    case qtWord m =>
      have hm : m ≠ k := fun h => hne (congrArg _ h)
      simp only [readRegion, State.qt_setQt, getElem_set_fin, if_neg hm]
    all_goals rfl
  case coefLow k =>
    rw [writeRegion_coefLow_idle hb]
    by_cases hhigh : r' = .coefHigh k
    · subst hhigh
      rw [readRegion_coefHigh_setCoef_append]
      rfl
    · exact readRegion_setCoef_set s k _ hne hhigh
  case coefHigh k =>
    rw [writeRegion_coefHigh_idle hb]
    by_cases hlow : r' = .coefLow k
    · subst hlow
      rw [readRegion_coefLow_setCoef_append]
      rfl
    · exact readRegion_setCoef_set s k _ hlow hne

end Sys2Proof.Machine

namespace Sys2Proof

open Sys2Proof.Machine

/-- Settles O32: a read notes its word in the environment, and the offset and BUSY say which word it is. -/
theorem readsHaveNoSideEffect : Obligations.ReadsHaveNoSideEffect := by
  intro s off rest ht hh
  refine ⟨_, busRead off (taken rest s), step_read ht hh, rfl, rfl, rfl, ?_⟩
  have hiff := read_drawn_iff off s
  split_ifs with h
  · have hdrawn := hiff.2 h
    exact ⟨busRead_drawn (s := taken rest s) hdrawn, if_pos hdrawn⟩
  · have hcurrent := Bool.eq_false_iff.2 (mt hiff.1 h)
    rw [busRead_current (s := taken rest s) hcurrent, readRegion_taken]
    exact ⟨rfl, if_neg (mt hiff.1 h)⟩

/-- Settles O33: no region that answers 0, ID or OUT is one that a write changes. -/
theorem reservedAndReadOnlyOffsets : Obligations.ReservedAndReadOnlyOffsets := by
  intro s off rest ht
  refine ⟨fun hoff => ?_, fun hoff w hh => ?_⟩
  · have hreg : region off = .reserved := regionAt_reserved (by omega)
    rw [hreg]
    refine ⟨rfl, fun w hh => ?_⟩
    rw [step_write ht hh (by simp [hreg]), hreg]
    rfl
  · rcases hoff with hid | hout
    · exact (idReadsItsConstant s off w rest hid).2 ht hh
    · have hreg : region off = .outWord _ := regionAt_outWord (by omega)
      rw [step_write ht hh (by simp [hreg]), hreg]
      rfl

/-- Settles O34: a step sees the offset of an access only through its region. -/
theorem lowAddressBitsAreIgnored : Obligations.LowAddressBitsAreIgnored := by
  intro s off rest w ht
  have hturn : ∀ e, HostTurn (s.setEnv (s.env.setHost (e :: rest))) := fun _ => ht
  constructor
  · rw [step_read (hturn _) rfl, step_read (hturn _) rfl, readTransaction_and]
    rfl
  · rw [step_writeTransaction (hturn _) rfl, step_writeTransaction (hturn _) rfl, writeTransaction_and]
    rfl

/-- Settles O35: byte `j` of a packed word is entry `4i + j`, and unpacking a word replaces those four entries. -/
theorem byteBuffersAreLittleEndian : Obligations.ByteBuffersAreLittleEndian := by
  intro s i off j
  refine ⟨fun hoff => ?_, fun hoff => ?_⟩
  · have hreg : region off = .inWord i := (region_eq_iff rfl).2 hoff
    rw [hreg]
    refine ⟨extractLsb'_packBytes s.inBuf i j, fun w rest ht hb hh => ?_⟩
    rw [step_operand_write ht hh (by rw [hreg]; rfl), hreg, writeRegion_inWord_idle (s := taken rest s) hb]
    exact ⟨_, rfl, rfl, getElem_unpackBytes s.inBuf i w⟩
  · have hreg : region off = .outWord i := (region_eq_iff rfl).2 hoff
    rw [hreg]
    exact extractLsb'_packBytes s.out i j

/-- Settles O36: the low and the high word of a coefficient are two regions. -/
theorem coefficientsAreLowWordFirst : Obligations.CoefficientsAreLowWordFirst := by
  intro s k off rest w ht hb
  refine ⟨fun hoff => ?_, fun hoff => ?_⟩
  · have hreg : region off = .coefLow k := (region_eq_iff rfl).2 hoff
    refine ⟨by rw [hreg]; rfl, fun hh => ?_⟩
    rw [step_operand_write ht hh (by rw [hreg]; rfl), hreg, writeRegion_coefLow_idle (s := taken rest s) hb]
    rfl
  · have hreg : region off = .coefHigh k := (region_eq_iff rfl).2 hoff
    refine ⟨by rw [hreg]; rfl, fun hh => ?_⟩
    rw [step_operand_write ht hh (by rw [hreg]; rfl), hreg, writeRegion_coefHigh_idle (s := taken rest s) hb]
    rfl

/-- Settles O37: a QT entry is one region, and no divisor is refused. -/
theorem divisorsAreOneAWord : Obligations.DivisorsAreOneAWord := by
  intro s k off rest w hoff
  have hreg : region off = .qtWord k := (region_eq_iff rfl).2 hoff
  refine ⟨by rw [hreg]; rfl, fun ht hb hh => ?_⟩
  rw [step_operand_write ht hh (by rw [hreg]; rfl), hreg, writeRegion_qtWord_idle (s := taken rest s) hb]
  rfl

/-- Settles O38: the written region reads back, and another word is another region. -/
theorem writesReachOnlyTheirWord : Obligations.WritesReachOnlyTheirWord := by
  intro s off off' rest w ht hb hh hrange
  have hop := (isOperand_region_iff off).2 hrange
  have hidle : (taken rest s).status.busy = false := hb
  refine ⟨_, step_operand_write ht hh hop, ?_, fun hne => ?_⟩
  · split_ifs with hqt
    · have hreg : region off = .qtWord _ := regionAt_qtWord hqt
      rw [hreg]
      exact readRegion_writeRegion_qtWord hidle _ w
    · have hnoQt : ∀ k, region off ≠ .qtWord k := fun k hk => hqt ((wordOffset_of_operand_word off).2.1 k hk)
      exact readRegion_writeRegion_same hop hnoQt hidle w
  · rw [readRegion_writeRegion_of_ne hop (region_ne_of_wordOffset_ne hop hne) hidle, readRegion_taken]

/-- Settles O39: only the operand words look at BUSY; CTRL and STATUS are written as they are while idle. -/
theorem bufferWritesWhileBusyAreDropped : Obligations.BufferWritesWhileBusyAreDropped := by
  intro s off rest w ht hb hh
  refine ⟨fun hrange => ?_, fun hoff hw => ?_, fun hoff hw => ?_, fun hoff => ?_⟩
  · have hop := (isOperand_region_iff off).2 hrange
    rw [step_operand_write ht hh hop, writeRegion_operand_busy hop w (s := taken rest s) hb]
    rfl
  · have hreg := region_ctrl hoff
    rw [step_write ht hh (by simp [hreg]), hreg, writeRegion_ctrl_store hw]
    rfl
  · have hreg := region_ctrl hoff
    rw [step_write ht hh (by simp [hreg]), hreg, writeRegion_ctrl_reset hw]
    rfl
  · have hreg := region_status hoff
    rw [step_write ht hh (by simp [hreg]), hreg]
    rfl

end Sys2Proof
end

section
/-! PROOFS. The command word of 30_encoding.md: the masks of a written word, decoding a word from its fields, the words
and the case of letters of the assembler, and the obligations O1 to O4 and O57. -/

namespace Sys2Proof.Machine

/-! ### Written words under a mask (30_encoding.md R84) -/

/-- A written word has no bit under the mask of the reserved bits. -/
theorem commandWord_and_reservedMask (vh vw op : BitVec 4) : commandWord vh vw op &&& 0xFFFF00F0 = 0 := by
  apply BitVec.eq_of_getLsbD_eq
  intro n hn
  simp only [commandWord, BitVec.getLsbD_and, BitVec.getLsbD_append]
  interval_cases n <;> simp

/-- A written word under the mask of R84 is its opcode: VW and VH lie outside the mask. -/
theorem commandWord_and_opcodeMask (vh vw op : BitVec 4) :
    commandWord vh vw op &&& 0xFFFF00FF = op.zeroExtend 32 := by
  apply BitVec.eq_of_getLsbD_eq
  intro n hn
  simp only [commandWord, BitVec.getLsbD_and, BitVec.getLsbD_append, BitVec.truncate_eq_setWidth,
    BitVec.getLsbD_setWidth]
  interval_cases n <;> simp

/-- The low four bits of any word are the word of its opcode without operands. -/
theorem and_opMask (w : Word) : w &&& 0x0000000F = commandWord 0 0 (opField w) := by
  apply BitVec.eq_of_getLsbD_eq
  intro n hn
  simp only [commandWord, opField, BitVec.getLsbD_and, BitVec.getLsbD_append, BitVec.getLsbD_extractLsb']
  interval_cases n <;> simp

/-- The mask of R84 keeps OP and the reserved fields. -/
theorem fields_and_opcodeMask (w : Word) :
    opField (w &&& 0xFFFF00FF) = opField w ∧ rsv0Field (w &&& 0xFFFF00FF) = rsv0Field w ∧
    rsv1Field (w &&& 0xFFFF00FF) = rsv1Field w := by
  refine ⟨?_, ?_, ?_⟩
  all_goals
    apply BitVec.eq_of_getLsbD_eq
    intro n hn
    simp only [opField, rsv0Field, rsv1Field, BitVec.getLsbD_and, BitVec.getLsbD_extractLsb']
    interval_cases n <;> simp

/-- The pair (`op`, 0xFFFF00FF) selects the words with that opcode and no reserved bit. -/
theorem and_opcodeMask_eq_iff (w : Word) (op : BitVec 4) :
    w &&& 0xFFFF00FF = op.zeroExtend 32 ↔ rsv1Field w = 0 ∧ rsv0Field w = 0 ∧ opField w = op := by
  constructor
  · intro h
    obtain ⟨hop, h0, h1⟩ := fields_and_opcodeMask w
    obtain ⟨hop', h0', h1'⟩ := fields_and_opcodeMask (commandWord 0 0 op)
    rw [commandWord_and_opcodeMask, ← h] at hop' h0' h1'
    exact ⟨by rw [← h1, h1', rsv1Field_commandWord], by rw [← h0, h0', rsv0Field_commandWord],
      by rw [← hop, hop', opField_commandWord]⟩
  · rintro ⟨h1, h0, rfl⟩
    conv_lhs => rw [word_eq_commandWord h1 h0]
    exact commandWord_and_opcodeMask _ _ _

/-! ### Decoding by the fields (30_encoding.md R85) -/

/-- A word with no reserved bit decodes to the command that its opcode, VW and VH spell: the converse of `decode_ok`. -/
theorem decode_of_fields {w : Word} {i : Instr} (h1 : rsv1Field w = 0) (h0 : rsv0Field w = 0)
    (hop : opField w = i.opcode)
    (hi : i = .nop ∨ i = .dct (vwField w) (vhField w) ∨ i = .dctq (vwField w) (vhField w) ∨
      i = .quant (vwField w) (vhField w) ∨ i = .pack (vwField w) (vhField w) ∨ i = .qtdef) :
    decode w = .ok i := by
  rw [decode, if_neg (by simp [h1, h0]), hop]
  rcases hi with rfl | rfl | rfl | rfl | rfl | rfl <;> rfl

/-- Every command's word carries its opcode and no reserved bit. -/
theorem encode_fields (i : Instr) : Laws.EncodedWord.Statement i := by
  cases i with
  | nop => exact Laws.EncodedWord.nop
  | dct vw vh => exact Laws.EncodedWord.dct vw vh
  | dctq vw vh => exact Laws.EncodedWord.dctq vw vh
  | quant vw vh => exact Laws.EncodedWord.quant vw vh
  | pack vw vh => exact Laws.EncodedWord.pack vw vh
  | qtdef => exact Laws.EncodedWord.qtdef

/-- A word decodes to a command of a given legal opcode exactly when its fields say so. -/
theorem exists_decode_opcode_iff (w : Word) {op : BitVec 4} (hop : op.toNat < 6) :
    (∃ i, decode w = .ok i ∧ i.opcode = op) ↔ rsv1Field w = 0 ∧ rsv0Field w = 0 ∧ opField w = op := by
  constructor
  · rintro ⟨i, hdec, rfl⟩
    obtain ⟨h1, h0, hopc, -⟩ := decode_ok hdec
    exact ⟨h1, h0, hopc⟩
  · rintro ⟨h1, h0, rfl⟩
    cases hdec : decode w with
    | ok i => exact ⟨i, rfl, (decode_ok hdec).2.2.1.symm⟩
    | error e =>
      rcases (decode_error_iff w).1 ⟨e, hdec⟩ with hr | hr | hr
      · exact absurd h1 hr
      · exact absurd h0 hr
      · omega

/-- A command without operands is the OP field of every word that decodes to it (30_encoding.md R83). -/
theorem encode_of_decode_bare {w : Word} {i : Instr} (h : decode w = .ok i) (hc : isCompute i = false) :
    encode i = w &&& 0x0000000F := by
  rw [and_opMask, (decode_ok h).2.2.1]
  cases i
  case nop => rfl
  case qtdef => rfl
  all_goals cases hc

/-! ### The words of the assembler (30_encoding.md R87) -/

/-- A written word as a number: `(vh << 12) | (vw << 8) | op`. -/
theorem commandWord_ofNat {vw vh : Nat} (hw : vw < 16) (hh : vh < 16) (op : BitVec 4) :
    commandWord (BitVec.ofNat 4 vh) (BitVec.ofNat 4 vw) op =
      BitVec.ofNat 32 (vh * 2 ^ 12 + vw * 2 ^ 8 + op.toNat) := by
  apply BitVec.eq_of_toNat_eq
  have hop := op.isLt
  simp only [commandWord, BitVec.toNat_append, BitVec.toNat_ofNat, Nat.zero_mod, Nat.zero_shiftLeft,
    Nat.zero_or, Nat.mod_eq_of_lt hw, Nat.mod_eq_of_lt hh]
  rw [← Nat.shiftLeft_add_eq_or_of_lt (show op.toNat < 2 ^ (4 + 4) by omega),
    ← Nat.shiftLeft_add_eq_or_of_lt (by omega)]
  omega

/-- A compute line with both operands in 1..8 gives the word of R87. -/
theorem map_encode_asmDims {vw vh : Nat} (h : 1 ≤ vw ∧ vw ≤ 8 ∧ 1 ≤ vh ∧ vh ≤ 8)
    (cmd : BitVec 4 → BitVec 4 → Instr) (op : BitVec 4) (hcmd : ∀ x y, encode (cmd x y) = commandWord y x op) :
    (asmDims (some (vw, vh))).map (fun d => encode (cmd d.1 d.2)) =
      some (BitVec.ofNat 32 (vh * 2 ^ 12 + vw * 2 ^ 8 + op.toNat)) := by
  rw [asmDims, if_pos h, Option.map_some, hcmd, commandWord_ofNat (by omega) (by omega)]

/-- A compute line with an operand outside 1..8 has no fields. -/
theorem asmDims_eq_none {vw vh : Nat} (h : ¬(1 ≤ vw ∧ vw ≤ 8 ∧ 1 ≤ vh ∧ vh ≤ 8)) :
    asmDims (some (vw, vh)) = none :=
  if_neg h

/-- `.word` with the number of a word gives the word. -/
theorem assemble_word_toNat (w : Word) : assemble (.word w.toNat) = some w := by
  rw [assemble, if_pos w.isLt, BitVec.ofNat_toNat, BitVec.setWidth_eq]

/-! ### Letters of either case (30_encoding.md R87) -/

theorem toLower_of_not_upper {c : Char} (h : ¬(65 ≤ c.toNat ∧ c.toNat ≤ 90)) : c.toLower = c :=
  dif_neg h

theorem toNat_toLower_of_upper {c : Char} (h : 65 ≤ c.toNat ∧ c.toNat ≤ 90) : c.toLower.toNat = c.toNat + 32 := by
  have hsmall : c.val.toNat ≤ 90 := h.2
  calc c.toLower.toNat = (c.val + 32).toNat := congrArg Char.toNat (dif_pos h)
    _ = (c.val.toNat + 32) % 2 ^ 32 := UInt32.toNat_add _ _
    _ = c.val.toNat + 32 := by omega

@[simp] theorem toLower_toLower (c : Char) : c.toLower.toLower = c.toLower := by
  by_cases h : 65 ≤ c.toNat ∧ c.toNat ≤ 90
  · apply toLower_of_not_upper
    rw [toNat_toLower_of_upper h]
    omega
  · rw [toLower_of_not_upper h, toLower_of_not_upper h]

/-- No letter becomes a character before the letters, such as a blank or a comma. -/
theorem toLower_eq_iff (c : Char) {d : Char} (hd : d.toNat < 65) : c.toLower = d ↔ c = d := by
  by_cases h : 65 ≤ c.toNat ∧ c.toNat ≤ 90
  · have hlow := toNat_toLower_of_upper h
    constructor
    · rintro rfl; omega
    · rintro rfl; omega
  · rw [toLower_of_not_upper h]

/-- A line in lower case has the pieces of the line. -/
theorem tokens_map_toLower (cur text : List Char) : tokens cur (text.map Char.toLower) = tokens cur text := by
  induction text generalizing cur with
  | nil => rfl
  | cons c rest ih =>
    have hspace := toLower_eq_iff c (d := ' ') (by decide)
    have htab := toLower_eq_iff c (d := '\t') (by decide)
    have hcomma := toLower_eq_iff c (d := ',') (by decide)
    simp only [List.map_cons, tokens, hspace, htab, hcomma, toLower_toLower, ih]

end Sys2Proof.Machine

namespace Sys2Proof

open Sys2Proof.Machine

/-- Settles O1, by evaluating the decoder on each of the nine words. -/
theorem decodeReadsWrittenWords : Obligations.DecodeReadsWrittenWords := by
  unfold Obligations.DecodeReadsWrittenWords
  decide

/-- Settles O2: each command's word holds its opcode, its operands and no reserved bit. -/
theorem decodeOfEncode : Obligations.DecodeOfEncode := by
  intro i
  obtain ⟨hop, h0, h1⟩ := encode_fields i
  refine decode_of_fields h1 h0 hop ?_
  cases i <;> simp [encode]

/-- Settles O3: a compute command keeps every field of its word, NOP and QTDEF the opcode only. -/
theorem encodeOfDecode : Obligations.EncodeOfDecode := by
  intro w i h
  split_ifs with hc
  · exact encode_of_decode_compute h hc
  · exact encode_of_decode_bare h (Bool.eq_false_iff.2 hc)

/-- Settles O4: a word that decodes is a written word, and the mask reads the fields that select the command. -/
theorem commandsMatchTheirMask : Obligations.CommandsMatchTheirMask := by
  refine ⟨fun w i h => ?_, fun w op hop => ?_, fun vh vw => ?_, fun i => ?_, ?_⟩
  · obtain ⟨h1, h0, -⟩ := decode_ok h
    rw [word_eq_commandWord h1 h0]
    exact commandWord_and_reservedMask _ _ _
  · rw [exists_decode_opcode_iff w hop, and_opcodeMask_eq_iff]
  · exact commandWord_and_opcodeMask vh vw 0
  · have hzero : decode 0 = .ok .nop := decodeOfEncode .nop
    rw [hzero]
    exact ⟨fun h => (Except.ok.inj h).symm, fun h => congrArg _ h.symm⟩
  · exact decodeOfEncode .nop

/-- Settles O57: the four compute lines share their operand check, and the pieces of a line are in lower case. -/
theorem assemblerEncodesLegalLines : Obligations.AssemblerEncodesLegalLines := by
  refine ⟨fun vw vh => ?_, rfl, rfl, rfl, rfl, rfl, rfl, assemble_word_toNat, fun text => ?_⟩
  · split_ifs with h
    · exact ⟨map_encode_asmDims h .dct 1 fun _ _ => rfl, map_encode_asmDims h .dctq 2 fun _ _ => rfl,
        map_encode_asmDims h .quant 3 fun _ _ => rfl, map_encode_asmDims h .pack 4 fun _ _ => rfl⟩
    · simp [assemble, asmDims_eq_none h]
  · rw [assembleText, assembleText, parseLine, parseLine, tokens_map_toLower]

end Sys2Proof
end

section
/-! PROOFS. The command protocol of 40_command_protocol.md: what a CMD write, a completion and a command in flight do,
that only a completion with no command could stop the machine, and the obligations O5 to O7, O12, O19, O22, O25 and O27
to O29. -/

namespace Sys2Proof.Machine

/-! ### CMD writes and the completion step -/

/-- Out of reset and idle, the next step is the HOST's. -/
theorem hostTurn_of_idle {s : State} (hr : s.env.rstN = true) (hb : s.status.busy = false) : HostTurn s :=
  ⟨hr, fun h => by simp [hb] at h⟩

/-- A CMD write while BUSY is dropped (40_command_protocol.md R102). -/
theorem cmdWrite_busy (w : Word) {s : State} (hb : s.status.busy = true) :
    cmdWrite w s = .settle (s.setStatus s.status.setOvr) :=
  if_pos hb

/-- A CMD write while idle runs the command its word spells (40_command_protocol.md R100). -/
theorem cmdWrite_idle {w : Word} {i : Instr} {s : State} (hb : s.status.busy = false) (hdec : decode w = .ok i) :
    cmdWrite w s = .run i (s.setLastCmd w) := by
  simp [cmdWrite, hb, hdec]

/-- A CMD write while idle of a word that spells no command is an error (60_exceptions.md R203). -/
theorem cmdWrite_illegal {w : Word} {e : DecodeError} {s : State} (hb : s.status.busy = false)
    (hdec : decode w = .error e) :
    cmdWrite w s = .settle ((s.setLastCmd w).setStatus (s.status.clearOutcome.raised .illegalCmd)) := by
  simp [cmdWrite, hb, hdec, raiseError]

/-- The step on a CMD write of a command while idle is that command's issue step. -/
theorem step_issue {s : State} {off : Offset} {w : Word} {rest : List HostEvent} {i : Instr} (hr : s.env.rstN = true)
    (hb : s.status.busy = false) (hh : s.env.host = .write off w :: rest) (hreg : region off = .cmd)
    (hdec : decode w = .ok i) : step s = exec i ((taken rest s).setLastCmd w) := by
  rw [step_cmdWrite (hostTurn_of_idle hr hb) hh hreg, cmdWrite_idle (s := taken rest s) hb hdec]
  rfl

/-- The step on which a completion is due is the completion step of the command in CUR_CMD. -/
theorem step_due {s : State} {i : Instr} (hr : s.env.rstN = true) (hb : s.status.busy = true)
    (h0 : s.env.remaining = 0) (hdec : decode s.curCmd = .ok i) (hc : isCompute i = true) : step s = exec i s := by
  rw [step_engine hr hb h0]
  simp [engineStep, hdec, hc, runAction]

/-! ### Which steps answer -/

/-- A CMD write always answers, whatever its word. -/
theorem runAction_cmdWrite_next (w : Word) (s : State) : ∃ t, runAction (cmdWrite w s) = .next t := by
  cases hb : s.status.busy
  · cases hdec : decode w with
    | ok i => rw [cmdWrite_idle hb hdec]; exact exec_next i _
    | error e => rw [cmdWrite_illegal hb hdec]; exact ⟨_, rfl⟩
  · rw [cmdWrite_busy w hb]; exact ⟨_, rfl⟩

/-- On the HOST's turn the machine does not stop, whatever the access. -/
theorem step_hostTurn_next {s : State} (ht : HostTurn s) : ∃ t, step s = .next t := by
  cases hh : s.env.host with
  | nil => exact ⟨_, step_idle ht hh⟩
  | cons e rest =>
    cases e with
    | read off => exact ⟨_, step_read ht hh⟩
    | write off w =>
      by_cases hreg : region off = .cmd
      · rw [step_cmdWrite ht hh hreg]; exact runAction_cmdWrite_next w _
      · exact ⟨_, step_write ht hh hreg⟩
    | wait => exact ⟨_, step_wait ht hh⟩
    | rst level => exact ⟨_, step_rst ht hh⟩

/-- A machine held in reset does not stop. -/
theorem step_held_next {s : State} (hr : s.env.rstN = false) : ∃ t, step s = .next t := by
  cases hh : s.env.host with
  | nil => exact ⟨_, step_held_nil hr hh⟩
  | cons e rest => exact ⟨_, step_held hr hh⟩

/-! ### While a command is in flight -/

/-- What a step keeps while it leaves a command in flight (40_command_protocol.md R101). -/
structure StaysInFlight (s t : State) : Prop where
  buffers : SameBuffers s t
  curCmd : t.curCmd = s.curCmd
  lastCmd : t.lastCmd = s.lastCmd
  busy : t.status.busy = s.status.busy
  err : t.status.err = true → s.status.err = true

theorem StaysInFlight.refl (s : State) : StaysInFlight s s := ⟨.refl s, rfl, rfl, rfl, id⟩

theorem staysInFlight_setEnv (s : State) (e : Env) : StaysInFlight s (s.setEnv e) :=
  ⟨sameBuffers_setEnv s e, rfl, rfl, rfl, id⟩

theorem StaysInFlight.trans {s t u : State} (h : StaysInFlight s t) (h' : StaysInFlight t u) : StaysInFlight s u := by
  obtain ⟨⟨hin, hqt, hcoef, hout⟩, hcur, hlast, hbusy, herr⟩ := h
  obtain ⟨⟨hin', hqt', hcoef', hout'⟩, hcur', hlast', hbusy', herr'⟩ := h'
  exact ⟨⟨hin'.trans hin, hqt'.trans hqt, hcoef'.trans hcoef, hout'.trans hout⟩, hcur'.trans hcur,
    hlast'.trans hlast, hbusy'.trans hbusy, herr ∘ herr'⟩

/-- A write outside CMD while BUSY is a soft reset, or leaves the command in flight. -/
theorem writeRegion_inFlight (off : Offset) (w : Word) {s : State} (hb : s.status.busy = true) :
    (HostEventResets (.write off w) ∧ writeRegion (region off) w s = engineReset s) ∨
    (StaysInFlight s (writeRegion (region off) w s) ∧ (writeRegion (region off) w s).env = s.env) := by
  rcases writeRegion_frame (region off) w s with ⟨hr, hw, heq⟩ | ⟨hout, hlast, hcur, henv, hbusy, hbuf, -⟩
  · exact .inl ⟨⟨hr, hw⟩, heq⟩
  obtain ⟨hin, hqt, hcoef⟩ := hbuf hb
  refine .inr ⟨⟨⟨hin, hqt, hcoef, hout⟩, hcur, hlast, hbusy, ?_⟩, henv⟩
  rcases writeRegion_status (region off) w s with heq | hst | hst | hst
  · simp [heq, Status.reset]
  · simp [hst]
  · simp [hst]
  · simp +contextual [hst]

/-- One step of the wait for a completion: `rst_n` stays 1, a step has passed, and the accesses to come are what is left. -/
structure OneStepWaited (e e' : Env) : Prop where
  rstN : e'.rstN = true
  remaining : e'.remaining = e.remaining - 1
  host : e'.host ⊆ e.host

theorem oneStepWaited_tick {e : Env} (hr : e.rstN = true) : OneStepWaited e e.tick :=
  ⟨hr, rfl, List.Subset.refl _⟩

theorem oneStepWaited_taken {s : State} {e : HostEvent} {rest : List HostEvent} (hr : s.env.rstN = true)
    (hh : s.env.host = e :: rest) : OneStepWaited s.env (taken rest s).env :=
  ⟨hr, rfl, fun _ he => hh ▸ List.mem_cons_of_mem e he⟩

theorem OneStepWaited.noteRead {e e' : Env} (h : OneStepWaited e e') (w : Word) (drawn : Bool) :
    OneStepWaited e (e'.noteRead w drawn) :=
  ⟨h.rstN, h.remaining, h.host⟩

/-- Everything a step can be while a command is in flight: its completion, an event in reset, a reset, or a step of
waiting. -/
theorem step_inFlight_cases {s t : State} (hb : s.status.busy = true) (h : step s = .next t) :
    (s.env.remaining = 0 ∧ t.status.busy = false) ∨
    (s.env.rstN = false ∧ StaysInFlight s t) ∨
    ((∃ e ∈ s.env.host, HostEventResets e) ∧ t.status.busy = false) ∨
    (StaysInFlight s t ∧ OneStepWaited s.env t.env) := by
  rcases step_cases h with ⟨hr, rfl | ⟨e, rest, -, rfl⟩⟩ | ⟨-, -, h0, i, -, hc, he⟩ | ⟨ht, -, rfl⟩ |
    ⟨ht, off, rest, hh, rfl⟩ | ⟨ht, off, w, rest, hh, -, rfl⟩ | ⟨ht, off, w, rest, hh, -, hcmd⟩ |
    ⟨ht, rest, hh, rfl⟩ | ⟨ht, level, rest, hh, rfl⟩
  · exact .inr (.inl ⟨hr, .refl _⟩)
  · obtain ⟨env, henv⟩ := heldInReset_eq_setEnv hr e rest
    exact .inr (.inl ⟨hr, henv ▸ staysInFlight_setEnv s env⟩)
  · rw [exec_busy hc hb] at he
    cases he
    exact .inl ⟨h0, rfl⟩
  · exact .inr (.inr (.inr ⟨staysInFlight_setEnv s _, oneStepWaited_tick ht.1⟩))
  · exact .inr (.inr (.inr ⟨staysInFlight_setEnv s _, (oneStepWaited_taken ht.1 hh).noteRead _ _⟩))
  · have hwait := oneStepWaited_taken ht.1 hh
    rcases writeRegion_inFlight off w (s := taken rest s) hb with ⟨hres, heq⟩ | ⟨hstay, henv⟩
    · exact .inr (.inr (.inl ⟨⟨_, by simp [hh], hres⟩, by rw [heq]; rfl⟩))
    · exact .inr (.inr (.inr ⟨(staysInFlight_setEnv s _).trans hstay, henv ▸ hwait⟩))
  · rcases hcmd with ⟨-, rfl⟩ | ⟨hidle, -⟩ | ⟨hidle, -⟩
    · exact .inr (.inr (.inr ⟨⟨⟨rfl, rfl, rfl, rfl⟩, rfl, rfl, rfl, id⟩, oneStepWaited_taken ht.1 hh⟩))
    · simp [hb] at hidle
    · simp [hb] at hidle
  · rw [if_pos hb]
    exact .inr (.inr (.inr ⟨staysInFlight_setEnv s _, oneStepWaited_tick ht.1⟩))
  · cases level
    · exact .inr (.inr (.inl ⟨⟨.rst false, by simp [hh], rfl⟩, by rw [resetPin_fall (s := taken rest s) ht.1]; rfl⟩))
    · rw [resetPin_rise]
      obtain ⟨-, hrem, hsub⟩ := oneStepWaited_taken ht.1 hh
      exact .inr (.inr (.inr ⟨staysInFlight_setEnv s _, rfl, hrem, hsub⟩))

/-! ### Runs to the completion -/

/-- Without a reset among the accesses to come, the wait ends with the completion due and the command still in flight. -/
theorem runs_until_due {n : Nat} {s : State} (hn : s.env.remaining = n) (hr : s.env.rstN = true)
    (hb : s.status.busy = true) (hres : ∀ e ∈ s.env.host, ¬ HostEventResets e) :
    ∃ v, Runs n s v ∧ StaysInFlight s v ∧ v.env.rstN = true ∧ v.env.remaining = 0 := by
  induction n generalizing s with
  | zero => exact ⟨s, rfl, .refl s, hr, hn⟩
  | succ n ih =>
    obtain ⟨u, hu⟩ := step_hostTurn_next (s := s) ⟨hr, fun _ => by omega⟩
    rcases step_inFlight_cases hb hu with ⟨h0, -⟩ | ⟨hheld, -⟩ | ⟨⟨e, he, hreset⟩, -⟩ | ⟨hstay, hrst, hrem, hsub⟩
    · omega
    · simp [hr] at hheld
    · exact absurd hreset (hres e he)
    · obtain ⟨v, hruns, hstay', hdue⟩ :=
        ih (by omega) hrst (hstay.busy.trans hb) fun e he => hres e (hsub he)
      exact ⟨v, ⟨u, hu, hruns⟩, hstay.trans hstay', hdue⟩

/-- What the completion of a command leaves of `s` (40_command_protocol.md R103), whatever came meanwhile. -/
structure Completed (i : Instr) (s t : State) : Prop where
  inBuf : t.inBuf = s.inBuf
  qt : t.qt = s.qt
  coef : t.coef = resultCoef i s
  out : t.out = resultOut i s
  lastCmd : t.lastCmd = s.lastCmd
  busy : t.status.busy = false
  done : t.status.done = true
  err : t.status.err = true → s.status.err = true

/-- A completion looks at the buffers only. -/
theorem SameBuffers.result_eq {s t : State} (h : SameBuffers s t) (i : Instr) :
    resultCoef i t = resultCoef i s ∧ resultOut i t = resultOut i s := by
  obtain ⟨hin, hqt, hcoef, hout⟩ := h
  have hresult : resultCoef i t = resultCoef i s := by
    cases i <;> simp only [resultCoef, hin, hqt, hcoef]
  exact ⟨hresult, by rw [resultOut, resultOut, hresult, hout]⟩

/-- 40_command_protocol.md R104: unless a reset comes first, a command in flight completes on its operands. -/
theorem runs_completed {s : State} {i : Instr} (hr : s.env.rstN = true) (hb : s.status.busy = true)
    (hdec : decode s.curCmd = .ok i) (hc : isCompute i = true) (hres : ∀ e ∈ s.env.host, ¬ HostEventResets e) :
    ∃ t, Runs (s.env.remaining + 1) s t ∧ Completed i s t := by
  obtain ⟨v, hruns, hstay, hrv, h0⟩ := runs_until_due rfl hr hb hres
  have hbv : v.status.busy = true := hstay.busy.trans hb
  have hstep := step_due hrv hbv h0 (hstay.curCmd ▸ hdec) hc
  rw [exec_busy hc hbv] at hstep
  obtain ⟨hcoef, hout⟩ := hstay.buffers.result_eq i
  obtain ⟨⟨hin, hqt, -, -⟩, -, hlast, -, herr⟩ := hstay
  exact ⟨_, runs_trans hruns ⟨_, hstep, rfl⟩, hin, hqt, hcoef, hout, hlast, rfl, rfl, herr⟩

/-- What the acceptance of the command in `w` leaves of `s` (40_command_protocol.md R100), with `rest` still to come. -/
structure Accepted (w : Word) (rest : List HostEvent) (s t : State) : Prop where
  buffers : SameBuffers s t
  curCmd : t.curCmd = w
  lastCmd : t.lastCmd = w
  busy : t.status.busy = true
  err : t.status.err = false
  rstN : t.env.rstN = true
  host : t.env.host = rest
  remaining : t.env.remaining = Config.latency s.env.accepted

/-- The step on a CMD write of a legal compute command while idle puts that command in flight. -/
theorem step_accepted {s : State} {off : Offset} {w : Word} {rest : List HostEvent} {i : Instr}
    (hr : s.env.rstN = true) (hb : s.status.busy = false) (hh : s.env.host = .write off w :: rest)
    (hreg : region off = .cmd) (hdec : decode w = .ok i) (hc : isCompute i = true) (hw : i.wellFormed = true)
    (hz : usesTable i = true → ∀ k : Fin 64, s.qt[k] ≠ 0) : ∃ t, step s = .next t ∧ Accepted w rest s t := by
  have hstep := step_issue hr hb hh hreg hdec
  rw [exec_accepted (s := (taken rest s).setLastCmd w) hc hb hw hz, encode_of_decode_compute hdec hc] at hstep
  exact ⟨_, hstep, by simp [SameBuffers], rfl, rfl, rfl, rfl, hr, rfl, rfl⟩

/-- A host that waits polls until the completion is due, and nothing else changes (30_encoding.md R89). -/
theorem runs_wait (n : Nat) {s : State} {rest : List HostEvent} (hr : s.env.rstN = true) (hb : s.status.busy = true)
    (hh : s.env.host = .wait :: rest) :
    Runs n (s.setEnv { s.env with remaining := n }) (s.setEnv { s.env with remaining := 0 }) := by
  induction n with
  | zero => rfl
  | succ n ih =>
    refine ⟨s.setEnv { s.env with remaining := n }, ?_, ih⟩
    rw [step_wait (s := s.setEnv { s.env with remaining := n + 1 }) ⟨hr, fun _ => Nat.succ_ne_zero n⟩ hh]
    exact congrArg _ (if_pos hb)

/-- Once the completion is due, a host that waits is served two steps later (30_encoding.md R89). -/
theorem runs_wait_over {s : State} {i : Instr} {rest : List HostEvent} (hr : s.env.rstN = true)
    (hb : s.status.busy = true) (h0 : s.env.remaining = 0) (hdec : decode s.curCmd = .ok i) (hc : isCompute i = true)
    (hh : s.env.host = .wait :: rest) :
    ∃ t, Runs 2 s t ∧ t.env.host = rest ∧ t.status.busy = false ∧ t.status.done = true := by
  have hcomplete := step_due hr hb h0 hdec hc
  rw [exec_busy hc hb] at hcomplete
  exact ⟨_, ⟨_, hcomplete, _, step_wait (hostTurn_of_idle hr rfl) hh, rfl⟩, rfl, rfl, rfl⟩

/-! ### The words a command leaves alone -/

/-- Everything a command can do, at its issue and at its completion (40_command_protocol.md R100, R103). -/
theorem exec_cases {i : Instr} {s t : State} (h : exec i s = .next t) :
    t = s.setStatus s.status.clearOutcome.ended ∨
    (i = .qtdef ∧ t = (s.setQt Config.defaultQt).setStatus s.status.clearOutcome.ended) ∨
    (∃ e, t = s.setStatus (s.status.clearOutcome.raised e)) ∨
    (s.status.busy = false ∧
      t = ((s.setCurCmd (encode i)).setStatus s.status.clearOutcome.accepted).setEnv s.env.accept) ∨
    (s.status.busy = true ∧ isCompute i = true ∧
      t = ((s.setCoef (resultCoef i s)).setOut (resultOut i s)).setStatus s.status.completed) := by
  cases hb : s.status.busy
  · rcases exec_idle_cases hb h with hnop | hqtdef | ⟨e, -, herr⟩ | ⟨-, -, -, hacc⟩
    · exact .inl hnop
    · exact .inr (.inl hqtdef)
    · exact .inr (.inr (.inl ⟨e, herr⟩))
    · exact .inr (.inr (.inr (.inl ⟨rfl, hacc⟩)))
  · cases hc : isCompute i
    · cases i <;> simp only [isCompute, reduceCtorEq] at hc
      case nop => rw [exec_nop] at h; cases h; exact .inl rfl
      case qtdef => rw [exec_qtdef] at h; cases h; exact .inr (.inl ⟨rfl, rfl⟩)
    · rw [exec_busy hc hb] at h
      cases h
      exact .inr (.inr (.inr (.inr ⟨rfl, rfl, rfl⟩)))

/-! Replacing a field shows only in the words of that field (20_memory.md R60). -/

section
variable {r : Region} (s : State)

theorem readRegion_setStatus (h : r ≠ .status) (v : Status) : readRegion r (s.setStatus v) = readRegion r s := by
  cases r
  case status => exact absurd rfl h
  all_goals rfl

theorem readRegion_setQt (h : ∀ k, r ≠ .qtWord k) (v : Block Divisor) :
    readRegion r (s.setQt v) = readRegion r s := by
  cases r
  case qtWord k => exact absurd rfl (h k)
  all_goals rfl

theorem readRegion_setCoef (h : ∀ k, r ≠ .coefLow k ∧ r ≠ .coefHigh k) (v : Block F64) :
    readRegion r (s.setCoef v) = readRegion r s := by
  cases r
  case coefLow k => exact absurd rfl (h k).1
  case coefHigh k => exact absurd rfl (h k).2
  all_goals rfl

theorem readRegion_setOut (h : ∀ k, r ≠ .outWord k) (v : Block Byte) :
    readRegion r (s.setOut v) = readRegion r s := by
  cases r
  case outWord k => exact absurd rfl (h k)
  all_goals rfl

/-- CUR_CMD is not in the window (10_state.md R35). -/
theorem readRegion_setCurCmd (w : Word) : readRegion r (s.setCurCmd w) = readRegion r s := by
  cases r <;> rfl

theorem readRegion_setEnv (e : Env) : readRegion r (s.setEnv e) = readRegion r s := by
  cases r <;> rfl

end

end Sys2Proof.Machine

namespace Sys2Proof

open Sys2Proof.Machine

/-- Settles O5: the HOST's turn while idle, and the region that answers LASTCMD. -/
theorem stepIssuesDecodedCommand : Obligations.StepIssuesDecodedCommand := by
  refine ⟨fun s off w rest i hr hb hh hoff hdec => step_issue hr hb hh ((region_eq_cmd_iff off).2 hoff) hdec,
    fun s off hoff => ?_⟩
  have hreg := (region_eq_cmd_iff off).2 hoff
  refine ⟨by rw [hreg]; rfl, fun rest ht hh => ⟨_, step_read ht hh, ?_⟩⟩
  have hread : busRead off (taken rest s) = s.lastCmd := by
    rw [busRead_current (by rw [hreg]; exact Bool.and_false _), hreg]
    rfl
  exact congrArg (· :: s.env.reads) hread

/-- Settles O6: the ENGINE's turn. -/
theorem stepCompletesCommandInFlight : Obligations.StepCompletesCommandInFlight :=
  fun _ _ hr hb h0 hdec hc => step_due hr hb h0 hdec hc

/-- Settles O7: a CMD write looks at BUSY before its word. -/
theorem cmdWriteWhileBusyIsDropped : Obligations.CmdWriteWhileBusyIsDropped := by
  intro s off w rest ht hb hh hoff
  rw [step_cmdWrite ht hh ((region_eq_cmd_iff off).2 hoff), cmdWrite_busy w (s := taken rest s) hb]
  rfl

/-- Settles O12: the checks pass, and the issue step accepts. -/
theorem legalComputeCommandIsAccepted : Obligations.LegalComputeCommandIsAccepted :=
  fun _ _ hb hc hw hz => exec_accepted hc hb hw hz

/-- Settles O19: each way a command ends names the buffers it replaces, and the offset lies outside their words. -/
theorem commandsLeaveOtherWordsAlone : Obligations.CommandsLeaveOtherWordsAlone := by
  intro s t i off h hoff hqt hcoef hout
  have hstatus : region off ≠ .status := mt (region_eq_iff rfl).1 hoff
  obtain ⟨-, hqtWord, hcoefWord⟩ := wordOffset_of_operand_word off
  constructor
  · rcases exec_cases h with rfl | ⟨rfl, rfl⟩ | ⟨e, rfl⟩ | ⟨-, rfl⟩ | ⟨hb, hc, rfl⟩
    · exact readRegion_setStatus s hstatus _
    · have hnoQt : ∀ k, region off ≠ .qtWord k := fun k hk => by
        obtain ⟨hlo, hhi⟩ := hqtWord k hk
        exact hqt hlo hhi rfl
      rw [readRegion_setStatus _ hstatus, readRegion_setQt s hnoQt]
    · exact readRegion_setStatus s hstatus _
    · exact (readRegion_setEnv _ _).trans ((readRegion_setStatus _ hstatus _).trans (readRegion_setCurCmd s _))
    · have hends : ¬(s.status.busy = false ∨ i = .nop ∨ i = .qtdef) := by
        rintro (hidle | rfl | rfl)
        · simp [hb] at hidle
        · cases hc
        · cases hc
      have hnoOut : ∀ k, region off ≠ .outWord k := fun k hk => by
        have hat : wordOffset off = 0x600 + 4 * k.val := (region_eq_iff rfl).1 hk
        exact hends (hout (by omega) (by omega))
      rw [readRegion_setStatus _ hstatus, readRegion_setOut _ hnoOut]
      by_cases hpack : ∃ vw vh, i = .pack vw vh
      · obtain ⟨vw, vh, rfl⟩ := hpack
        rfl
      · refine readRegion_setCoef s (fun k => not_or.1 fun hk => ?_) _
        obtain ⟨hlo, hhi⟩ := hcoefWord k hk
        rcases hcoef hlo hhi with hidle | hnop | hqtdef | hp
        · exact hends (.inl hidle)
        · exact hends (.inr (.inl hnop))
        · exact hends (.inr (.inr hqtdef))
        · exact hpack hp
  · rcases exec_cases h with rfl | ⟨-, rfl⟩ | ⟨e, rfl⟩ | ⟨hb, rfl⟩ | ⟨-, -, rfl⟩
    case inr.inr.inr.inl => exact ⟨rfl, rfl, fun hbusy => by simp [hb] at hbusy, rfl, rfl, rfl, rfl, rfl, rfl⟩
    all_goals exact ⟨rfl, rfl, fun _ => rfl, rfl, rfl, rfl, rfl, rfl, rfl⟩

/-- Settles O22: of the steps from a BUSY state, a completion and a reset end with BUSY = 0. -/
theorem operandsAreStableWhileBusy : Obligations.OperandsAreStableWhileBusy := by
  intro s t h hb hbt
  have hstay : StaysInFlight s t := by
    rcases step_inFlight_cases hb h with ⟨-, hidle⟩ | ⟨-, hstay⟩ | ⟨-, hidle⟩ | ⟨hstay, -⟩
    · simp [hbt] at hidle
    · exact hstay
    · simp [hbt] at hidle
    · exact hstay
  obtain ⟨⟨hin, hqt, hcoef, hout⟩, hcur, hlast, -⟩ := hstay
  exact ⟨hin, hqt, hcoef, hout, hcur, hlast⟩

/-- Settles O25: the invariant gives a completion its command, and no other step can stop. -/
theorem invariantStatesDoNotStop : Obligations.InvariantStatesDoNotStop := by
  intro s hs
  cases hr : s.env.rstN
  · exact step_held_next hr
  by_cases hdue : s.status.busy = true ∧ s.env.remaining = 0
  · obtain ⟨hb, h0⟩ := hdue
    obtain ⟨i, hdec, hc, -⟩ := hs.busyCommand hb
    rw [step_due hr hb h0 hdec hc]
    exact exec_next i s
  · exact step_hostTurn_next ⟨hr, not_and.1 hdue⟩

/-- Settles O27: the command completes on the operands it had in the starting state. -/
theorem commandInFlightCompletes : Obligations.CommandInFlightCompletes := by
  intro s i hr hb hdec hc hres
  obtain ⟨t, hruns, hin, hqt, hcoef, hout, hlast, hidle, hdone, -⟩ := runs_completed hr hb hdec hc hres
  exact ⟨t, _, hruns, exec_busy hc hb, hin, hqt, hcoef, hout, hlast, hidle, hdone⟩

/-- Settles O28: the issue step puts the command in flight with the buffers as they are, and then it completes. -/
theorem issuedCommandLeavesItsResult : Obligations.IssuedCommandLeavesItsResult := by
  intro s off w rest i hr hb hh hoff hdec hc hw hz hres
  obtain ⟨u, hstep, hu⟩ := step_accepted hr hb hh ((region_eq_cmd_iff off).2 hoff) hdec hc hw hz
  obtain ⟨t, hruns, ht⟩ := runs_completed hu.rstN hu.busy (hu.curCmd ▸ hdec) hc (hu.host ▸ hres)
  have hbusy : SameBuffers s (s.setStatus { s.status with busy := true }) := ⟨rfl, rfl, rfl, rfl⟩
  obtain ⟨hcoef, hout⟩ := hu.buffers.result_eq i
  obtain ⟨hcoef', hout'⟩ := hbusy.result_eq i
  obtain ⟨hin, hqt, -, -⟩ := hu.buffers
  rw [hu.remaining] at hruns
  refine ⟨t, _, ⟨u, hstep, hruns⟩, exec_busy hc rfl, ht.inBuf.trans hin, ht.qt.trans hqt, ?_, ?_,
    ht.lastCmd.trans hu.lastCmd, ht.busy, ht.done, ?_⟩
  · exact (ht.coef.trans hcoef).trans hcoef'.symm
  · exact (ht.out.trans hout).trans hout'.symm
  · exact Bool.eq_false_iff.2 (mt ht.err (by simp [hu.err]))

/-- Settles O29: both waits end in the one state where the completion is due. -/
theorem waitingHostDoesNotSeeLatency : Obligations.WaitingHostDoesNotSeeLatency := by
  intro s i rest n m hr hb hdec hc hh
  obtain ⟨t, hover, hserved⟩ := runs_wait_over (s := s.setEnv { s.env with remaining := 0 }) hr hb rfl hdec hc hh
  exact ⟨t, runs_trans (runs_wait n hr hb hh) hover, runs_trans (runs_wait m hr hb hh) hover, hserved⟩

end Sys2Proof
end

section
/-! PROOFS. The transform family of 41_transform.md: what DCT and DCTQ leave when they complete, that padding hides the rest
of IN, that no inner sum is −0.0, and the obligations O15, O16, O30, O54 and O55. -/

namespace Sys2Proof.Machine

/-! ### The padded block and the write-back, by column and row -/

theorem dct2_eq_dctRef64 (x : Block F64) : dct2 x = dctRef64 x := rfl

theorem getElem_pad_raster (b : Block Byte) (vw vh : BitVec 4) (x y : Fin 8) :
    (pad b vw vh)[raster x y] =
      if x.val < vw.toNat ∧ y.val < vh.toNat then toF64 b[raster x y].toNat else posZero := by
  simp only [getElem_pad, inRegion_raster]

theorem getElem_writtenBack_raster (c : Block F64) (old : Block Byte) (vw vh : BitVec 4) (x y : Fin 8) :
    (writtenBack c old vw vh)[raster x y] =
      if x.val < vw.toNat ∧ y.val < vh.toNat then wb8 (c)[raster x y] else old[raster x y] := by
  simp only [getElem_writtenBack, inRegion_raster]

/-- The transform of the padded block (41_transform.md R122, R123) at frequency `(u, v)`. -/
theorem getElem_dct2_pad (b : Block Byte) (vw vh : BitVec 4) (u v : Fin 8) :
    (dct2 (pad b vw vh))[raster u v] =
      dct1 (fun y => dct1 (fun x =>
        if x.val < vw.toNat ∧ y.val < vh.toNat then toF64 b[raster x y].toNat else posZero) u) v := by
  simp only [dct2_eq_dctRef64, getElem_dctRef64, getElem_pad_raster]

/-- Padding reads IN on the valid region only. -/
theorem pad_congr {b b' : Block Byte} {vw vh : BitVec 4}
    (h : ∀ x y : Fin 8, x.val < vw.toNat → y.val < vh.toNat → b[raster x y] = b'[raster x y]) :
    pad b vw vh = pad b' vw vh := by
  refine block_ext (forall_raster.2 fun x y => ?_)
  rw [getElem_pad_raster, getElem_pad_raster]
  split
  · next hxy => rw [h x y hxy.1 hxy.2]
  · rfl

/-- A compute command completes with its result in COEF, written back to OUT on its valid region (40_command_protocol.md
R103, 42_quantize_writeback.md R152). -/
theorem exec_completes {i : Instr} {s : State} (hc : isCompute i = true) (hb : s.status.busy = true) :
    ∃ t, exec i s = .next t ∧ t.coef = resultCoef i s ∧
      (∀ x y : Fin 8, t.out[raster x y] =
        if x.val < (regionOf i).1.toNat ∧ y.val < (regionOf i).2.toNat then wb8 t.coef[raster x y]
        else s.out[raster x y]) ∧
      t = ((s.setCoef t.coef).setOut t.out).setStatus { s.status with busy := false, done := true } :=
  ⟨_, exec_busy hc hb, rfl, fun x y => getElem_writtenBack_raster _ _ _ _ x y, rfl⟩

/-- The result of a command that reads IN through padding only, from another content of IN. -/
theorem resultCoef_setIn {i : Instr} {s : State} {b : Block Byte}
    (h : pad b (regionOf i).1 (regionOf i).2 = pad s.inBuf (regionOf i).1 (regionOf i).2) :
    resultCoef i (s.setIn b) = resultCoef i s := by
  cases i with
  | dct vw vh => exact congrArg dct2 h
  | dctq vw vh => exact congrArg (fun x => quantize (dct2 x) s.qt) h
  | nop | quant | pack | qtdef => rfl

/-- From another content of IN, such a command leaves the same state but for IN. -/
theorem exec_setIn {i : Instr} {s t : State} {b : Block Byte} (hc : isCompute i = true) (hb : s.status.busy = true)
    (h : pad b (regionOf i).1 (regionOf i).2 = pad s.inBuf (regionOf i).1 (regionOf i).2) (ht : exec i s = .next t) :
    exec i (s.setIn b) = .next (t.setIn b) := by
  obtain rfl := Host.Outcome.next.inj ((exec_busy hc hb).symm.trans ht)
  have hcoef := resultCoef_setIn h
  have hout : resultOut i (s.setIn b) = resultOut i s := by rw [resultOut, resultOut, hcoef, State.out_setIn]
  rw [exec_busy (s := s.setIn b) hc hb, hcoef, hout]
  rfl

/-! ### No inner sum is −0.0 (41_transform.md R126) -/

theorem getLsbD_quiet_51 (x : F64) : (quiet x).getLsbD 51 = true := by
  simp [quiet]

theorem quiet_ne_negZero (x : F64) : quiet x ≠ negZero := fun h => by
  have h51 := getLsbD_quiet_51 x
  rw [h] at h51
  exact absurd h51 (by decide)

theorem isInf_negZero : isInf negZero = false := by decide

/-- A pattern with sign − and no other bit is −0.0. -/
theorem eq_negZero_of_mant {x : F64} (hs : signBit x = true) (hm : mant x = 0) : x = negZero := by
  have he : expField x = 0 := by
    by_contra h
    rw [mant, if_neg h] at hm
    omega
  rw [mant, if_pos he, fracField, BitVec.extractLsb'_toNat] at hm
  rw [expField, BitVec.extractLsb'_toNat] at he
  rw [signBit, BitVec.getLsbD, Nat.testBit_eq_decide_div_mod_eq] at hs
  apply BitVec.eq_of_toNat_eq
  simp [negZero, Nat.shiftRight_eq_div_pow] at hm he hs ⊢
  omega

/-- Two negative operands whose sum is 0 are zeros. -/
theorem mant_eq_zero_of_scaledTo {q : ℤ} {a b : F64} (ha : signBit a = true) (hb : signBit b = true)
    (h : scaledTo q a + scaledTo q b = 0) : mant a = 0 := by
  simp only [scaledTo, ha, hb, if_true] at h
  have h1 : (0 : ℤ) ≤ mant a * 2 ^ (expo a - q).toNat := by positivity
  have h2 : (0 : ℤ) ≤ mant b * 2 ^ (expo b - q).toNat := by positivity
  have h0 : (mant a : ℤ) * 2 ^ (expo a - q).toNat = 0 := by omega
  simpa using h0

/-- A positive integer at a last place that binary64 has does not round to a zero. -/
theorem roundPack_ne_negZero (s : Bool) {n : Nat} {q : ℤ} (hn : n ≠ 0) (hq : -1074 ≤ q) :
    roundPack s n q ≠ negZero := by
  obtain ⟨l, hl⟩ : ∃ l : ℤ, max ((n.log2 : ℤ) + q - 52) (-1074) = l := ⟨_, rfl⟩
  obtain ⟨e, he⟩ : ∃ e : Nat, (e : ℤ) = l + 1074 := ⟨(l + 1074).toNat, by omega⟩
  rw [roundPack_eq s hn hl he]
  intro h
  have hmag := congrArg magField h
  rw [magField_packF64 _ _ (lt_of_le_of_lt (min_le_right _ _) (by decide)), show magField negZero = 0 by decide] at hmag
  have hsum : e * 2 ^ 52 + rneShift (n * 2 ^ (q - l).toNat) (l - q).toNat = 0 := by
    rw [infMag] at hmag; omega
  have hcut : (l - q).toNat = 0 := by omega
  rw [hcut, rneShift_zero] at hsum
  have : 0 < n * 2 ^ (q - l).toNat := by positivity
  omega

/-- Under round-to-nearest a sum is −0.0 only when both operands are (41_transform.md R126). -/
theorem fadd_ne_negZero {a : F64} (ha : a ≠ negZero) (b : F64) : fadd a b ≠ negZero := by
  rw [fadd]
  split
  · exact quiet_ne_negZero a
  split
  · exact quiet_ne_negZero b
  split
  · split
    · decide
    · exact ha
  split
  · next h => exact fun hb => by simp [hb, isInf_negZero] at h
  dsimp only
  split
  · next h0 =>
    intro hz
    have hs : (signBit a && signBit b) = true := by
      rw [← signBit_packF64 (signBit a && signBit b) 0, hz]; decide
    obtain ⟨hsa, hsb⟩ := Bool.and_eq_true_iff.1 hs
    exact ha (eq_negZero_of_mant hsa (mant_eq_zero_of_scaledTo hsa hsb h0))
  · next h0 => exact roundPack_ne_negZero _ (Int.natAbs_ne_zero.2 h0) (le_min (expo_ge a) (expo_ge b))

/-- An accumulation that does not start at −0.0 never gets there. -/
theorem foldl_fadd_ne_negZero (p : Fin 8 → F64) (l : List (Fin 8)) {s : F64} (hs : s ≠ negZero) :
    l.foldl (fun s n => fadd s (p n)) s ≠ negZero := by
  induction l generalizing s with
  | nil => exact hs
  | cons n l ih => exact ih (fadd_ne_negZero hs _)

theorem dct1_ne_negZero (x : Fin 8 → F64) (k : Fin 8) : dct1 x k ≠ negZero :=
  foldl_fadd_ne_negZero (fun n => fmul (basis k n) (x n)) _ (by decide)

/-! ### The block of zeros (41_transform.md R130) -/

/-- A block that is 0 on the valid region is +0.0 everywhere once padded. -/
theorem getElem_pad_zero {b : Block Byte} {vw vh : BitVec 4} (h : ∀ k : Fin 64, inRegion vw vh k = true → b[k] = 0)
    (k : Fin 64) : (pad b vw vh)[k] = posZero := by
  rw [getElem_pad]
  split
  · next hk => rw [h k hk]; rfl
  · rfl

theorem isFinite_basis : ∀ k n : Fin 8, isFinite (basis k n) = true := by decide

theorem fmul_posZero {a : F64} (ha : isFinite a = true) : fmul a posZero = packF64 (signBit a) 0 := by
  have hs : signBit posZero = false := by decide
  have hm : mant posZero = 0 := by decide
  rw [fmul_finite ha (by decide), hs, hm, mul_zero, Bool.bne_false]
  rfl

theorem posZero_eq_packF64 : posZero = packF64 false 0 := by decide

theorem scaledTo_eq_zero (q : ℤ) {x : F64} (h : mant x = 0) : scaledTo q x = 0 := by
  simp [scaledTo, h]

/-- A zero of either sign added to +0.0 leaves it. -/
theorem fadd_posZero_zero (s : Bool) : fadd posZero (packF64 s 0) = posZero := by
  have hf : ∀ s : Bool, isFinite (packF64 s 0) = true ∧ mant (packF64 s 0) = 0 := by decide
  obtain ⟨hfin, hm⟩ := hf s
  rw [fadd_finite (by decide) hfin]
  simp only [scaledTo_eq_zero _ hm, scaledTo_eq_zero _ (hf false).2, posZero_eq_packF64, signBit_packF64, add_zero,
    if_true, Bool.false_and]

theorem dct1_posZero (k : Fin 8) : dct1 (fun _ => posZero) k = posZero := by
  simp only [dct1, List.foldl_cons, List.foldl_nil, fmul_posZero (isFinite_basis k _), fadd_posZero_zero]

theorem wb8_posZero : wb8 posZero = 0 := by decide +kernel

end Sys2Proof.Machine

namespace Sys2Proof

open Sys2Proof.Machine

/-- Settles O15: the completion of a compute command, with the transform of the padded block as its result. -/
theorem dctTransformsBlock : Obligations.DctTransformsBlock := by
  intro s vw vh hb
  obtain ⟨t, ht, hcoef, hout, hframe⟩ := exec_completes (i := .dct vw vh) rfl hb
  exact ⟨t, ht, fun u v => by rw [hcoef]; exact getElem_dct2_pad _ _ _ u v, hout, hframe⟩

/-- Settles O16: as O15, with the transform quantized by QT. -/
theorem dctqTransformsAndQuantizes : Obligations.DctqTransformsAndQuantizes := by
  intro s vw vh hb
  obtain ⟨t, ht, hcoef, hout, hframe⟩ := exec_completes (i := .dctq vw vh) rfl hb
  refine ⟨t, ht, fun u v => ?_, hout, hframe⟩
  rw [hcoef, resultCoef, getElem_quantize, getElem_dct2_pad]

/-- Settles O30: two contents of IN that agree on the valid region pad to one block. -/
theorem paddingIgnoresInput : Obligations.PaddingIgnoresInput := by
  intro s t vw vh b hb hagree i hi ht
  have hpad := pad_congr hagree
  obtain rfl | rfl : i = .dct vw vh ∨ i = .dctq vw vh := by simpa using hi
  · exact exec_setIn rfl hb hpad ht
  · exact exec_setIn rfl hb hpad ht

/-- Settles O54: every coefficient is an inner sum, which starts at +0.0. -/
theorem noCoefficientIsNegativeZero : Obligations.NoCoefficientIsNegativeZero := by
  intro x
  refine forall_raster.2 fun u v => ?_
  rw [getElem_dctRef64]
  exact dct1_ne_negZero _ v

/-- Settles O55: the padded block is +0.0 in every lane, and so are both passes over it. -/
theorem zeroBlockTransformsToZero : Obligations.ZeroBlockTransformsToZero := by
  intro s t vw vh hb hzero ht
  obtain ⟨t', ht', hcoef, hout, -⟩ := exec_completes (i := .dct vw vh) rfl hb
  obtain rfl := Host.Outcome.next.inj (ht'.symm.trans ht)
  refine forall_raster.2 fun u v => ?_
  have h0 : t'.coef[raster u v] = posZero := by
    rw [hcoef, resultCoef, dct2_eq_dctRef64, getElem_dctRef64]
    simp only [getElem_pad_zero hzero, dct1_posZero]
  refine ⟨h0, fun hr => ?_⟩
  exact (hout u v).trans ((if_pos ((inRegion_raster vw vh u v).1 hr)).trans (h0 ▸ wb8_posZero))

end Sys2Proof
end

section
/-! PROOFS. The accuracy of REF64 (41_transform.md R125): the standard model of rounding, the constants of R121 against the
cosines they stand for, the error of one inner sum, and the obligation O56. -/

namespace Sys2Proof.Machine

/-! ### The standard model of rounding (41_transform.md R125) -/

theorem f64Value_posZero : f64Value posZero = 0 := by
  rw [f64Value, show mant posZero = 0 by decide]
  simp

/-- A rational of 53 bits before its point is within a half of a natural number of 53 bits, or of `2^53`. -/
theorem exists_nearest_significand {z : ℚ} (hlo : 2 ^ 52 ≤ z) (hhi : z < 2 ^ 53) :
    ∃ m : Nat, 2 ^ 52 ≤ m ∧ m ≤ 2 ^ 53 ∧ |z - m| ≤ 1 / 2 := by
  have hz : |z - round z| ≤ 1 / 2 := abs_sub_round z
  obtain ⟨h1, h2⟩ := abs_le.1 hz
  have hge : (2 ^ 52 : ℤ) ≤ round z := by
    by_contra h
    have : ((round z + 1 : ℤ) : ℚ) ≤ ((2 ^ 52 : ℤ) : ℚ) := Int.cast_le.2 (by omega)
    push_cast at this; linarith
  have hle : round z ≤ (2 ^ 53 : ℤ) := by
    by_contra h
    have : ((2 ^ 53 + 1 : ℤ) : ℚ) ≤ ((round z : ℤ) : ℚ) := Int.cast_le.2 (by omega)
    push_cast at this; linarith
  obtain ⟨m, hm⟩ := Int.eq_ofNat_of_zero_le (by omega : 0 ≤ round z)
  rw [hm] at hge hle hz
  exact ⟨m, by omega, by omega, hz⟩

/-- Some finite pattern lies within half a place of a number well inside the normal range. -/
theorem exists_value_near {x : ℚ} (hlo : (2 : ℚ) ^ (-64 : ℤ) ≤ |x|) (hhi : |x| < 2 ^ (64 : ℤ)) :
    ∃ y : F64, isFinite y = true ∧ |x - f64Value y| ≤ |x| / 2 ^ 53 := by
  obtain ⟨k, hge, hlt⟩ := exists_mem_Ico_zpow (lt_of_lt_of_le (by positivity) hlo) (one_lt_two (α := ℚ))
  have hk0 := (zpow_lt_zpow_iff_right₀ (one_lt_two (α := ℚ))).1 (hlo.trans_lt hlt)
  have hk1 := (zpow_lt_zpow_iff_right₀ (one_lt_two (α := ℚ))).1 (hge.trans_lt hhi)
  obtain ⟨l, rfl⟩ : ∃ l : ℤ, k = (52 : Nat) + l := ⟨k - 52, by omega⟩
  have hp : (0 : ℚ) < 2 ^ l := by positivity
  rw [zpow_add₀ two_ne_zero, zpow_natCast] at hge
  rw [zpow_add_one₀ two_ne_zero, zpow_add₀ two_ne_zero, zpow_natCast, mul_right_comm, ← pow_succ] at hlt
  obtain ⟨m, hm52, hm53, hm⟩ := exists_nearest_significand ((le_div_iff₀ hp).2 hge) ((div_lt_iff₀ hp).2 hlt)
  obtain ⟨e, he⟩ : ∃ e : Nat, (e : ℤ) = l + 1074 := ⟨(l + 1074).toNat, by omega⟩
  obtain ⟨hfin, hval, -⟩ := f64Value_packF64 (decide (x < 0)) hm53 (.inr hm52)
    (show e * 2 ^ 52 + m < infMag by rw [infMag]; omega)
  refine ⟨_, hfin, ?_⟩
  have hsign : x - (if decide (x < 0) then -1 else 1) * ((m : ℚ) * 2 ^ l) =
      (if decide (x < 0) then -1 else 1) * ((|x| / 2 ^ l - m) * 2 ^ l) := by
    rw [sub_mul, div_mul_cancel₀ _ hp.ne']
    by_cases hx : x < 0
    · simp [hx, abs_of_neg hx]; ring
    · simp [hx, abs_of_nonneg (not_lt.1 hx)]
  have hone : |(if decide (x < 0) then -1 else 1 : ℚ)| = 1 := by split <;> simp
  rw [hval, he, add_sub_cancel_right, hsign, abs_mul, hone, one_mul, abs_mul, abs_of_pos hp, le_div_iff₀ (by positivity)]
  calc |(|x| / 2 ^ l - m)| * 2 ^ l * 2 ^ 53 ≤ 1 / 2 * 2 ^ l * 2 ^ 53 := by gcongr
    _ = 2 ^ 52 * 2 ^ l := by ring
    _ ≤ |x| := hge

/-- The standard model of rounding: by `2^-53` of the number, or of 1 if the number is smaller. -/
theorem error_le_of_isRounded {x : ℚ} {r : F64} (h : IsRounded x r) (hx : |x| < 2 ^ 64) :
    isFinite r = true ∧ |f64Value r - x| ≤ max |x| 1 / 2 ^ 53 := by
  have hover : |x| < overflowBound := by
    obtain ⟨p, hp0, hbound, hp, -⟩ := overflowBound_eq
    have := hp 64 (by norm_num)
    rw [hbound]
    norm_num at this
    linarith
  obtain ⟨hfin, hnear, -⟩ := h.1 hover
  refine ⟨hfin, ?_⟩
  rw [abs_sub_comm]
  by_cases hlo : (2 : ℚ) ^ (-64 : ℤ) ≤ |x|
  · obtain ⟨y, hy, hxy⟩ := exists_value_near hlo (by exact_mod_cast hx)
    exact (hnear y hy).trans (hxy.trans (by gcongr; exact le_max_left _ _))
  · have h0 := hnear posZero (by decide)
    rw [f64Value_posZero, sub_zero] at h0
    have hsmall : (2 : ℚ) ^ (-64 : ℤ) ≤ 1 / 2 ^ 53 := by norm_num
    calc |x - f64Value r| ≤ 1 / 2 ^ 53 := h0.trans ((not_le.1 hlo).le.trans hsmall)
      _ ≤ max |x| 1 / 2 ^ 53 := by gcongr; exact le_max_right _ _

/-! ### Errors of the operations -/

/-- A finite pattern whose value is within `ε` of `X`. -/
def Near (x : F64) (X ε : ℝ) : Prop := isFinite x = true ∧ |(f64Value x : ℝ) - X| ≤ ε

theorem Near.mono {x : F64} {X ε ε' : ℝ} (h : Near x X ε) (hε : ε ≤ ε') : Near x X ε' := ⟨h.1, h.2.trans hε⟩

theorem Near.abs_le {x : F64} {X ε : ℝ} (h : Near x X ε) : |(f64Value x : ℝ)| ≤ |X| + ε := by
  have := abs_sub_abs_le_abs_sub (f64Value x : ℝ) X
  linarith [h.2]

/-- Rounding a number known to within `γ`, and of magnitude `C` at most, adds `2^-53 * C` to the error. -/
theorem near_of_isRounded {x : ℚ} {r : F64} {X γ C : ℝ} (h : IsRounded x r) (hx : |(x : ℝ) - X| ≤ γ)
    (hC : |X| + γ ≤ C) (h1 : 1 ≤ C) (h64 : C < 2 ^ 64) : Near r X (γ + C / 2 ^ 53) := by
  have hmag : |(x : ℝ)| ≤ C := by linarith [abs_sub_abs_le_abs_sub (x : ℝ) X]
  obtain ⟨hfin, herr⟩ := error_le_of_isRounded h (by exact_mod_cast hmag.trans_lt h64)
  have herr' : |(f64Value r : ℝ) - x| ≤ max |(x : ℝ)| 1 / 2 ^ 53 := by exact_mod_cast herr
  have hround : max |(x : ℝ)| 1 / 2 ^ 53 ≤ C / 2 ^ 53 := by gcongr; exact max_le hmag h1
  exact ⟨hfin, (abs_sub_le _ (x : ℝ) _).trans (by linarith)⟩

section
variable {a b : F64} {A B α β C : ℝ}

/-- The error of a sum: those of the operands, and one rounding. -/
theorem Near.fadd (ha : Near a A α) (hb : Near b B β) (hC : |A + B| + α + β ≤ C) (h1 : 1 ≤ C) (h64 : C < 2 ^ 64) :
    Near (fadd a b) (A + B) (α + β + C / 2 ^ 53) := by
  have hsum : |((f64Value a + f64Value b : ℚ) : ℝ) - (A + B)| ≤ α + β := by
    rw [Rat.cast_add, add_sub_add_comm]
    exact (abs_add_le _ _).trans (add_le_add ha.2 hb.2)
  exact near_of_isRounded (faddRoundsTheSum a b ha.1 hb.1) hsum (by linarith) h1 h64

/-- The error of a product: those of the operands, each times the other one, and one rounding. -/
theorem Near.fmul (ha : Near a A α) (hb : Near b B β) (hC : (|A| + α) * (|B| + β) ≤ C) (h1 : 1 ≤ C)
    (h64 : C < 2 ^ 64) : Near (fmul a b) (A * B) (|A| * β + α * (|B| + β) + C / 2 ^ 53) := by
  have hα : 0 ≤ α := (abs_nonneg _).trans ha.2
  have hprod : |((f64Value a * f64Value b : ℚ) : ℝ) - A * B| ≤ |A| * β + α * (|B| + β) := by
    rw [Rat.cast_mul, show (f64Value a : ℝ) * f64Value b - A * B =
      A * (f64Value b - B) + (f64Value a - A) * f64Value b by ring]
    refine (abs_add_le _ _).trans (add_le_add ?_ ?_)
    · rw [abs_mul]; exact mul_le_mul_of_nonneg_left hb.2 (abs_nonneg _)
    · rw [abs_mul]; exact mul_le_mul ha.2 hb.abs_le (abs_nonneg _) hα
  exact near_of_isRounded (fmulRoundsTheProduct a b ha.1 hb.1) hprod (by rw [abs_mul]; linarith) h1 h64

end

/-! ### The constants (41_transform.md R121) -/

/-- The cosine of `j` sixteenths of π. -/
noncomputable def cosSixteenth (j : Nat) : ℝ := Real.cos (j * Real.pi / 16)

theorem cosSixteenth_supplement {i j : Nat} (h : i + j = 16) : cosSixteenth i = -cosSixteenth j := by
  have : (i : ℝ) + j = 16 := by exact_mod_cast h
  rw [cosSixteenth, cosSixteenth, ← Real.cos_pi_sub]
  congr 1
  linear_combination Real.pi / 16 * this

/-- A whole turn is 32 sixteenths, and the cosine is even. -/
theorem cosSixteenth_of_mod {i j : Nat} (hj : j ≤ 32) (h : i % 32 = j ∨ i % 32 = 32 - j) :
    cosSixteenth i = cosSixteenth j := by
  have hi : 32 * ((i / 32 : Nat) : ℝ) + (i % 32 : Nat) = i := by exact_mod_cast Nat.div_add_mod i 32
  have hturn : cosSixteenth i = cosSixteenth (i % 32) := by
    rw [cosSixteenth, cosSixteenth, ← Real.cos_add_nat_mul_two_pi ((i % 32 : Nat) * Real.pi / 16) (i / 32)]
    congr 1
    linear_combination -Real.pi / 16 * hi
  rw [hturn]
  rcases h with h | h
  · rw [h]
  · have : ((i % 32 : Nat) : ℝ) + j = 32 := by exact_mod_cast (by omega : i % 32 + j = 32)
    rw [cosSixteenth, cosSixteenth, ← Real.cos_two_pi_sub]
    congr 1
    linear_combination -Real.pi / 16 * this

/-- `cos(jπ/16)` is within `δ` of `q`. -/
def CosNear (j : Nat) (q δ : ℝ) : Prop := |cosSixteenth j - q| ≤ δ

theorem cosNear_eight : CosNear 8 0 0 := by
  have h : ((8 : Nat) : ℝ) * Real.pi / 16 = Real.pi / 2 := by push_cast; ring
  rw [CosNear, cosSixteenth, h, Real.cos_pi_div_two, sub_zero, abs_zero]

theorem CosNear.supplement {i j : Nat} {q δ : ℝ} (h : CosNear j q δ) (hij : i + j = 16) : CosNear i (-q) δ := by
  rw [CosNear, cosSixteenth_supplement hij, ← neg_sub', abs_neg]
  exact h

/-- `cos(jπ/16)` for `j` in 0..7, to 20 decimal places. -/
def cosDigits : Fin 8 → ℚ
  | 0 => 1
  | 1 => 0.98078528040323044913
  | 2 => 0.92387953251128675613
  | 3 => 0.83146961230254523708
  | 4 => 0.70710678118654752440
  | 5 => 0.55557023301960222474
  | 6 => 0.38268343236508977173
  | 7 => 0.19509032201612826785

theorem cosDigits_pos (j : Fin 8) : (0 : ℝ) < cosDigits j := by
  fin_cases j <;> norm_num [cosDigits]

/-- The half-angle formula: digits whose square is close to the cosine's square are close to the cosine. -/
theorem CosNear.half {i : Nat} {p δ δ' : ℝ} (h : CosNear i p δ) (j : Fin 8) (hi : i = 2 * j.val)
    (hδ : |(1 + p) / 2 - (cosDigits j : ℝ) ^ 2| + δ / 2 ≤ cosDigits j * δ') : CosNear j (cosDigits j) δ' := by
  have hangle : (i : ℝ) * Real.pi / 16 = 2 * (j.val * Real.pi / 16) := by subst hi; push_cast; ring
  have hj : (j.val : ℝ) ≤ 8 := by exact_mod_cast j.isLt.le
  have hc : 0 ≤ Real.cos (j.val * Real.pi / 16) :=
    Real.cos_nonneg_of_neg_pi_div_two_le_of_le (by linarith [Real.pi_pos, show 0 ≤ j.val * Real.pi by positivity])
      (by nlinarith [Real.pi_pos])
  have hq := cosDigits_pos j
  rw [CosNear, cosSixteenth, hangle, Real.cos_two_mul] at h
  rw [CosNear, cosSixteenth]
  generalize Real.cos (j.val * Real.pi / 16) = c at h hc ⊢
  generalize (cosDigits j : ℝ) = q at hδ hq ⊢
  have hsq : |c ^ 2 - q ^ 2| ≤ q * δ' := by
    refine le_trans ?_ hδ
    rw [abs_le] at h ⊢
    constructor <;> cases abs_cases ((1 + p) / 2 - q ^ 2) <;> linarith
  have hfac : |c - q| * q ≤ |c ^ 2 - q ^ 2| := by
    rw [show c ^ 2 - q ^ 2 = (c - q) * (c + q) by ring, abs_mul, abs_of_nonneg (add_nonneg hc hq.le)]
    exact mul_le_mul_of_nonneg_left (by linarith) (abs_nonneg _)
  exact le_of_mul_le_mul_right (by linarith : |c - q| * q ≤ δ' * q) hq

/-- The seven cosines, halving the angle from `cos(π/2)`. -/
theorem cosNear_cosDigits (j : Fin 8) (hj : j ≠ 0) : CosNear j (cosDigits j) (1 / 10 ^ 18) := by
  have h4 : CosNear 4 (cosDigits 4) (1 / 10 ^ 20) := cosNear_eight.half 4 rfl (by norm_num [cosDigits, abs_le])
  have h2 : CosNear 2 (cosDigits 2) (1 / 10 ^ 19) := h4.half 2 rfl (by norm_num [cosDigits, abs_le])
  have h12 : CosNear 12 (-cosDigits 4) (1 / 10 ^ 20) := h4.supplement rfl
  have h6 : CosNear 6 (cosDigits 6) (1 / 10 ^ 19) := h12.half 6 rfl (by norm_num [cosDigits, abs_le])
  have h14 : CosNear 14 (-cosDigits 2) (1 / 10 ^ 19) := h2.supplement rfl
  have h10 : CosNear 10 (-cosDigits 6) (1 / 10 ^ 19) := h6.supplement rfl
  match j, hj with
  | 1, _ => exact h2.half 1 rfl (by norm_num [cosDigits, abs_le])
  | 2, _ => exact h2.trans (by norm_num)
  | 3, _ => exact h6.half 3 rfl (by norm_num [cosDigits, abs_le])
  | 4, _ => exact h4.trans (by norm_num)
  | 5, _ => exact h10.half 5 rfl (by norm_num [cosDigits, abs_le])
  | 6, _ => exact h6.trans (by norm_num)
  | 7, _ => exact h14.half 7 rfl (by norm_num [cosDigits, abs_le])

/-- The constants of 41_transform.md R121 as multiples of `2^-56`. -/
theorem scaledTo_plus : ∀ j : Fin 8, scaledTo (-56) (plus j) =
    #v[25476206690103092, 35336513786835648, 33286268146824472, 29956849889085068, 25476206690103092,
      20016527155241760, 13787623707202246, 7028869612283403][j] := by
  decide

theorem expo_plus_ge : ∀ j : Fin 8, -56 ≤ expo (plus j) := by decide

theorem plus_near_cosDigits (j : Fin 8) (hj : j ≠ 0) :
    |f64Value (plus j) - cosDigits j / 2| ≤ 1 / 2 ^ 54 - 1 / 10 ^ 18 := by
  rw [f64Value_eq_scaledTo (expo_plus_ge j)]
  fin_cases j
  · exact absurd rfl hj
  all_goals norm_num [cosDigits, scaledTo_plus, abs_le]

/-- A constant of 41_transform.md R121 is within `2^-54` of half the cosine it stands for. -/
theorem plus_near_cos (j : Fin 8) (hj : j ≠ 0) : |(f64Value (plus j) : ℝ) - cosSixteenth j / 2| ≤ 1 / 2 ^ 54 := by
  have hc := cosNear_cosDigits j hj
  have hv : ((|f64Value (plus j) - cosDigits j / 2| : ℚ) : ℝ) ≤ ((1 / 2 ^ 54 - 1 / 10 ^ 18 : ℚ) : ℝ) :=
    Rat.cast_le.2 (plus_near_cosDigits j hj)
  push_cast at hv
  rw [CosNear] at hc
  rw [abs_le] at hc hv ⊢
  constructor <;> linarith

theorem f64Value_minus (j : Fin 8) : f64Value (minus j) = -f64Value (plus j) := by
  have h : ∀ j : Fin 8, signBit (minus j) = true ∧ signBit (plus j) = false ∧ mant (minus j) = mant (plus j) ∧
    expo (minus j) = expo (plus j) := by decide
  obtain ⟨hs, hs', hm, he⟩ := h j
  simp [f64Value, hs, hs', hm, he]

/-! ### The matrix (41_transform.md R121) -/

/-- The entry `α(k) * cos((2n+1)kπ/16)` that `A[k][n]` rounds. -/
noncomputable def exactBasis (k n : Fin 8) : ℝ :=
  dctScale k / 2 * Real.cos ((2 * (n.val : ℝ) + 1) * k.val * Real.pi / 16)

/-- Every entry is half the cosine of this many sixteenths of π; those of row 0, which are `√(1/8)`, too. -/
def basisAngle (k n : Fin 8) : Nat := if k = 0 then 4 else (2 * n.val + 1) * k.val

theorem exactBasis_eq (k n : Fin 8) : exactBasis k n = cosSixteenth (basisAngle k n) / 2 := by
  rw [exactBasis, dctScale, basisAngle, cosSixteenth]
  split
  · next h =>
    have : ((4 : Nat) : ℝ) * Real.pi / 16 = Real.pi / 4 := by push_cast; ring
    rw [this, Real.cos_pi_div_four, Real.sqrt_div_self', h]
    simp
  · push_cast; ring_nf

theorem abs_exactBasis_le (k n : Fin 8) : |exactBasis k n| ≤ 1 / 2 := by
  rw [exactBasis_eq, cosSixteenth, abs_div, abs_two]
  linarith [Real.abs_cos_le_one (basisAngle k n * Real.pi / 16)]

/-- The table's index and sign at each place are those of the angle, folded into the first quarter turn. -/
theorem basis_cases : ∀ k n : Fin 8, ∃ j : Fin 8, j ≠ 0 ∧
    (basis k n = plus j ∧ (basisAngle k n % 32 = j ∨ basisAngle k n % 32 = 32 - j) ∨
      basis k n = minus j ∧ (basisAngle k n % 32 = 16 - j ∨ basisAngle k n % 32 = 32 - (16 - j))) := by
  decide

/-- Every entry of the table is within `2^-54` of the entry it rounds. -/
theorem near_basis (k n : Fin 8) : Near (basis k n) (exactBasis k n) (1 / 2 ^ 54) := by
  refine ⟨isFinite_basis k n, ?_⟩
  rw [exactBasis_eq]
  obtain ⟨j, hj0, ⟨hb, hangle⟩ | ⟨hb, hangle⟩⟩ := basis_cases k n
  · rw [hb, cosSixteenth_of_mod (by omega) hangle]
    exact plus_near_cos j hj0
  · rw [hb, cosSixteenth_of_mod (by omega) hangle, cosSixteenth_supplement (j := j) (by omega), f64Value_minus,
      Rat.cast_neg, neg_div, ← neg_sub', abs_neg]
    exact plus_near_cos j hj0

/-! ### One pass -/

/-- One sum of the exact transform: `Σ_n α(k) * cos((2n+1)kπ/16) * X(n)`. -/
noncomputable def exactSum (X : Fin 8 → ℝ) (k : Fin 8) : ℝ := ∑ n, exactBasis k n * X n

/-- The exact transform separates into two passes (41_transform.md R121). -/
theorem exactDct_eq (x : Fin 8 → Fin 8 → ℝ) (u v : Fin 8) :
    exactDct x u v = exactSum (fun y => exactSum (fun n => x n y) u) v := by
  simp only [exactDct, exactSum, exactBasis, Finset.mul_sum]
  rw [Finset.sum_comm]
  refine Finset.sum_congr rfl fun j _ => Finset.sum_congr rfl fun i _ => ?_
  ring

theorem abs_exactTerm_le {x M : ℝ} (hx : |x| ≤ M) (k n : Fin 8) : |exactBasis k n * x| ≤ M / 2 := by
  rw [abs_mul]
  calc |exactBasis k n| * |x| ≤ 1 / 2 * M := mul_le_mul (abs_exactBasis_le k n) hx (abs_nonneg _) (by norm_num)
    _ = M / 2 := by ring

theorem abs_exactSum_le {X : Fin 8 → ℝ} {M : ℝ} (hX : ∀ n, |X n| ≤ M) (k : Fin 8) : |exactSum X k| ≤ 4 * M := by
  calc |exactSum X k| ≤ ∑ n, |exactBasis k n * X n| := Finset.abs_sum_le_sum_abs _ _
    _ ≤ ∑ _n : Fin 8, M / 2 := Finset.sum_le_sum fun n _ => abs_exactTerm_le (hX n) k n
    _ = 4 * M := by rw [Finset.sum_const, Finset.card_fin]; ring

/-- Accumulating the terms of a sum: each adds its own error and the rounding of a number of magnitude `8D + 1` at most. -/
theorem near_foldl_fadd {p : Fin 8 → F64} {T : Fin 8 → ℝ} {D τ₀ τ : ℝ} (hp : ∀ n, Near (p n) (T n) τ₀)
    (hT : ∀ n, |T n| ≤ D) (hD : D ≤ 2 ^ 20) (hτ : τ₀ + (8 * D + 1) / 2 ^ 53 ≤ τ) (hτ8 : 8 * τ ≤ 1)
    (l : List (Fin 8)) {m : Nat} (hm : m + l.length ≤ 8) {s : F64} {S : ℝ} (hs : Near s S (m * τ)) (hS : |S| ≤ m * D) :
    Near (l.foldl (fun s n => fadd s (p n)) s) (S + (l.map T).sum) ((m + l.length : Nat) * τ) := by
  induction l generalizing m s S with
  | nil => simpa using hs
  | cons n l ih =>
    rw [List.length_cons] at hm
    have hD0 : 0 ≤ D := (abs_nonneg _).trans (hT n)
    have hτ0 : 0 ≤ τ₀ := (abs_nonneg _).trans (hp n).2
    have hround : 0 ≤ (8 * D + 1) / 2 ^ 53 := by positivity
    have hm8 : (m : ℝ) + 1 ≤ 8 := by exact_mod_cast (by omega : m + 1 ≤ 8)
    have hST : |S + T n| ≤ (m + 1 : Nat) * D := by
      refine (abs_add_le _ _).trans ?_
      push_cast
      linarith [hT n]
    have hC : |S + T n| + m * τ + τ₀ ≤ 8 * D + 1 := by
      push_cast at hST
      have h1 : (m + 1 : ℝ) * D ≤ 8 * D := by gcongr
      have h2 : (m + 1 : ℝ) * τ ≤ 8 * τ := mul_le_mul_of_nonneg_right hm8 (by linarith)
      linarith
    have hstep := (hs.fadd (hp n) hC (by linarith) (by linarith)).mono
      (show _ ≤ ((m + 1 : Nat) : ℝ) * τ by push_cast; linarith)
    have := ih (by omega) hstep hST
    rw [List.foldl_cons, List.map_cons, List.sum_cons, List.length_cons, ← add_assoc, Nat.add_comm l.length,
      ← Nat.add_assoc]
    exact this

/-- The error of one inner sum of 41_transform.md R122 over numbers of magnitude `M` known to within `ε`. -/
theorem near_dct1 {x : Fin 8 → F64} {X : Fin 8 → ℝ} {M ε τ : ℝ} (hx : ∀ n, Near (x n) (X n) ε) (hX : ∀ n, |X n| ≤ M)
    (hM : M ≤ 2 ^ 20) (hτ : ε / 2 + (M + ε) / 2 ^ 54 + (M / 2 + 1) / 2 ^ 53 + (4 * M + 1) / 2 ^ 53 ≤ τ) (hτ8 : 8 * τ ≤ 1)
    (k : Fin 8) : Near (dct1 x k) (exactSum X k) (8 * τ) := by
  have hM0 : 0 ≤ M := (abs_nonneg _).trans (hX 0)
  have hε0 : 0 ≤ ε := (abs_nonneg _).trans (hx 0).2
  have hterm (n : Fin 8) : Near (fmul (basis k n) (x n)) (exactBasis k n * X n)
      (ε / 2 + (M + ε) / 2 ^ 54 + (M / 2 + 1) / 2 ^ 53) := by
    have hmag : (|exactBasis k n| + 1 / 2 ^ 54) * (|X n| + ε) ≤ (1 / 2 + 1 / 2 ^ 54) * (M + ε) := by
      gcongr
      · exact abs_exactBasis_le k n
      · exact hX n
    refine ((near_basis k n).fmul (hx n) (C := M / 2 + 1) (by linarith) (by linarith) (by linarith)).mono ?_
    have h1 : |exactBasis k n| * ε ≤ 1 / 2 * ε := by gcongr; exact abs_exactBasis_le k n
    linarith [hX n]
  have hstart : Near posZero 0 ((0 : Nat) * τ) := ⟨by decide, by simp [f64Value_posZero]⟩
  have h := near_foldl_fadd hterm (fun n => abs_exactTerm_le (hX n) k n) (by linarith) (by linarith) hτ8
    [0, 1, 2, 3, 4, 5, 6, 7] (by decide) hstart (by simp)
  rw [dct1, exactSum, Fin.sum_univ_eight]
  simpa [add_assoc] using h

/-! ### Both passes -/

theorem near_sample (b : Block Byte) (x y : Fin 8) : Near (sampleBlock b)[raster x y] (sampleReal b x y) 0 := by
  have hentry : (sampleBlock b)[raster x y] = toF64 b[raster x y].toNat := by simp [sampleBlock]
  obtain ⟨hfin, -, hval⟩ := toF64IsExact b[raster x y].toNat (by omega)
  rw [hentry]
  exact ⟨hfin, by rw [hval, sampleReal, Rat.cast_natCast, sub_self, abs_zero]⟩

theorem abs_sampleReal_le (b : Block Byte) (x y : Fin 8) : |sampleReal b x y| ≤ 255 := by
  have h : b[raster x y].toNat ≤ 255 := by omega
  rw [sampleReal, abs_of_nonneg (Nat.cast_nonneg _)]
  exact_mod_cast h

/-- Pass 1 of 41_transform.md R125: the sums of a row. -/
theorem near_row (b : Block Byte) (u y : Fin 8) :
    Near (dct1 (fun n => (sampleBlock b)[raster n y]) u) (exactSum (fun n => sampleReal b n y) u)
      (8 * (1277 / 2 ^ 53)) :=
  near_dct1 (fun n => near_sample b n y) (fun n => abs_sampleReal_le b n y) (by norm_num) (by norm_num)
    (by norm_num) u

/-- Pass 2 of 41_transform.md R125: the sums of a column of row sums. -/
theorem near_dctRef64 (b : Block Byte) (u v : Fin 8) :
    Near (dctRef64 (sampleBlock b))[raster u v] (exactDct (sampleReal b) u v) (8 * (10211 / 2 ^ 53)) := by
  rw [getElem_dctRef64, exactDct_eq]
  exact near_dct1 (fun y => near_row b u y) (fun y => abs_exactSum_le (fun n => abs_sampleReal_le b n y) u)
    (by norm_num) (by norm_num) (by norm_num) v

end Sys2Proof.Machine

namespace Sys2Proof

open Sys2Proof.Machine

/-- Settles O56: the error of both passes is below 10^-11. -/
theorem ref64IsAccurate : Obligations.Ref64IsAccurate := by
  refine ⟨fun b u v => ?_, by norm_num⟩
  obtain ⟨hfin, herr⟩ := near_dctRef64 b u v
  exact ⟨hfin, herr.trans (by norm_num)⟩

end Sys2Proof
end

section
/-! PROOFS. The quantize and write-back family of 42_quantize_writeback.md: what QUANT and PACK leave in a lane when they
complete, what RHA, WB8 and Quant1 answer, and the obligations O17, O18, O31, O51, O52 and O53. -/

namespace Sys2Proof.Machine

/-! ### Lanes (42_quantize_writeback.md R154) -/

/-- A completing compute command leaves COEF and OUT equal in a lane where its results and the old OUT are equal. -/
theorem exec_lane_congr {i : Instr} {s s' t t' : State} {k : Fin 64} (hc : isCompute i = true)
    (hb : s.status.busy = true) (hb' : s'.status.busy = true) (hcoef : (resultCoef i s)[k] = (resultCoef i s')[k])
    (hout : s.out[k] = s'.out[k]) (ht : exec i s = .next t) (ht' : exec i s' = .next t') :
    t.coef[k] = t'.coef[k] ∧ t.out[k] = t'.out[k] := by
  obtain rfl := Host.Outcome.next.inj ((exec_busy hc hb).symm.trans ht)
  obtain rfl := Host.Outcome.next.inj ((exec_busy hc hb').symm.trans ht')
  refine ⟨hcoef, ?_⟩
  change (resultOut i s)[k] = (resultOut i s')[k]
  rw [resultOut, resultOut, getElem_writtenBack, getElem_writtenBack, hcoef, hout]

/-! ### The parts of a pattern -/

theorem magField_eq_fields (x : F64) : magField x = expField x * 2 ^ 52 + fracField x := by
  rw [magField, expField, fracField, BitVec.extractLsb'_toNat, BitVec.extractLsb'_toNat, BitVec.extractLsb'_toNat,
    Nat.shiftRight_zero, Nat.shiftRight_eq_div_pow]
  omega

/-- The bits 62:0 of a pattern are its exponent and its significand, whose leading 1 carries into the exponent. -/
theorem magField_eq (x : F64) : (magField x : ℤ) = (expo x + 1074) * 2 ^ 52 + mant x := by
  rw [magField_eq_fields, expo, mant]
  split
  · next h => rw [h]; omega
  · omega

theorem magField_eq_zero_iff (x : F64) : magField x = 0 ↔ mant x = 0 := by
  refine ⟨mant_eq_zero_of_magField, fun h => ?_⟩
  have hge : ¬ -1074 < expo x := fun he => by have := mant_ge he; omega
  have hmin := expo_ge x
  have hmag := magField_eq x
  have he : expo x = -1074 := by omega
  rw [h, he] at hmag
  omega

/-- A pattern is its sign and its other bits. -/
theorem eq_packF64 (x : F64) : x = packF64 (signBit x) (magField x) := by
  have hx := x.isLt
  have hmag : magField x < 2 ^ 63 := (x.extractLsb' 0 63).isLt
  apply BitVec.eq_of_toNat_eq
  rw [toNat_packF64 _ _ hmag, signBit, BitVec.getLsbD, Nat.testBit_eq_decide_div_mod_eq, magField,
    BitVec.extractLsb'_toNat, Nat.shiftRight_zero, Bool.toNat, Bool.cond_decide]
  split <;> omega

theorem eq_zero_of_magField {x : F64} (h : magField x = 0) : x = if signBit x then negZero else posZero := by
  have hx := eq_packF64 x
  rw [h] at hx
  cases hs : signBit x with
  | false => rw [hx, hs]; decide
  | true => rw [hx, hs]; decide

theorem isNaN_iff {x : F64} : isNaN x = true ↔ expField x = 2047 ∧ fracField x ≠ 0 := by
  simp [isNaN]

theorem isInf_iff {x : F64} : isInf x = true ↔ expField x = 2047 ∧ fracField x = 0 := by
  simp [isInf]

theorem isNaN_or_isInf_of_isFinite_eq_false {x : F64} (h : isFinite x = false) : isNaN x = true ∨ isInf x = true := by
  rw [isFinite, bne_eq_false_iff_eq] at h
  by_cases hf : fracField x = 0
  · exact .inr (isInf_iff.2 ⟨h, hf⟩)
  · exact .inl (isNaN_iff.2 ⟨h, hf⟩)

theorem isNaN_of_isInf {z : F64} (h : isInf z = true) : isNaN z = false := by
  obtain ⟨-, hf⟩ := isInf_iff.1 h
  simp [isNaN, hf]

theorem eq_packF64_of_isInf {x : F64} (h : isInf x = true) : x = packF64 (signBit x) infMag := by
  obtain ⟨he, hf⟩ := isInf_iff.1 h
  have hx := eq_packF64 x
  rwa [magField_eq_fields, he, hf] at hx

theorem isNaN_quiet {x : F64} (h : isNaN x = true) : isNaN (quiet x) = true := by
  obtain ⟨he, -⟩ := isNaN_iff.1 h
  have hexp : expField (quiet x) = 2047 := by
    rw [expField, quiet, BitVec.extractLsb'_or, show BitVec.extractLsb' 52 11 (0x0008000000000000 : F64) = 0#11 by decide,
      BitVec.or_zero]
    exact he
  have hfrac : fracField (quiet x) ≠ 0 := by
    intro h0
    have h51 : ((quiet x).extractLsb' 0 52).getLsbD 51 = true := by
      rw [BitVec.getLsbD_extractLsb', Nat.zero_add, getLsbD_quiet_51]
      decide
    rw [BitVec.eq_of_toNat_eq (y := 0#52) h0] at h51
    exact absurd h51 (by decide)
  exact isNaN_iff.2 ⟨hexp, hfrac⟩

/-! ### The order of the patterns -/

theorem abs_f64Value (x : F64) : |f64Value x| = (mant x : ℚ) * (2 : ℚ) ^ expo x := by
  rw [f64Value, mul_assoc, abs_mul, abs_of_nonneg (a := (mant x : ℚ) * (2 : ℚ) ^ expo x) (by positivity)]
  cases signBit x <;> simp

theorem f64Value_eq_abs (x : F64) : f64Value x = (if signBit x then -1 else 1) * |f64Value x| := by
  rw [abs_f64Value, f64Value, mul_assoc]

theorem f64Value_nonneg {x : F64} (h : signBit x = false) : 0 ≤ f64Value x := by
  rw [f64Value_eq_abs, h]
  simp

theorem f64Value_nonpos {x : F64} (h : signBit x = true) : f64Value x ≤ 0 := by
  rw [f64Value_eq_abs, h]
  simp

theorem f64Value_eq_zero_iff (x : F64) : f64Value x = 0 ↔ magField x = 0 := by
  rw [← abs_eq_zero, abs_f64Value, magField_eq_zero_iff, mul_eq_zero, Nat.cast_eq_zero]
  exact or_iff_left (by positivity)

/-- The bits 62:0 order the exponents: a significand above the least exponent has its leading 1. -/
theorem expo_le_of_magField_le {x y : F64} (h : magField x ≤ magField y) : expo x ≤ expo y := by
  by_contra he
  have hge := mant_ge (lt_of_le_of_lt (expo_ge y) (not_le.1 he))
  have hlt := mant_lt y
  have hx := magField_eq x
  have hy := magField_eq y
  omega

/-- Greater bits 62:0 have the greater exponent, or the same one and the greater significand. -/
theorem abs_f64Value_lt {x y : F64} (h : magField x < magField y) : |f64Value x| < |f64Value y| := by
  rw [abs_f64Value, abs_f64Value]
  rcases (expo_le_of_magField_le h.le).eq_or_lt with he | he
  · have hm : mant x < mant y := by
      have hx := magField_eq x
      have hy := magField_eq y
      rw [he] at hx
      omega
    have hm' : (mant x : ℚ) < mant y := by exact_mod_cast hm
    rw [he]
    gcongr
  · have hge : (2 : ℚ) ^ 52 ≤ mant y := by exact_mod_cast mant_ge (lt_of_le_of_lt (expo_ge x) he)
    have hlt : (mant x : ℚ) < 2 ^ 53 := by exact_mod_cast mant_lt x
    calc (mant x : ℚ) * 2 ^ expo x < 2 ^ 53 * 2 ^ expo x := by gcongr
      _ = 2 ^ 52 * 2 ^ (expo x + 1) := by rw [zpow_add_one₀ two_ne_zero]; ring
      _ ≤ mant y * 2 ^ expo y := by
        gcongr
        · norm_num
        · exact he

theorem abs_f64Value_congr {x y : F64} (h : magField x = magField y) : |f64Value x| = |f64Value y| := by
  have he := (expo_le_of_magField_le h.le).antisymm (expo_le_of_magField_le h.ge)
  have hx := magField_eq x
  have hy := magField_eq y
  have hm : mant x = mant y := by rw [he] at hx; omega
  rw [abs_f64Value, abs_f64Value, he, hm]

theorem abs_f64Value_lt_iff (x y : F64) : |f64Value x| < |f64Value y| ↔ magField x < magField y := by
  refine ⟨fun h => ?_, abs_f64Value_lt⟩
  rcases lt_trichotomy (magField x) (magField y) with hm | hm | hm
  · exact hm
  · exact absurd (abs_f64Value_congr hm) h.ne
  · exact absurd (abs_f64Value_lt hm) h.asymm

/-- `orderKey` orders the patterns as their values do. -/
theorem orderKey_lt_iff (x y : F64) : orderKey x < orderKey y ↔ f64Value x < f64Value y := by
  have hxy := abs_f64Value_lt_iff x y
  have hyx := abs_f64Value_lt_iff y x
  have hx0 := abs_eq_zero.trans (f64Value_eq_zero_iff x)
  have hy0 := abs_eq_zero.trans (f64Value_eq_zero_iff y)
  rw [f64Value_eq_abs x, f64Value_eq_abs y, orderKey, orderKey]
  have ha := abs_nonneg (f64Value x)
  have hb := abs_nonneg (f64Value y)
  generalize |f64Value x| = a at *
  generalize |f64Value y| = b at *
  cases signBit x with
  | false =>
    cases signBit y with
    | false => simpa using hxy.symm
    | true =>
      simp only [Bool.false_eq_true, if_false, if_true, one_mul, neg_one_mul]
      exact iff_of_false (by omega) (by linarith)
  | true =>
    cases signBit y with
    | false =>
      simp only [Bool.false_eq_true, if_false, if_true, one_mul, neg_one_mul]
      rw [← not_iff_not, not_lt, not_lt]
      have hkey : (magField y : ℤ) ≤ -magField x ↔ magField x = 0 ∧ magField y = 0 := by omega
      rw [hkey, ← hx0, ← hy0]
      exact ⟨fun ⟨h1, h2⟩ => by rw [h1, h2, neg_zero], fun h => ⟨by linarith, by linarith⟩⟩
    | true => simpa using hyx.symm

/-- Comparison is that of the values. An infinity counts as the value its fields spell, `2^1024` of its sign. -/
theorem flt_iff {x y : F64} (hx : isNaN x = false) (hy : isNaN y = false) :
    flt x y = true ↔ f64Value x < f64Value y := by
  rw [flt, hx, hy, ← orderKey_lt_iff]
  simp

/-! ### RHA (42_quantize_writeback.md R150) -/

theorem nearestInt_eq_iff {a : ℚ} {n : ℤ} : nearestInt a = n ↔ (n : ℚ) - 1 / 2 ≤ a ∧ a < n + 1 / 2 := by
  rw [nearestInt, Int.floor_eq_iff]
  constructor <;> rintro ⟨h1, h2⟩ <;> constructor <;> linarith

theorem nearestInt_natCast (n : Nat) : nearestInt n = n := by
  rw [nearestInt_eq_iff]
  constructor <;> push_cast <;> linarith

theorem nearestInt_mono {a b : ℚ} (h : a ≤ b) : nearestInt a ≤ nearestInt b :=
  Int.floor_mono (by linarith)

/-- Half up on a magnitude `m / 2^k`, as `rha` computes it. -/
theorem nearestInt_div_two_pow (m : Nat) {k : Nat} (hk : 0 < k) :
    nearestInt ((m : ℚ) / 2 ^ k) = ((m + 2 ^ (k - 1)) / 2 ^ k : Nat) := by
  obtain ⟨j, rfl⟩ := Nat.exists_eq_succ_of_ne_zero hk.ne'
  have hhalf : (m : ℚ) / 2 ^ (j + 1) + 1 / 2 = ((m + 2 ^ j : Nat) : ℚ) / (2 ^ (j + 1) : Nat) := by
    push_cast
    rw [pow_succ]
    field_simp
  rw [nearestInt, Nat.succ_eq_add_one, hhalf, Rat.floor_natCast_div_natCast, Nat.add_sub_cancel, Int.natCast_ediv]

theorem rha_of_isNaN_or_isInf {z : F64} (h : isNaN z = true ∨ isInf z = true) : rha z = z := by
  rw [rha, if_pos (by simpa using h)]

/-- A pattern whose last place is 1 or more stands for an integer. -/
theorem abs_f64Value_of_expo_nonneg {z : F64} (h : 0 ≤ expo z) :
    |f64Value z| = (mant z * 2 ^ (expo z).toNat : Nat) := by
  rw [abs_f64Value]
  push_cast
  rw [← zpow_natCast, Int.toNat_of_nonneg h]

theorem abs_f64Value_of_expo_neg {z : F64} (h : expo z < 0) : |f64Value z| = (mant z : ℚ) / 2 ^ (-expo z).toNat := by
  rw [abs_f64Value, div_eq_mul_inv, ← zpow_natCast, ← zpow_neg, Int.toNat_of_nonneg (by omega), neg_neg]

theorem rha_of_isFinite {z : F64} (h : isFinite z = true) :
    isFinite (rha z) = true ∧ signBit (rha z) = signBit z ∧
      f64Value (rha z) = (if signBit z then -1 else 1) * (nearestInt |f64Value z| : ℚ) := by
  rw [rha, if_neg (by simp [isNaN_of_isFinite h, isInf_of_isFinite h])]
  split
  · next he =>
    refine ⟨h, rfl, ?_⟩
    rw [abs_f64Value_of_expo_nonneg he, nearestInt_natCast, Int.cast_natCast, ← abs_f64Value_of_expo_nonneg he]
    exact f64Value_eq_abs z
  · next he =>
    have hk : 0 < (-expo z).toNat := by omega
    have hlt : (mant z + 2 ^ ((-expo z).toNat - 1)) / 2 ^ (-expo z).toNat < 2 ^ 53 := by
      rw [Nat.div_lt_iff_lt_mul (by positivity)]
      obtain ⟨j, hj⟩ := Nat.exists_eq_succ_of_ne_zero hk.ne'
      have hm := mant_lt z
      have hp : 0 < 2 ^ j := by positivity
      rw [hj, Nat.succ_sub_one, pow_succ 2 j]
      omega
    obtain ⟨hfin, hval⟩ := roundPack_natural (signBit z) hlt
    refine ⟨hfin, signBit_roundPack _ _ _, ?_⟩
    rw [abs_f64Value_of_expo_neg (not_le.1 he), nearestInt_div_two_pow _ hk, Int.cast_natCast]
    exact hval

/-! ### WB8 (42_quantize_writeback.md R151, R152) -/

/-- `toInteger` of a natural number. -/
theorem toInteger_eq {x : F64} {n : Nat} (h : |f64Value x| = n) : toInteger x = n := by
  have hcast : ((mant x * 2 ^ (expo x).toNat : Nat) : ℚ) = (n * 2 ^ (-expo x).toNat : Nat) := by
    rw [Nat.cast_mul, Nat.cast_mul, ← h, abs_f64Value, mul_assoc]
    push_cast
    rw [← zpow_natCast, ← zpow_natCast, ← zpow_add₀ two_ne_zero]
    congr 2
    omega
  rw [toInteger, Nat.cast_inj.1 hcast, Nat.mul_div_cancel _ (by positivity)]

/-- The fields of an infinity spell `2^1024`, of which only this bound is used. -/
theorem lt_abs_f64Value_of_isInf {z : F64} (h : isInf z = true) : 255 < |f64Value z| := by
  obtain ⟨he, hf⟩ := isInf_iff.1 h
  have hmant : mant z = 2 ^ 52 := by rw [mant, he, hf]; norm_num
  have hexpo : 0 ≤ expo z := by rw [expo, he]; norm_num
  have hpow : (1 : ℚ) ≤ 2 ^ expo z := one_le_zpow₀ one_le_two hexpo
  rw [abs_f64Value, hmant]
  push_cast
  linarith

theorem f64Value_f255 : f64Value f255 = 255 := by
  rw [f64Value, show signBit f255 = false by decide, show mant f255 = 255 * 2 ^ 45 by decide,
    show expo f255 = -45 by decide]
  norm_num

/-- `clamp(z, 0, 255)` is a finite pattern of sign +, and its value is that of `z` cut to 0..255. -/
theorem clamp255_spec {z : F64} (h : isNaN z = false) :
    isFinite (clamp255 z) = true ∧ signBit (clamp255 z) = false ∧
      f64Value (clamp255 z) = if f64Value z < 0 then 0 else if 255 < f64Value z then 255 else f64Value z := by
  have hlow : flt z posZero = true ↔ f64Value z < 0 := by rw [flt_iff h (by decide), f64Value_posZero]
  have hhigh : flt f255 z = true ↔ 255 < f64Value z := by rw [flt_iff (by decide) h, f64Value_f255]
  rw [clamp255]
  simp only [hlow, hhigh]
  by_cases h0 : f64Value z < 0
  · rw [if_pos (.inl h0), if_pos h0]
    exact ⟨by decide, by decide, f64Value_posZero⟩
  by_cases hz : z = negZero
  · subst hz
    have hv : f64Value negZero = 0 := (f64Value_eq_zero_iff _).2 (by decide)
    rw [if_pos (.inr rfl), if_neg h0, hv, if_neg (by norm_num)]
    exact ⟨by decide, by decide, f64Value_posZero⟩
  rw [if_neg (not_or.2 ⟨h0, hz⟩), if_neg h0]
  by_cases h1 : 255 < f64Value z
  · rw [if_pos h1, if_pos h1]
    exact ⟨by decide, by decide, f64Value_f255⟩
  rw [if_neg h1, if_neg h1]
  have hsign : signBit z = false := by
    by_contra hs
    rw [Bool.not_eq_false] at hs
    have h00 := le_antisymm (f64Value_nonpos hs) (not_lt.1 h0)
    exact hz (eq_negZero_of_mant hs ((magField_eq_zero_iff z).1 ((f64Value_eq_zero_iff z).1 h00)))
  refine ⟨?_, hsign, rfl⟩
  by_contra hf
  rcases isNaN_or_isInf_of_isFinite_eq_false (Bool.not_eq_true _ ▸ hf) with hn | hi
  · exact absurd hn (by simp [h])
  · rw [← abs_of_nonneg (f64Value_nonneg hsign)] at h1
    exact h1 (lt_abs_f64Value_of_isInf hi)

/-- RHA of a finite pattern of sign + is a natural number, which `toInteger` reads off. -/
theorem toInteger_rha {z : F64} (hf : isFinite z = true) (hs : signBit z = false) :
    (toInteger (rha z) : ℤ) = nearestInt (f64Value z) := by
  obtain ⟨-, -, hval⟩ := rha_of_isFinite hf
  have hnonneg := f64Value_nonneg hs
  rw [hs, if_neg (by decide), one_mul, abs_of_nonneg hnonneg] at hval
  obtain ⟨n, hn⟩ := Int.eq_ofNat_of_zero_le ((nearestInt_natCast 0).symm.le.trans (nearestInt_mono hnonneg))
  rw [hn, Int.cast_natCast] at hval
  rw [hn, toInteger_eq (by rw [hval, Nat.abs_cast])]

/-- WB8 of a pattern that is no NaN: an infinity counts as the value its fields spell. -/
theorem toNat_wb8 {z : F64} (h : isNaN z = false) :
    ((wb8 z).toNat : ℤ) =
      if f64Value z < 0 then 0 else if 255 < f64Value z then 255 else nearestInt (f64Value z) := by
  obtain ⟨hfin, hsign, hval⟩ := clamp255_spec h
  have hint := toInteger_rha hfin hsign
  have h0 : nearestInt 0 = 0 := nearestInt_natCast 0
  have h255 : nearestInt 255 = 255 := nearestInt_natCast 255
  have hcut : f64Value (clamp255 z) ≤ 255 := by
    rw [hval]; split_ifs <;> linarith
  have hle := nearestInt_mono hcut
  rw [wb8, if_neg (by simp [h]), BitVec.toNat_ofNat, Nat.mod_eq_of_lt (by omega), hint, hval]
  split_ifs
  · exact h0
  · exact h255
  · rfl

/-! ### The values of patterns and rounding -/

/-- `m * 2^e` with `m` of 53 bits is the value of a finite pattern, away from the ends of the exponent range. -/
theorem exists_f64Value_eq (s : Bool) {m : Nat} {e : ℤ} (hm : m < 2 ^ 53) (hlo : -1000 ≤ e) (hhi : e ≤ 900) :
    ∃ y : F64, isFinite y = true ∧ f64Value y = (if s then -1 else 1) * ((m : ℚ) * 2 ^ e) := by
  by_cases h0 : m = 0
  · exact ⟨posZero, by decide, by rw [f64Value_posZero, h0]; simp⟩
  obtain ⟨k, hk⟩ := Nat.exists_eq_add_of_le (Nat.lt_succ_iff.1 ((Nat.log2_lt h0).2 hm))
  have hge : 2 ^ 52 ≤ m * 2 ^ k := by
    rw [hk, pow_add]
    exact Nat.mul_le_mul_right _ (Nat.log2_self_le h0)
  have hlt : m * 2 ^ k < 2 ^ 53 := by
    rw [show 53 = (m.log2 + 1) + k by omega, pow_add]
    exact Nat.mul_lt_mul_of_pos_right Nat.lt_log2_self (by positivity)
  obtain ⟨E, hE⟩ : ∃ E : Nat, (E : ℤ) = e - k + 1074 := ⟨(e - k + 1074).toNat, by omega⟩
  obtain ⟨hfin, hval, -⟩ := f64Value_packF64 s hlt.le (.inr hge) (show E * 2 ^ 52 + m * 2 ^ k < infMag by
    rw [infMag]; omega)
  refine ⟨_, hfin, ?_⟩
  rw [hval, hE, add_sub_cancel_right, zpow_sub₀ two_ne_zero, zpow_natCast]
  push_cast
  field_simp

theorem lt_overflowBound {x : ℚ} (h : x < 2 ^ 64) : x < overflowBound := by
  obtain ⟨p, hp0, hbound, hp, -⟩ := overflowBound_eq
  have := hp 64 (by norm_num)
  rw [hbound]
  norm_num at this
  linarith

section
variable {x : ℚ} {r : F64} {m : Nat} {e : ℤ}

/-- A number that is at most `m * 2^e` in magnitude does not overflow. -/
theorem isNearestEven_of_abs_le (hx : IsRounded x r) (hm : m < 2 ^ 53) (he : e ≤ 0) (hxm : |x| ≤ m * 2 ^ e) :
    IsNearestEven x r := by
  have hpow : (2 : ℚ) ^ e ≤ 1 := zpow_le_one_of_nonpos₀ one_le_two he
  have hm' : (m : ℚ) < 2 ^ 53 := by exact_mod_cast hm
  have hle : (m : ℚ) * 2 ^ e ≤ m * 1 := by gcongr
  exact hx.1 (lt_overflowBound (by linarith))

/-- Rounding does not cross `±m * 2^e`, which are values of patterns. -/
theorem abs_f64Value_le_of_isRounded (hx : IsRounded x r) (hm : m < 2 ^ 53) (hlo : -1000 ≤ e) (he : e ≤ 0)
    (hxm : |x| ≤ m * 2 ^ e) : |f64Value r| ≤ m * 2 ^ e := by
  obtain ⟨-, hnear, -⟩ := isNearestEven_of_abs_le hx hm he hxm
  obtain ⟨y, hy, hyv⟩ := exists_f64Value_eq false hm hlo (by omega)
  obtain ⟨y', hy', hyv'⟩ := exists_f64Value_eq true hm hlo (by omega)
  have hup := (le_abs_self _).trans (hnear y' hy')
  have hdown := (neg_le_abs _).trans (hnear y hy)
  rw [hyv, if_neg (by decide), one_mul] at hdown
  rw [hyv', if_pos rfl, neg_one_mul, sub_neg_eq_add] at hup
  obtain ⟨h1, h2⟩ := abs_le.1 hxm
  rw [abs_of_nonneg (by linarith)] at hup
  rw [abs_of_nonpos (by linarith)] at hdown
  exact abs_le.2 ⟨by linarith, by linarith⟩

/-- `±m * 2^e` is the value of a pattern, and so its own rounding. -/
theorem f64Value_eq_of_isRounded (hx : IsRounded x r) (hm : m < 2 ^ 53) (hlo : -1000 ≤ e) (he : e ≤ 0)
    (hxm : |x| = m * 2 ^ e) : f64Value r = x := by
  obtain ⟨-, hnear, -⟩ := isNearestEven_of_abs_le hx hm he hxm.le
  obtain ⟨y, hy, hyv⟩ := exists_f64Value_eq (decide (x < 0)) hm hlo (by omega)
  have hyx : f64Value y = x := by
    rw [hyv, ← hxm]
    by_cases h : x < 0
    · simp [h, abs_of_neg h]
    · simp [h, abs_of_nonneg (not_lt.1 h)]
  have h := hnear y hy
  rw [hyx, sub_self, abs_zero] at h
  exact (sub_eq_zero.1 (abs_nonpos_iff.1 h)).symm

end

/-! ### Quant1 (42_quantize_writeback.md R153) -/

theorem divisor_pos {q : Divisor} (hq : q ≠ 0) : 0 < q.toNat :=
  Nat.pos_of_ne_zero fun h0 => hq (BitVec.eq_of_toNat_eq h0)

/-- A divisor as `fdiv` is given it. -/
theorem toF64_divisor (q : Divisor) : isFinite (toF64 q.toNat) = true ∧ signBit (toF64 q.toNat) = false ∧
    f64Value (toF64 q.toNat) = q.toNat :=
  toF64IsExact q.toNat (by have := q.isLt; omega)

/-- Twice a magnitude is an integer, or a significand over a power of two. -/
theorem two_mul_abs_f64Value (z : F64) :
    ∃ a d : Nat, 0 < d ∧ 2 * |f64Value z| = (a : ℚ) / d ∧ (d = 1 ∨ a < 2 ^ 53) := by
  have hval : 2 * |f64Value z| = mant z * 2 ^ (expo z + 1) := by
    rw [abs_f64Value, zpow_add_one₀ two_ne_zero]
    ring
  rcases Int.le_total 0 (expo z + 1) with he | he
  · obtain ⟨j, hj⟩ := Int.eq_ofNat_of_zero_le he
    refine ⟨mant z * 2 ^ j, 1, one_pos, ?_, .inl rfl⟩
    rw [hval, hj, zpow_natCast]
    push_cast
    ring
  · obtain ⟨j, hj⟩ := Int.eq_ofNat_of_zero_le (Int.neg_nonneg_of_nonpos he)
    refine ⟨mant z, 2 ^ j, by positivity, ?_, .inr (mant_lt z)⟩
    rw [hval, ← neg_neg (expo z + 1), hj, zpow_neg, zpow_natCast]
    push_cast
    rfl

/-- No quotient by a divisor lies between a half and the value next below it, `(2^53 - 1) / 2^54`: with `a` of 53 bits,
`a < n` makes `a / n` at most `(2^53 - 1) / 2^53`. -/
theorem quotient_le_of_lt_half {z : F64} {q : Divisor} (hq : q ≠ 0) (h : |f64Value z| / q.toNat < 1 / 2) :
    |f64Value z| / q.toNat ≤ (2 ^ 53 - 1 : Nat) * 2 ^ (-54 : ℤ) := by
  have hq' : (0 : ℚ) < q.toNat := by exact_mod_cast divisor_pos hq
  obtain ⟨a, d, hd, hval, hor⟩ := two_mul_abs_f64Value z
  have hd' : (0 : ℚ) < d := by exact_mod_cast hd
  have hlt : a < q.toNat * d := by
    rw [div_lt_iff₀ hq'] at h
    have : (a : ℚ) / d < q.toNat := by linarith
    rw [div_lt_iff₀ hd'] at this
    exact_mod_cast this
  have ha : a < 2 ^ 53 := by
    rcases hor with h1 | h1
    · have := q.isLt
      rw [h1] at hlt
      omega
    · exact h1
  have hgap : 2 ^ 53 * a ≤ (2 ^ 53 - 1) * (q.toNat * d) := by omega
  have hgap' : (2 : ℚ) ^ 53 * a ≤ (2 ^ 53 - 1 : Nat) * (q.toNat * d) := by exact_mod_cast hgap
  have h54 : (2 : ℚ) ^ (-54 : ℤ) = 1 / 2 / 2 ^ 53 := by norm_num
  rw [div_le_iff₀ hq', h54]
  have habs : |f64Value z| = a / d / 2 := by linarith
  rw [habs, div_div, div_le_iff₀ (by positivity)]
  calc (a : ℚ) = 2 ^ 53 * a / 2 ^ 53 := by ring
    _ ≤ (2 ^ 53 - 1 : Nat) * (q.toNat * d) / 2 ^ 53 := by gcongr
    _ = _ := by ring

/-- Quant1 of a finite pattern is RHA of the rounded quotient, which has the pattern's sign. -/
theorem quant1_of_isFinite {z : F64} {q : Divisor} (hq : q ≠ 0) (hz : isFinite z = true) :
    ∃ r, quant1 z q = rha r ∧ signBit r = signBit z ∧ IsRounded (f64Value z / q.toNat) r := by
  obtain ⟨hf, hs, hv⟩ := toF64_divisor q
  have hv0 : f64Value (toF64 q.toNat) ≠ 0 := by
    rw [hv, Nat.cast_ne_zero]
    exact (divisor_pos hq).ne'
  refine ⟨_, rfl, ?_, hv ▸ fdivRoundsTheQuotient z _ hz hf hv0⟩
  have hm : mant (toF64 q.toNat) ≠ 0 := fun h => hv0 ((f64Value_eq_zero_iff _).2 ((magField_eq_zero_iff _).2 h))
  rw [fdiv_finite hz hf hm, signBit_roundPack, hs, Bool.bne_false]

theorem quant1_of_isNaN {z : F64} (q : Divisor) (h : isNaN z = true) : quant1 z q = quiet z := by
  rw [quant1, fdiv]
  simp only [h, if_true]
  exact rha_of_isNaN_or_isInf (.inl (isNaN_quiet h))

theorem quant1_of_isInf {z : F64} (q : Divisor) (h : isInf z = true) : quant1 z q = z := by
  obtain ⟨hf, hs, -⟩ := toF64_divisor q
  have hdiv : fdiv z (toF64 q.toNat) = z := by
    rw [fdiv]
    simp only [isNaN_of_isInf h, isNaN_of_isFinite hf, h, isInf_of_isFinite hf, hs, Bool.bne_false, if_true,
      Bool.false_eq_true, if_false]
    exact (eq_packF64_of_isInf h).symm
  rw [quant1, hdiv, rha_of_isNaN_or_isInf (.inr h)]

/-- A quotient below a half is quantized to the zero of its sign, as its rounding is below a half too. -/
theorem quant1_of_lt_half {z : F64} {q : Divisor} (hq : q ≠ 0) (hz : isFinite z = true)
    (h : |f64Value z| / q.toNat < 1 / 2) : quant1 z q = if signBit z then negZero else posZero := by
  obtain ⟨r, hr, hs, hx⟩ := quant1_of_isFinite hq hz
  have hxm : |f64Value z / q.toNat| ≤ (2 ^ 53 - 1 : Nat) * 2 ^ (-54 : ℤ) := by
    rw [abs_div, Nat.abs_cast]
    exact quotient_le_of_lt_half hq h
  have hle := abs_f64Value_le_of_isRounded hx (by norm_num) (by norm_num) (by norm_num) hxm
  have hlt : |f64Value r| < 1 / 2 := hle.trans_lt (by norm_num)
  obtain ⟨hfin, -⟩ := isNearestEven_of_abs_le hx (by norm_num) (by norm_num) hxm
  obtain ⟨-, hsr, hval⟩ := rha_of_isFinite hfin
  have hint : nearestInt |f64Value r| = 0 := by
    rw [nearestInt_eq_iff]
    have := abs_nonneg (f64Value r)
    constructor <;> push_cast <;> linarith
  rw [hint, Int.cast_zero, mul_zero, f64Value_eq_zero_iff] at hval
  rw [hr, eq_zero_of_magField hval, hsr, hs]

/-- An exact half-integer quotient is its own rounding, and RHA takes it away from zero. -/
theorem f64Value_quant1_of_half {z : F64} {q : Divisor} {n : Nat} (hq : q ≠ 0) (hz : isFinite z = true)
    (hn : n < 2 ^ 51) (h : |f64Value z| / q.toNat = n + 1 / 2) :
    f64Value (quant1 z q) = (if signBit z then -1 else 1) * (n + 1) := by
  obtain ⟨r, hr, hs, hx⟩ := quant1_of_isFinite hq hz
  have hxm : |f64Value z / q.toNat| = (2 * n + 1 : Nat) * 2 ^ (-1 : ℤ) := by
    rw [abs_div, Nat.abs_cast, h, zpow_neg_one]
    push_cast
    ring
  have hval := f64Value_eq_of_isRounded hx (by omega) (by norm_num) (by norm_num) hxm
  obtain ⟨hfin, -⟩ := isNearestEven_of_abs_le hx (by omega) (by norm_num) hxm.le
  have hint : nearestInt |f64Value r| = n + 1 := by
    rw [hval, abs_div, Nat.abs_cast, h, nearestInt_eq_iff]
    constructor <;> push_cast <;> linarith
  obtain ⟨-, -, hrha⟩ := rha_of_isFinite hfin
  rw [hr, hrha, hint, hs]
  push_cast
  rfl

end Sys2Proof.Machine

namespace Sys2Proof

open Sys2Proof.Machine

/-- Settles O17: the completion of a compute command, with every lane of COEF quantized as its result. -/
theorem quantQuantizesCoefficients : Obligations.QuantQuantizesCoefficients := by
  intro s vw vh hb
  obtain ⟨t, ht, hcoef, hout, hframe⟩ := exec_completes (i := .quant vw vh) rfl hb
  refine ⟨t, ht, fun k => ?_, hout, hframe⟩
  rw [hcoef, resultCoef, getElem_quantize, quant1]

/-- Settles O18: the completion of a compute command whose result is COEF itself. -/
theorem packWritesBack : Obligations.PackWritesBack := by
  intro s vw vh hb
  obtain ⟨t, ht, hcoef, hout, hframe⟩ := exec_completes (i := .pack vw vh) rfl hb
  rw [resultCoef] at hcoef
  rw [hcoef] at hout hframe
  exact ⟨t, ht, hout, hframe⟩

/-- Settles O31: a lane of what QUANT and PACK compute reads only that lane of COEF and QT. -/
theorem lanesAreIndependent : Obligations.LanesAreIndependent := by
  intro s s' t t' vw vh k hb hb' hcoef hout
  refine ⟨fun hqt => exec_lane_congr rfl hb hb' ?_ hout, exec_lane_congr rfl hb hb' hcoef hout⟩
  rw [resultCoef, resultCoef, getElem_quantize, getElem_quantize, hcoef, hqt]

/-- Settles O51: RHA adds a half of a unit to the significand and cuts, or has nothing to cut. -/
theorem rhaRoundsHalfAwayFromZero : Obligations.RhaRoundsHalfAwayFromZero :=
  fun _ => ⟨rha_of_isNaN_or_isInf, rha_of_isFinite⟩

/-- Settles O52: WB8 reads off RHA of the clamped pattern; the clamp takes an infinity for a number above 255 in
magnitude. -/
theorem writeBackSaturatesAndRounds : Obligations.WriteBackSaturatesAndRounds := by
  refine fun z => ⟨fun h => by rw [wb8, if_pos h], fun h => ?_, fun h => toNat_wb8 (isNaN_of_isFinite h)⟩
  have hwb := toNat_wb8 (isNaN_of_isInf h)
  have hlarge := lt_abs_f64Value_of_isInf h
  have habs := f64Value_eq_abs z
  cases hs : signBit z
  · rw [hs, if_neg (by decide), one_mul] at habs
    rw [if_neg (by linarith), if_pos (by linarith)] at hwb
    exact_mod_cast hwb
  · rw [hs, if_pos rfl, neg_one_mul] at habs
    rw [if_pos (by linarith)] at hwb
    exact_mod_cast hwb

/-- Settles O53: the cases of the pattern, then of the quotient. -/
theorem quantizerCornerCases : Obligations.QuantizerCornerCases := by
  intro z q hq
  refine ⟨?_, fun h => ?_, quant1_of_lt_half hq, fun hz n hn h => f64Value_quant1_of_half hq hz hn h⟩
  · rintro (h | h)
    · have hv := (f64Value_eq_zero_iff z).2 h
      have hz : isFinite z = true := by
        rw [magField_eq_fields] at h
        rw [isFinite, bne_iff_ne]
        omega
      rw [quant1_of_lt_half hq hz (by rw [hv]; norm_num)]
      exact (eq_zero_of_magField h).symm
    · exact quant1_of_isInf q h
  · rw [quant1_of_isNaN q h]
    exact ⟨rfl, isNaN_quiet h⟩

end Sys2Proof
end

section
/-! PROOFS. The control family of 43_control.md: which issue step raises INVALID_QT, and the obligations O13 and O14. -/

namespace Sys2Proof.Machine

theorem qtHasZero_defaultQt : qtHasZero Config.defaultQt = false := by decide

/-- NOP and QTDEF end with DONE and no error, whatever the state (40_command_protocol.md R100). -/
theorem status_exec_control {i : Instr} {s t : State} (hc : isCompute i = false) (h : exec i s = .next t) :
    t.status = s.status.clearOutcome.ended := by
  cases i <;> simp only [isCompute, reduceCtorEq] at hc
  case nop => rw [exec_nop] at h; cases h; rfl
  case qtdef => rw [exec_qtdef] at h; cases h; rfl

/-- An issue step leaves ERRCODE 3 only for a command that reads QT, over a table with a zero (60_exceptions.md R205). -/
theorem exec_idle_invalidQt {i : Instr} {s t : State} (hb : s.status.busy = false) (h : exec i s = .next t)
    (he : t.status.errCode = 3) : usesTable i = true ∧ qtHasZero s.qt = true := by
  cases hc : isCompute i
  · rw [status_exec_control hc h] at he
    exact absurd he (by simp)
  · rw [exec_idle hc hb, issue_eq] at h
    split at h
    · cases h
      exact absurd he (by simp [EngineError.code])
    · split at h
      · next hzero => exact hzero
      · cases h
        exact absurd he (by simp [acceptCommand])

end Sys2Proof.Machine

namespace Sys2Proof

open Sys2Proof.Machine

/-- Settles O13: the issue step of NOP clears the outcome and ends. -/
theorem nopOnlyReportsDone : Obligations.NopOnlyReportsDone := exec_nop

/-- Settles O14: DEFAULT_QT has no zero, so no issue step over it raises INVALID_QT. -/
theorem qtdefRestoresTable : Obligations.QtdefRestoresTable := by
  refine fun s => ⟨_, exec_qtdef s, rfl, rfl, rfl, fun i u hb h he => ?_⟩
  obtain ⟨-, hzero⟩ := exec_idle_invalidQt hb h he
  exact absurd (qtHasZero_defaultQt.symm.trans hzero) Bool.false_ne_true

end Sys2Proof
end

section
/-! PROOFS. The host tiling of 44_host_tiling.md: the block origins along one side of an image and over both, the pixels a
valid region holds, and that the driver keeps the number of samples. -/

namespace Sys2Proof.Machine

/-! ### Block origins and valid regions -/

theorem mem_originsBelow {n o : Nat} : o ∈ originsBelow n ↔ o % 8 = 0 ∧ o < n := by
  simp only [originsBelow, List.mem_map, List.mem_range]
  constructor
  · rintro ⟨i, hi, rfl⟩
    omega
  · rintro ⟨h8, hn⟩
    exact ⟨o / 8, by omega, by omega⟩

@[simp] theorem length_originsBelow (n : Nat) : (originsBelow n).length = (n + 7) / 8 := by simp [originsBelow]

theorem nodup_originsBelow (n : Nat) : (originsBelow n).Nodup :=
  List.nodup_range.map (mul_right_injective₀ (by decide : (8 : Nat) ≠ 0))

/-- The origins of both sides in the order of R192, as a library product. -/
theorem blockOrigins_eq_product (width height : Nat) :
    blockOrigins width height = (originsBelow height ×ˢ originsBelow width).map Prod.swap := by
  simp [blockOrigins, SProd.sprod, List.product, List.map_flatMap, Function.comp_def]

@[simp] theorem mem_blockOrigins {width height : Nat} {o : Nat × Nat} :
    o ∈ blockOrigins width height ↔ o.1 ∈ originsBelow width ∧ o.2 ∈ originsBelow height := by
  obtain ⟨ox, oy⟩ := o
  simp [blockOrigins_eq_product, List.mem_product, and_comm]

theorem length_blockOrigins (width height : Nat) :
    (blockOrigins width height).length = ((width + 7) / 8) * ((height + 7) / 8) := by
  simp [blockOrigins_eq_product, List.length_product, Nat.mul_comm]

theorem nodup_blockOrigins (width height : Nat) : (blockOrigins width height).Nodup := by
  rw [blockOrigins_eq_product]
  exact ((nodup_originsBelow height).product (nodup_originsBelow width)).map Prod.swap_injective

theorem validExtent_mem_range {n o : Nat} (ho : o ∈ originsBelow n) : 1 ≤ validExtent n o ∧ validExtent n o ≤ 8 := by
  obtain ⟨-, hn⟩ := mem_originsBelow.1 ho
  rw [validExtent]
  omega

theorem lt_validExtent {n o i : Nat} : i < validExtent n o ↔ i < 8 ∧ o + i < n := by
  rw [validExtent]
  omega

/-- Along one side, the block that holds `x` is the one at `8·⌊x/8⌋` (44_host_tiling.md R195). -/
theorem origin_covers_iff {n o x : Nat} (hx : x < n) :
    (o ∈ originsBelow n ∧ ∃ i, i < validExtent n o ∧ o + i = x) ↔ o = 8 * (x / 8) := by
  simp only [mem_originsBelow, lt_validExtent]
  constructor
  · rintro ⟨⟨h8, -⟩, i, ⟨hi, -⟩, rfl⟩
    omega
  · rintro rfl
    exact ⟨by omega, x % 8, by omega⟩

/-! ### The shape of the result -/

/-- What every step of a fold in `Except` keeps, its result has. -/
theorem foldlM_ok_keeps {ε α β : Type} {f : β → α → Except ε β} {P : β → Prop}
    (hf : ∀ b a c, f b a = .ok c → P b → P c) {l : List α} {b c : β} (h : l.foldlM f b = .ok c) (hb : P b) : P c := by
  induction l generalizing b with
  | nil =>
    cases h
    exact hb
  | cons a l ih =>
    rw [List.foldlM_cons] at h
    cases hfa : f b a with
    | error e => rw [hfa] at h; cases h
    | ok d => rw [hfa] at h; exact ih h (hf b a d hfa hb)

theorem length_copySample {fuel : Nat} {img : Image} {ox oy ch x y : Nat} {a b : List Byte × State}
    (h : copySample fuel img ox oy ch x y a = .ok b) : b.1.length = a.1.length := by
  rw [copySample] at h
  split at h
  · cases h
  · cases h
    exact List.length_set

theorem length_processBlock {fuel : Nat} {img : Image} {quantized : Bool} {ox oy ch : Nat} {a b : List Byte × State}
    (h : processBlock fuel img quantized ox oy ch a = .ok b) : b.1.length = a.1.length := by
  rw [processBlock] at h
  split at h
  · cases h
  · split at h
    · cases h
    · exact foldlM_ok_keeps (P := fun c => c.1.length = a.1.length)
        (fun _ _ _ hc hl => (length_copySample hc).trans hl) h rfl

/-- The array of `Process` begins with one entry for each sample, and every block keeps its length. -/
theorem length_processBlocks {fuel : Nat} {img : Image} {quantized : Bool} {s : State} {b : List Byte × State}
    (h : processBlocks fuel img quantized s = .ok b) : b.1.length = img.width * img.height * img.channels :=
  foldlM_ok_keeps (P := fun c => c.1.length = img.width * img.height * img.channels)
    (fun _ _ _ hc hl => (length_processBlock hc).trans hl) h List.length_replicate

theorem Image.valid_iff {img : Image} : img.valid = true ↔ 1 ≤ img.width ∧ 1 ≤ img.height ∧ 1 ≤ img.channels ∧
    img.samples.length = img.width * img.height * img.channels := by
  simp [Image.valid, and_assoc]

/-- Validity asks of the samples only their number. -/
theorem Image.valid_withSamples {img : Image} (hv : img.valid = true) {l : List Byte}
    (hl : l.length = img.width * img.height * img.channels) : ({ img with samples := l } : Image).valid = true := by
  obtain ⟨hw, hh, hc, -⟩ := Image.valid_iff.1 hv
  exact Image.valid_iff.2 ⟨hw, hh, hc, hl⟩

theorem tableLegal_eq_false {q : Block Nat} {k : Fin 64} (hk : q[k] < 1 ∨ 65535 < q[k]) : tableLegal q = false := by
  rw [tableLegal, List.all_eq_false]
  refine ⟨q[k], by simp, ?_⟩
  rw [← Bool.decide_and, decide_eq_true_iff]
  omega

theorem processImage_of_invalid {fuel : Nat} {img : Image} {q : Option (Block Nat)} {s : State} (hv : img.valid = false) :
    processImage fuel img q s = .error .invalidDimensions := by
  simp [processImage, hv]

theorem processImage_of_illegal_table {fuel : Nat} {img : Image} {table : Block Nat} {s : State} (hv : img.valid = true)
    (ht : tableLegal table = false) : processImage fuel img (some table) s = .error .invalidQuantizationTable := by
  simp [processImage, hv, ht]

/-- An image that `Process` returns is a valid argument with the samples that its blocks left. -/
theorem processImage_ok {fuel : Nat} {img dst : Image} {q : Option (Block Nat)} {s t : State}
    (h : processImage fuel img q s = .ok (dst, t)) :
    img.valid = true ∧ ∃ quantized s1 l, processBlocks fuel img quantized s1 = .ok (l, t) ∧
      dst = { img with samples := l } := by
  cases hv : img.valid with
  | false => rw [processImage_of_invalid hv] at h; cases h
  | true =>
    refine ⟨rfl, ?_⟩
    simp only [processImage, hv, Bool.not_true, Bool.false_eq_true, if_false] at h
    split at h
    · split at h
      · cases h
      · next l _ hblocks =>
        cases h
        exact ⟨false, s, l, hblocks, rfl⟩
    · split at h
      · cases h
      · split at h
        · cases h
        · next s1 _ =>
          split at h
          · cases h
          · next l _ hblocks =>
            cases h
            exact ⟨true, s1, l, hblocks, rfl⟩

end Sys2Proof.Machine

namespace Sys2Proof

open Sys2Proof.Machine

/-- Settles O58: each side has its own origins and extents (R191), and an offset is within the extent exactly when its
pixel is before the end of the side. -/
theorem blockOriginsAndRegions : Obligations.BlockOriginsAndRegions := by
  refine fun width height => ⟨fun o => ?_, length_blockOrigins width height, fun o ho => ?_⟩
  · rw [mem_blockOrigins, mem_originsBelow, mem_originsBelow, and_assoc]
  · obtain ⟨hox, hoy⟩ := mem_blockOrigins.1 ho
    obtain ⟨hw1, hw8⟩ := validExtent_mem_range hox
    obtain ⟨hh1, hh8⟩ := validExtent_mem_range hoy
    refine ⟨hw1, hw8, hh1, hh8, fun x y => ?_⟩
    simp only [lt_validExtent, x.isLt, y.isLt, true_and]

/-- Settles O59: the one block of pixel `(x, y)` is at `(8·⌊x/8⌋, 8·⌊y/8⌋)` (R195). -/
theorem blocksCoverEachPixelOnce : Obligations.BlocksCoverEachPixelOnce := by
  refine fun width height => ⟨nodup_blockOrigins width height, fun x y hx hy => ?_⟩
  refine ⟨(8 * (x / 8), 8 * (y / 8)), ?_, ?_⟩
  · obtain ⟨hox, hi⟩ := (origin_covers_iff hx).2 rfl
    obtain ⟨hoy, hj⟩ := (origin_covers_iff hy).2 rfl
    exact ⟨mem_blockOrigins.2 ⟨hox, hoy⟩, hi, hj⟩
  · rintro o ⟨ho, hi, hj⟩
    obtain ⟨hox, hoy⟩ := mem_blockOrigins.1 ho
    exact Prod.ext ((origin_covers_iff hx).1 ⟨hox, hi⟩) ((origin_covers_iff hy).1 ⟨hoy, hj⟩)

/-- Settles O60: the checks of R193 come first, and the blocks keep the number of samples (R195). -/
theorem processKeepsTheShape : Obligations.ProcessKeepsTheShape := by
  refine fun fuel img q s => ⟨processImage_of_invalid, ?_, fun dst t h => ?_⟩
  · rintro table hv rfl ⟨k, hk⟩
    exact processImage_of_illegal_table hv (tableLegal_eq_false hk)
  · obtain ⟨hv, quantized, s1, l, hblocks, rfl⟩ := processImage_ok h
    exact ⟨Image.valid_withSamples hv (length_processBlocks hblocks), rfl, rfl, rfl⟩

end Sys2Proof
end

section
/-! PROOFS. The errors of 60_exceptions.md: which issue step raises which error, that no other step raises one, that no
run from reset stops or shows another ERRCODE, the interrupt line, and the obligations O8 to O11, O26 and O46. -/

namespace Sys2Proof.Machine

/-! ### Which issue step raises which error -/

/-- An extent outside 1..8 is 0 or in 9..15 (60_exceptions.md R204). -/
theorem legalDim_eq_false {d : BitVec 4} (h : d = 0 ∨ 9 ≤ d.toNat) : legalDim d = false := by
  refine Bool.eq_false_iff.2 fun hl => ?_
  obtain ⟨h1, h8⟩ := (legalDim_eq_true d).1 hl
  rcases h with rfl | h9
  · simp at h1
  · omega

/-- INVALID_DIM comes before the table is looked at (60_exceptions.md R202, R204). -/
theorem exec_invalidDim {i : Instr} {s : State} (hc : isCompute i = true) (hb : s.status.busy = false)
    (hw : i.wellFormed = false) : exec i s = .next (s.setStatus (s.status.clearOutcome.raised .invalidDim)) := by
  rw [exec_idle hc hb, issue_eq, if_pos hw]

/-- INVALID_QT, for a command that divides by QT (60_exceptions.md R205). -/
theorem exec_invalidQt {i : Instr} {s : State} (hc : isCompute i = true) (hb : s.status.busy = false)
    (hw : i.wellFormed = true) (hu : usesTable i = true) (hz : ∃ k : Fin 64, s.qt[k] = 0) :
    exec i s = .next (s.setStatus (s.status.clearOutcome.raised .invalidQt)) := by
  rw [exec_idle hc hb, issue_eq, if_neg (by simp [hw]), if_pos ⟨hu, (qtHasZero_iff _).2 hz⟩]

/-- The step on a CMD write, while idle, of a word that spells no command (60_exceptions.md R203). -/
theorem step_illegal {s : State} {off : Offset} {w : Word} {rest : List HostEvent} {e : DecodeError}
    (hr : s.env.rstN = true) (hb : s.status.busy = false) (hh : s.env.host = .write off w :: rest)
    (hreg : region off = .cmd) (hdec : decode w = .error e) :
    step s = .next (((taken rest s).setLastCmd w).setStatus (s.status.clearOutcome.raised .illegalCmd)) := by
  rw [step_cmdWrite (hostTurn_of_idle hr hb) hh hreg, cmdWrite_illegal (s := taken rest s) hb hdec]
  rfl

/-- The STATUS after a command whose checks do not read QT (60_exceptions.md R202, R205), from the STATUS before. -/
def tableFreeStatus (i : Instr) (t : Status) : Status :=
  if isCompute i = false then t.clearOutcome.ended
  else if t.busy then t.completed
  else if i.wellFormed then t.clearOutcome.accepted
  else t.clearOutcome.raised .invalidDim

/-- The STATUS that a command leaves whose checks do not read QT, at its issue and at its completion. -/
theorem status_exec_tableFree {i : Instr} {s t : State} (hu : usesTable i = false) (h : exec i s = .next t) :
    t.status = tableFreeStatus i s.status := by
  unfold tableFreeStatus
  cases hc : isCompute i
  · exact status_exec_control hc h
  cases hb : s.status.busy
  · cases hw : i.wellFormed
    · rw [exec_invalidDim hc hb hw] at h
      cases h; rfl
    · rw [exec_accepted hc hb hw fun hx => absurd (hu.symm.trans hx) Bool.false_ne_true] at h
      cases h; rfl
  · rw [exec_busy hc hb] at h
    cases h; rfl

/-! ### Which steps raise an error -/

/-- CheckCommand never answers BLOCK_SIZE (60_exceptions.md R206). -/
theorem checkCommand_ne_blockSize {w : Word} {q : Block Divisor} {e : EngineError} (h : checkCommand w q = some e) :
    e ≠ .blockSize := by
  rintro rfl
  simp only [checkCommand] at h
  split_ifs at h <;> cases h

/-- An issue step that leaves ERR set is the error entry of the error CheckCommand finds (60_exceptions.md R210). -/
theorem exec_idle_error {w : Word} {i : Instr} {s t : State} (hdec : decode w = .ok i) (hb : s.status.busy = false)
    (h : exec i s = .next t) (he : t.status.err = true) :
    ∃ e, checkCommand w s.qt = some e ∧ t = s.setStatus (s.status.clearOutcome.raised e) := by
  cases hc : isCompute i
  · rw [status_exec_control hc h] at he
    simp at he
  · rw [exec_idle hc hb, issue, encode_of_decode_compute hdec hc] at h
    split at h
    · next e hcheck => cases h; exact ⟨e, hcheck, rfl⟩
    · cases h
      simp [acceptCommand] at he

/-- A write outside CMD raises no error (60_exceptions.md R200). -/
theorem err_of_err_writeRegion {r : Region} {w : Word} {s : State} (h : (writeRegion r w s).status.err = true) :
    s.status.err = true := by
  rcases writeRegion_status r w s with heq | hst | hst | hst
  · simp [heq, Status.reset] at h
  · rwa [hst] at h
  · rwa [hst] at h
  · rw [hst, Status.err_w1c, Bool.and_eq_true] at h
    exact h.1

/-- The reset pin raises no error (70_reset_and_hazards.md R230). -/
theorem err_of_err_resetPin {level : Bool} {s : State} (h : (resetPin level s).status.err = true) :
    s.status.err = true := by
  unfold resetPin at h
  split at h
  · cases h
  · exact h

/-- What a CMD write that fails its check `e` leaves (60_exceptions.md R210). -/
structure RaisesError (s t : State) (off : Offset) (w : Word) (rest : List HostEvent) (e : EngineError) : Prop where
  busy : s.status.busy = false
  host : s.env.host = .write off w :: rest
  atCmd : region off = .cmd
  check : checkCommand w s.qt = some e
  next : t = ((taken rest s).setLastCmd w).setStatus (s.status.clearOutcome.raised e)

/-- Along the cases of a step: ERR is set after it if it was before, or the step is a CMD write that fails its checks
(60_exceptions.md R200, R210). -/
theorem step_err_cases {s t : State} (h : step s = .next t) (he : t.status.err = true) :
    s.status.err = true ∨ ∃ off w rest e, RaisesError s t off w rest e := by
  rcases step_cases h with ⟨hr, rfl | ⟨e, rest, -, rfl⟩⟩ | ⟨-, hb, -, i, -, hc, hexec⟩ | ⟨-, -, rfl⟩ |
    ⟨-, off, rest, -, rfl⟩ | ⟨-, off, w, rest, -, -, rfl⟩ | ⟨-, off, w, rest, hh, hreg, hcmd⟩ |
    ⟨-, rest, -, rfl⟩ | ⟨-, level, rest, -, rfl⟩
  · exact .inl he
  · obtain ⟨env, henv⟩ := heldInReset_eq_setEnv hr e rest
    rw [henv] at he
    exact .inl he
  · rw [exec_busy hc hb] at hexec
    cases hexec
    exact .inl he
  · exact .inl he
  · exact .inl he
  · exact .inl (err_of_err_writeRegion (s := taken rest s) he)
  · rcases hcmd with ⟨-, rfl⟩ | ⟨hb, i, hdec, hexec⟩ | ⟨hb, hdec, rfl⟩
    · exact .inl he
    · obtain ⟨e, hcheck, ht⟩ := exec_idle_error (s := (taken rest s).setLastCmd w) hdec hb hexec he
      exact .inr ⟨off, w, rest, e, hb, hh, hreg, hcheck, ht⟩
    · exact .inr ⟨off, w, rest, .illegalCmd, hb, hh, hreg, (checkCommand_illegal_iff w s.qt).2 hdec, rfl⟩
  · split at he <;> exact .inl he
  · exact .inl (err_of_err_resetPin (s := taken rest s) he)

/-! ### The states a run from reset reaches -/

/-- The invariant holds in every state that a run from reset reaches. -/
theorem inv_of_reachable {t : State} (h : Reachable t) : Inv t := by
  obtain ⟨n, es, hruns⟩ := h
  exact runs_keep stepKeepsInvariant (inv_engineReset_setEnv State.reset _) hruns

/-- A legal ERRCODE is at most 3 (60_exceptions.md R206). -/
theorem ErrCodeLegal.toNat_errCode_le {t : Status} (h : ErrCodeLegal t) : t.errCode.toNat ≤ 3 := by
  unfold ErrCodeLegal at h
  split at h
  · simp only [List.mem_cons, List.not_mem_nil, or_false] at h
    rcases h with h | h | h <;> simp [h]
  · simp [h]

end Sys2Proof.Machine

namespace Sys2Proof

open Sys2Proof.Machine

/-- Settles O9: every compute command checks its valid region first. -/
theorem badDimensionsRaiseInvalidDim : Obligations.BadDimensionsRaiseInvalidDim := by
  intro s vw vh hb hd i hi
  have hdims : (legalDim vw && legalDim vh) = false := by
    rw [Bool.and_eq_false_iff]
    rcases hd with h | h | h | h
    · exact .inl (legalDim_eq_false (.inl h))
    · exact .inl (legalDim_eq_false (.inr h))
    · exact .inr (legalDim_eq_false (.inl h))
    · exact .inr (legalDim_eq_false (.inr h))
  simp only [List.mem_cons, List.not_mem_nil, or_false] at hi
  rcases hi with rfl | rfl | rfl | rfl <;> exact exec_invalidDim rfl hb hdims

/-- Settles O10: DCTQ and QUANT look at QT once their dimensions are legal; the STATUS of the others is a function of
the STATUS before. -/
theorem zeroDivisorRaisesInvalidQt : Obligations.ZeroDivisorRaisesInvalidQt := by
  constructor
  · intro s vw vh hb hw1 hw8 hh1 hh8 i hi
    have hdims : (legalDim vw && legalDim vh) = true :=
      Bool.and_eq_true_iff.2 ⟨(legalDim_eq_true vw).2 ⟨hw1, hw8⟩, (legalDim_eq_true vh).2 ⟨hh1, hh8⟩⟩
    obtain ⟨hc, hu, hw⟩ : isCompute i = true ∧ usesTable i = true ∧ i.wellFormed = true := by
      simp only [List.mem_cons, List.not_mem_nil, or_false] at hi
      rcases hi with rfl | rfl <;> exact ⟨rfl, rfl, hdims⟩
    exact ⟨exec_invalidQt hc hb hw hu, fun hz => ⟨_, exec_accepted hc hb hw fun _ => hz, rfl⟩⟩
  · intro s q vw vh t t' i hi h h'
    have hu : usesTable i = false := by
      simp only [List.mem_cons, List.not_mem_nil, or_false] at hi
      rcases hi with rfl | rfl | rfl | rfl <;> rfl
    rw [status_exec_tableFree hu h, status_exec_tableFree hu h']
    rfl

/-- Settles O11: of the steps, only a CMD write that fails its checks sets ERR. -/
theorem errorsArePrecise : Obligations.ErrorsArePrecise := by
  intro s t h h0 h1
  rcases step_err_cases h h1 with hold | ⟨off, w, rest, e, hb, hh, hreg, hcheck, ht⟩
  · exact absurd (h0.symm.trans hold) Bool.false_ne_true
  · exact ⟨hb, off, w, rest, e, hh, (region_eq_cmd_iff off).1 hreg, hcheck, checkCommand_ne_blockSize hcheck, ht⟩

/-- Settles O26: a reachable state meets the invariant, which lets the machine go on and keeps ERRCODE legal. -/
theorem reachableStatesAreSafe : Obligations.ReachableStatesAreSafe := by
  intro t h
  have hinv := inv_of_reachable h
  refine ⟨invariantStatesDoNotStop t hinv, ?_⟩
  rw [Status.extractLsb'_word]
  exact ErrCodeLegal.toNat_errCode_le hinv.errCode

/-- Settles O46: the bits of the two register words; a precise error sets DONE and ERR and leaves CTRL. -/
theorem interruptLineIsItsFormula : Obligations.InterruptLineIsItsFormula := by
  constructor
  · intro s
    simp only [Status.getLsbD_word, Ctrl.getLsbD_word]
    rfl
  · intro s t h h0 h1
    obtain ⟨-, off, w, rest, e, -, -, -, -, rfl⟩ := errorsArePrecise s t h h0 h1
    simp [irq]

/-- Settles O8: a word with a reserved bit or a reserved opcode decodes to no command. -/
theorem illegalWordRaisesIllegalCmd : Obligations.IllegalWordRaisesIllegalCmd := by
  intro s off w rest hr hb hh hoff hbits
  obtain ⟨e, hdec⟩ := (decode_error_iff w).2 hbits
  exact step_illegal hr hb hh ((region_eq_cmd_iff off).2 hoff) hdec

end Sys2Proof
end

section
/-! PROOFS. The resets of 70_reset_and_hazards.md: what each word of the window reads after a reset, what the pin does at
each of its levels, and the obligations O23 and O43 to O45. -/

namespace Sys2Proof.Machine

/-! ### The reset values (70_reset_and_hazards.md R232) -/

/-- A reset keeps the environment of the state before and nothing else. -/
theorem engineReset_eq (s : State) : engineReset s = State.reset.setEnv s.env := rfl

theorem packBytes_replicate_zero (i : Fin 16) : packBytes (Vector.replicate 64 0) i = 0 := by
  simp only [packBytes, Fin.getElem_fin, Vector.getElem_replicate]
  rfl

/-- CTRL is 0 after reset (10_state.md R28). -/
theorem Ctrl.word_reset : Ctrl.reset.word = 0 := by decide

/-- STATUS is 0 after reset (10_state.md R30). -/
theorem Status.word_reset : Status.reset.word = 0 := by decide

/-- After a reset, only ID and QT read a word other than 0. -/
theorem readRegion_engineReset_eq_zero {r : Region} (hid : r ≠ .id) (hqt : ∀ k, r ≠ .qtWord k) (s : State) :
    readRegion r (engineReset s) = 0 := by
  cases r
  case id => exact absurd rfl hid
  case ctrl => exact Ctrl.word_reset
  case cmd => rfl
  case status => exact Status.word_reset
  case inWord i => exact packBytes_replicate_zero i
  case qtWord k => exact absurd rfl (hqt k)
  case coefLow k => simp [readRegion]
  case coefHigh k => simp [readRegion]
  case outWord i => exact packBytes_replicate_zero i
  case reserved => rfl

/-! ### The pin at 0 (70_reset_and_hazards.md R230) -/

/-- A pin that is 0 already does not fall. -/
theorem resetPin_low {s : State} (h : s.env.rstN = false) : resetPin false s = s := by
  have henv : s.env.setRst false = s.env := by rw [← h]; rfl
  rw [resetPin, h, henv]
  rfl

/-- While the pin is 0, no event but its rise changes anything. -/
theorem heldInReset_eq_self {e : HostEvent} (he : e ≠ .rst true) {s : State} (h : s.env.rstN = false) :
    heldInReset e s = s := by
  cases e with
  | rst level =>
    cases level
    · exact resetPin_low h
    · exact absurd rfl he
  | read _ => rfl
  | write _ _ => rfl
  | wait => rfl

end Sys2Proof.Machine

namespace Sys2Proof

open Sys2Proof.Machine

/-- Settles O45: the reset keeps the environment only, and ID and QT are the words that do not read 0. -/
theorem resetValuesAreFixed : Obligations.ResetValuesAreFixed := by
  refine ⟨fun s s' henv => ?_, fun s k => ?_, fun s off => ?_, fun s => ⟨rfl, rfl, rfl⟩⟩
  · rw [engineReset_eq, engineReset_eq, henv]
  · simp
  · split_ifs with hid hqt
    · rw [region_id hid]; rfl
    · have hreg : region off = .qtWord _ := regionAt_qtWord hqt
      rw [hreg]; rfl
    · exact readRegion_engineReset_eq_zero (mt (region_eq_iff rfl).1 hid)
        (fun k hk => hqt ((wordOffset_of_operand_word off).2.1 k hk)) s

/-- Settles O23: the invariant holds of the reset state in every environment. -/
theorem resetMeetsInvariant : Obligations.ResetMeetsInvariant :=
  fun _ => inv_engineReset_setEnv State.reset _

/-- Settles O43: a CTRL write with SRST is served as the reset, whose CTRL is 0. -/
theorem softResetIsReset : Obligations.SoftResetIsReset := by
  intro s off w rest ht hoff hw hh
  have hreg := region_ctrl hoff
  rw [step_write ht hh (by simp [hreg]), hreg, writeRegion_ctrl_reset hw]
  exact ⟨rfl, Ctrl.word_reset⟩

/-- Settles O44: the pin's fall is the reset; at 0, the events before its rise are only taken off the list. -/
theorem resetPinResets : Obligations.ResetPinResets := by
  refine ⟨fun s rest ht hh => ?_, fun s e rest hr hh he => ?_, fun s => step_held_nil, fun s rest hr hh => ?_⟩
  · rw [step_rst ht hh, resetPin_fall (s := taken rest s) ht.1]
    exact ⟨_, rfl, rfl, rfl, rfl, rfl⟩
  · rw [step_held hr hh, heldInReset_eq_self (s := s.setEnv (s.env.setHost rest)) he hr]
  · rw [step_held hr hh, heldInReset, resetPin_rise]
    rfl

end Sys2Proof
end
